-- ==== Sys2Proof/Word.lean ====
section
/-! DEFINITION. The word types of the SoftSpiEngine (00 R8). -/

namespace Sys2Proof

/-- A data byte, `tx_shift`, `rx_acc` (00 R8). -/
abbrev Byte := BitVec 8

/-- A command operand, a buffer address or length, `frequency`, `half_period_count` (00 R8). -/
abbrev Word := BitVec 32

/-- `interbyte_delay_count` and `dly_cnt` (00 R8). -/
abbrev Count := BitVec 64

/-- A command word (00 R8, 30 R55). -/
abbrev CommandWord := BitVec 68

/-- The level of a pin: `true` is 1 (00 R8). -/
abbrev Level := Bool

end Sys2Proof
end

