-- ==== Sys2Proof/Config.lean ====
section
/-! DEFINITION. What an implementation fixes (the parameters of 00 R7) and the free values. -/

namespace Sys2Proof

/-- The three parameters a model takes as arguments (00 R7; 92 D3, D4, D5). Log 1. -/
structure Config where
  loopsPerSecond          : Word
  defaultFrequencyHz      : Word
  defaultInterbyteDelayUs : Word
  deriving DecidableEq, Repr

/-- The range of `LOOPS_PER_SECOND`: 1 ≤ LPS ≤ 2^32 − 1 (00 R7); the upper end holds by width. -/
abbrev Config.inRange (c : Config) : Prop := c.loopsPerSecond ≠ 0

/-- `LOOPS_PER_SECOND − 1` of the implementation, not known to any proof (93 I1). Log 1. -/
opaque Config.freeLoopsPerSecondLessOne : Fin (4294967294 + 1)

/-- `DEFAULT_FREQUENCY_HZ` of the implementation (93 I2). Log 1. -/
opaque Config.freeDefaultFrequencyHz : Word

/-- `DEFAULT_INTERBYTE_DELAY_US` of the implementation (93 I3). Log 1. -/
opaque Config.freeDefaultInterbyteDelayUs : Word

/-- The level the environment presents at a MISO read that `misoInput` does not settle (60 R132; 93 I10). Log 4. -/
opaque Config.freeMiso : Nat → Level

/-- The values of the operation registers after a reset tick (10 R36; 93 I15), cut to each register's width. Log 5. -/
opaque Config.freeRegister : Nat → Count

/-- The parameters of the implementation whose reset state is `State.reset`. -/
def Config.implementation : Config where
  loopsPerSecond          := BitVec.ofNat 32 (Config.freeLoopsPerSecondLessOne.val + 1)
  defaultFrequencyHz      := Config.freeDefaultFrequencyHz
  defaultInterbyteDelayUs := Config.freeDefaultInterbyteDelayUs

end Sys2Proof
end

