-- ==== Sys2Proof/Machine/Calibration.lean ====
section
/-! DEFINITION. The two conversions from a frequency or a delay to a loop count (40 R66, R67). -/

namespace Sys2Proof.Machine

/-- `HalfPeriod(f)` (40 R66), on natural numbers (00 R10). -/
def halfPeriod (lps f : Nat) : Nat :=
  if f = 0 then 1 else max 1 ((lps + f) / (2 * f))

/-- `InterByte(us)` (40 R67), on natural numbers (00 R10). -/
def interByte (lps us : Nat) : Nat :=
  (us * lps + 500000) / 1000000

/-- `HalfPeriod` as the value written into the 32-bit register (10 R28). -/
def halfPeriodFor (c : Config) (hz : Word) : Word :=
  BitVec.ofNat 32 (halfPeriod c.loopsPerSecond.toNat hz.toNat)

/-- `InterByte` as the value written into the 64-bit register (10 R29). -/
def interbyteFor (c : Config) (us : Word) : Count :=
  BitVec.ofNat 64 (interByte c.loopsPerSecond.toNat us.toNat)

end Sys2Proof.Machine
end

