-- ==== Sys2Proof/Machine/Memory.lean ====
section
/-! DEFINITION. The host's buffer memory (20 R40, R47): a total map from 32-bit addresses to bytes, kept as a sorted list of
the bytes that differ from what an unlisted address reads as. -/

namespace Sys2Proof.Machine

/-- Addresses strictly rising, no entry equal to `unlistedByte`. -/
abbrev Memory := List Host.Cell

/-- What an address reads as that the list does not hold. DESIGN CHOICE: the spec gives the buffer memory no contents
(20 R47), and it never faults (20 R49). Unsafe; log 2. -/
def unlistedByte : Byte := 0

/-- The byte at an address. -/
def Memory.read : Memory → Nat → Byte
  | [], _ => unlistedByte
  | (b, w) :: rest, a => if a = b then w else Memory.read rest a

/-- Stores a byte and keeps the canonical form: a byte equal to `unlistedByte` is not listed. -/
def Memory.write : Memory → Nat → Byte → Memory
  | [], a, v => if v = unlistedByte then [] else [(a, v)]
  | (b, w) :: rest, a, v =>
    if a < b then
      if v = unlistedByte then (b, w) :: rest else (a, v) :: (b, w) :: rest
    else if a = b then
      if v = unlistedByte then rest else (a, v) :: rest
    else (b, w) :: Memory.write rest a v

/-- Every listed address is above `lo − 1`, rising, inside the 32-bit space (20 R40), with a byte that needs listing. -/
def Memory.wfFrom : Nat → Memory → Bool
  | _, [] => true
  | lo, (a, v) :: rest =>
    decide (lo ≤ a) && decide (a < 2 ^ 32) && decide (v ≠ unlistedByte) && Memory.wfFrom (a + 1) rest

/-- The canonical form. -/
def Memory.wf (m : Memory) : Bool := Memory.wfFrom 0 m

end Sys2Proof.Machine
end

