-- ==== Sys2Proof/Machine/State.lean ====
section
/-! DEFINITION. The state of the block (10 R20), the reasons a step can stop, and the state after reset (10 R36). -/

namespace Sys2Proof.Machine

/-- `lifecycle` (10 R21). Its code 3 is never held, so the type has no value for it (93 I16; log 11). -/
inductive Lifecycle where
  | ready
  | busy
  | released
  deriving DecidableEq, Repr

/-- Status codes (60 R121). -/
inductive Status where
  | ok
  | invalidMode
  | invalidArgument
  | released
  deriving DecidableEq, Repr

/-- `seq`, the sequencer step (44 R102). -/
inductive Seq where
  | idle
  | load
  | a1
  | a2
  | a3
  | a4
  | a5
  | a6
  | b1
  | b2
  | b3
  | b4
  | b5
  | b6
  | store
  | ibd
  deriving DecidableEq, Repr

/-- The three lines (20 R40). -/
inductive Pin where
  | sck
  | mosi
  | miso
  deriving DecidableEq, Repr

/-- The events of a trace (00 R11). -/
inductive Event where
  /-- `SckW(v)` -/
  | sckW (v : Level)
  /-- `MosiW(v)` -/
  | mosiW (v : Level)
  /-- `MisoR(v)` -/
  | misoR (v : Level)
  /-- `Wait(n)` -/
  | wait (n : Nat)
  /-- `MemR(a, v)` -/
  | memR (a : Word) (v : Byte)
  /-- `MemW(a, v)` -/
  | memW (a : Word) (v : Byte)
  /-- `Rel(p)` -/
  | rel (p : Pin)
  /-- `Rsp(s)` -/
  | rsp (s : Status)
  deriving DecidableEq, Repr

/-- What the host does next (60 R137). Log 6, log 7. -/
inductive HostMove where
  /-- One tick with `cmd_valid = 0`. -/
  | idle
  /-- A command word, presented until it is accepted (30 R57). -/
  | cmd (w : CommandWord)
  /-- The `RESET` line of a program: one tick with `rst = 1` (30 R62). -/
  | reset
  /-- The host stores a byte in its buffer memory, while the block is not BUSY (20 R52). -/
  | poke (a : Word) (v : Byte)
  deriving DecidableEq, Repr

/-- Why the machine stops. No meaning of a command raises one. -/
inductive Fault where
  /-- Raised by `tickAction` before the first reset, in a tick without `rst` (70 R144; 93 I14: stuck). Safe. Log 8. -/
  | beforeFirstReset
  /-- Raised by `tickAction` where `lifecycle` is BUSY and `seq` is IDLE, which no run reaches (10 R35 item 6, 44 R105, R112).
  Safe. Log 10. -/
  | busyWithoutSequence
  deriving DecidableEq, Repr

/-- Why a command has no meaning. -/
inductive Refusal where
  /-- Raised by an arm of `exec` that has no meaning yet; there is none. Safe. -/
  | notModelled (mnemonic : String)
  deriving DecidableEq, Repr

structure State where
  /-- 10 R21 -/
  lifecycle           : Lifecycle
  /-- 10 R22 -/
  mode                : BitVec 2
  /-- `mode_valid`, 10 R23 -/
  modeValid           : Bool
  /-- 10 R24 -/
  cpol                : Level
  /-- 10 R27 -/
  frequency           : Word
  /-- `half_period_count`, 10 R28 -/
  halfPeriodCount     : Word
  /-- `interbyte_delay_count`, 10 R29 -/
  interbyteDelayCount : Count
  /-- `last_status`, 10 R30 -/
  lastStatus          : Status
  /-- The level driven on SCK while `sckOe` holds, 10 R26 -/
  sck                 : Level
  /-- `sck_oe`, 10 R26 -/
  sckOe               : Bool
  /-- The level driven on MOSI while `mosiOe` holds; `none` is `UNSET`, 10 R26, R39 -/
  mosi                : Option Level
  /-- `mosi_oe`, 10 R26 -/
  mosiOe              : Bool
  /-- 10 R33 -/
  base                : Word
  /-- 10 R33 -/
  len                 : Word
  /-- `byte_idx`, 10 R33 -/
  byteIdx             : Word
  /-- `bit_cnt`, 10 R33 -/
  bitCnt              : BitVec 3
  /-- `tx_shift`, 10 R32 -/
  txShift             : Byte
  /-- `rx_acc`, 10 R32 -/
  rxAcc               : Byte
  /-- 10 R34, 44 R102 -/
  seq                 : Seq
  /-- `dly_cnt`, 10 R34, 60 R131 -/
  dlyCnt              : Count
  /-- `rsp_valid`, 44 R104 -/
  rspValid            : Bool
  /-- The buffer memory, 20 R40 -/
  mem                 : Memory
  /-- The model's own: the events of the command last accepted, or of the last reset, oldest first (00 R11). Log 9. -/
  trace               : List Event
  /-- The model's own: the parameters of 00 R7, which no step writes. Log 1. -/
  config              : Config
  /-- The model's own: a reset has happened (70 R144). Log 8. -/
  hasReset            : Bool
  /-- The model's own: the levels the environment presents at the MISO reads to come (60 R132). Log 4. -/
  misoInput           : List Level
  /-- The model's own: the levels of `rst` in this tick and those to come; 0 past the end (70 R140). Log 7. -/
  rstInput            : List Level
  /-- The model's own: what the host does in this tick and those to come; nothing past the end (60 R137). Log 6. -/
  hostInput           : List HostMove
  /-- The model's own: how many free values have been drawn. Log 4. -/
  draws               : Nat
  deriving DecidableEq, Repr

/-- The state after reset, before any command (10 R36). The operation registers, which the spec leaves unspecified, are
DESIGN CHOICE 0 (log 3); the model's own fields are said in log 1, 4, 6, 7, 8 and 9. -/
def State.reset : State where
  lifecycle           := .ready
  mode                := 0
  modeValid           := true
  cpol                := false
  frequency           := Config.implementation.defaultFrequencyHz
  halfPeriodCount     := halfPeriodFor Config.implementation Config.implementation.defaultFrequencyHz
  interbyteDelayCount := interbyteFor Config.implementation Config.implementation.defaultInterbyteDelayUs
  lastStatus          := .ok
  sck                 := false
  sckOe               := true
  mosi                := none
  mosiOe              := true
  base                := 0
  len                 := 0
  byteIdx             := 0
  bitCnt              := 0
  txShift             := 0
  rxAcc               := 0
  seq                 := .idle
  dlyCnt              := 0
  rspValid            := false
  mem                 := []
  trace               := [.sckW false]
  config              := Config.implementation
  hasReset            := true
  misoInput           := []
  rstInput            := []
  hostInput           := []
  draws               := 0

end Sys2Proof.Machine
end

