-- ==== Sys2Proof/Machine/Ops.lean ====
section
/-! DEFINITION. The primitives of 00 R11 over the state. Each appends its event to the trace. -/

namespace Sys2Proof.Machine

/-- `PinWrite(SCK, v)`. -/
def State.pinWriteSck (s : State) (v : Level) : State :=
  { s with sck := v, trace := s.trace ++ [.sckW v] }

/-- `PinWrite(MOSI, v)`. -/
def State.pinWriteMosi (s : State) (v : Level) : State :=
  { s with mosi := some v, trace := s.trace ++ [.mosiW v] }

/-- The level the next `PinRead(MISO)` returns: the environment's choice (60 R132). Where `misoInput` settles nothing it is a
free value. Log 4. -/
def State.misoLevel (s : State) : Level :=
  match s.misoInput with
  | v :: _ => v
  | []     => Config.freeMiso s.draws

/-- `PinRead(MISO)`: it changes nothing of the block (20 R46). -/
def State.pinReadMiso (s : State) : State :=
  { s with
    misoInput := s.misoInput.tail
    draws     := if s.misoInput = [] then s.draws + 1 else s.draws
    trace     := s.trace ++ [.misoR s.misoLevel] }

/-- `Delay(n)`: it advances no state but time (40 R68). -/
def State.delay (s : State) (n : Nat) : State :=
  { s with trace := s.trace ++ [.wait n] }

/-- The byte `MemRead(a, 1)` returns; it never faults (20 R49). -/
def State.byteAt (s : State) (a : Word) : Byte := s.mem.read a.toNat

/-- `MemRead(a, 1)`: no side effect (20 R46). -/
def State.memRead (s : State) (a : Word) : State :=
  { s with trace := s.trace ++ [.memR a (s.byteAt a)] }

/-- `MemWrite(a, 1, v)` (20 R45). -/
def State.memWrite (s : State) (a : Word) (v : Byte) : State :=
  { s with mem := s.mem.write a.toNat v, trace := s.trace ++ [.memW a v] }

/-- `PinRelease(p)`: an output's enable goes to 0; the input is no longer read (43 R95). -/
def State.pinRelease (s : State) (p : Pin) : State :=
  { s with
    sckOe  := if p = .sck then false else s.sckOe
    mosiOe := if p = .mosi then false else s.mosiOe
    trace  := s.trace ++ [.rel p] }

/-- `respond(st)`: the status of the command is presented in the next tick and kept in `last_status` (30 R61, 44 R104). -/
def State.respond (s : State) (st : Status) : State :=
  { s with lastStatus := st, rspValid := true, trace := s.trace ++ [.rsp st] }

/-- `raise e`: the error response is this block's whole trap entry: no state is saved, nothing is vectored, and control goes
nowhere (60 R120, R125, R127). There is no return from it (60 R128). -/
def State.raise (s : State) (e : Status) : State := s.respond e

end Sys2Proof.Machine
end

