-- ==== Sys2Proof/Machine/Lifecycle.lean ====
section
/-! DEFINITION. DESTROY (43 R95) and reset (70 R141). -/

namespace Sys2Proof.Machine

/-- DESTROY (43 R95): the registers keep their values. -/
def destroyEffect (s : State) : State :=
  if s.lifecycle = .released then s.raise .released
  else
    ({ ((s.pinRelease .sck).pinRelease .mosi).pinRelease .miso with lifecycle := .released } : State).respond .ok

/-- DESTROY completes in its accept tick (44 R103). -/
def execDestroy (s : State) : Host.Outcome State Fault Refusal :=
  .next (destroyEffect s)

/-- The operation registers after a reset tick: unspecified (10 R36), so free values. Log 5. -/
def State.unspecifyOperation (s : State) : State :=
  { s with
    base    := (Config.freeRegister s.draws).setWidth 32
    len     := (Config.freeRegister (s.draws + 1)).setWidth 32
    byteIdx := (Config.freeRegister (s.draws + 2)).setWidth 32
    bitCnt  := (Config.freeRegister (s.draws + 3)).setWidth 3
    txShift := (Config.freeRegister (s.draws + 4)).setWidth 8
    rxAcc   := (Config.freeRegister (s.draws + 5)).setWidth 8
    dlyCnt  := Config.freeRegister (s.draws + 6)
    draws   := s.draws + 7 }

/-- CREATE, the whole of it in one reset tick (70 R141): mode, frequency and delay take their defaults in this order; no
response; the buffer memory is not touched (70 R143). -/
def create (s : State) : State :=
  let s1 : State :=
    { s.unspecifyOperation with
      sckOe      := true
      mosiOe     := true
      mosi       := none
      lifecycle  := .ready
      seq        := .idle
      lastStatus := .ok
      rspValid   := false
      hasReset   := true
      trace      := []
      mode       := 0
      cpol       := false
      modeValid  := true }
  { s1.pinWriteSck false with
    frequency           := s.config.defaultFrequencyHz
    halfPeriodCount     := halfPeriodFor s.config s.config.defaultFrequencyHz
    interbyteDelayCount := interbyteFor s.config s.config.defaultInterbyteDelayUs }

end Sys2Proof.Machine
end

