-- ==== Sys2Proof/Machine/Flags.lean ====
section
/-! DEFINITION. What the mode determines: the idle level and the edge-order family (41 R74 to R77). -/

namespace Sys2Proof.Machine

/-- The idle level of SCK: 1 iff the mode is 2 or 3, that is `mode[1]` (41 R75). -/
def cpolOf (mode : BitVec 2) : Level := mode.getLsbD 1

/-- The source's phase label: `NOT mode[0]` (10 R25, 41 R77). It names the edge-order family and has not the conventional
meaning (90 C2). -/
def cphaOf (mode : BitVec 2) : Level := !mode.getLsbD 0

/-- Modes 0 and 2 drive MOSI before the leading edge (41 R76). -/
def driveFirst (mode : BitVec 2) : Bool := !mode.getLsbD 0

end Sys2Proof.Machine
end

