-- ==== Sys2Proof/Machine/Operands.lean ====
section
/-! DEFINITION. The checks a command makes on its operands. -/

namespace Sys2Proof.Machine

/-- SETMODE's operand is one of 0 to 3 (41 R78). -/
def legalMode (m : Word) : Bool := decide (m.toNat ≤ 3)

/-- `m[1:0]` (41 R78). -/
def modeBits (m : Word) : BitVec 2 := m.extractLsb' 0 2

/-- A WRITE's range fits the address space: `zext_33(base) + zext_33(len) ≤ 2^32` (20 R48). -/
def rangeFits (base len : Word) : Bool := decide (base.toNat + len.toNat ≤ 2 ^ 32)

end Sys2Proof.Machine
end

