-- ==== Sys2Proof/Machine/Mode.lean ====
section
/-! DEFINITION. SETMODE (41 R78). -/

namespace Sys2Proof.Machine

/-- SETMODE (41 R78). An illegal operand leaves `mode`, `cpol` and SCK alone and clears `mode_valid` (90 C5). -/
def setmodeEffect (m : Word) (s : State) : State :=
  if s.lifecycle = .released then s.raise .released
  else if legalMode m then
    (({ s with mode := modeBits m, cpol := cpolOf (modeBits m), modeValid := true } : State).pinWriteSck
      (cpolOf (modeBits m))).respond .ok
  else ({ s with modeValid := false } : State).raise .invalidMode

/-- SETMODE completes in its accept tick (44 R103). -/
def execSetmode (m : Word) (s : State) : Host.Outcome State Fault Refusal :=
  .next (setmodeEffect m s)

end Sys2Proof.Machine
end

