-- ==== Sys2Proof/Machine/Reserved.lean ====
section
/-! DEFINITION. The reserved ops 0x0 and 0x6 to 0xF (30 R60). -/

namespace Sys2Proof.Machine

/-- A reserved op (30 R60): accepted, no effect, InvalidArgument, or Released in RELEASED (60 R126). -/
def reservedEffect (s : State) : State :=
  if s.lifecycle = .released then s.raise .released else s.raise .invalidArgument

/-- RESERVED_0 (30 R60). -/
def execReserved0 (s : State) : Host.Outcome State Fault Refusal := .next (reservedEffect s)

/-- RESERVED_6 (30 R60). -/
def execReserved6 (s : State) : Host.Outcome State Fault Refusal := .next (reservedEffect s)

/-- RESERVED_7 (30 R60). -/
def execReserved7 (s : State) : Host.Outcome State Fault Refusal := .next (reservedEffect s)

/-- RESERVED_8 (30 R60). -/
def execReserved8 (s : State) : Host.Outcome State Fault Refusal := .next (reservedEffect s)

/-- RESERVED_9 (30 R60). -/
def execReserved9 (s : State) : Host.Outcome State Fault Refusal := .next (reservedEffect s)

/-- RESERVED_A (30 R60). -/
def execReservedA (s : State) : Host.Outcome State Fault Refusal := .next (reservedEffect s)

/-- RESERVED_B (30 R60). -/
def execReservedB (s : State) : Host.Outcome State Fault Refusal := .next (reservedEffect s)

/-- RESERVED_C (30 R60). -/
def execReservedC (s : State) : Host.Outcome State Fault Refusal := .next (reservedEffect s)

/-- RESERVED_D (30 R60). -/
def execReservedD (s : State) : Host.Outcome State Fault Refusal := .next (reservedEffect s)

/-- RESERVED_E (30 R60). -/
def execReservedE (s : State) : Host.Outcome State Fault Refusal := .next (reservedEffect s)

/-- RESERVED_F (30 R60). -/
def execReservedF (s : State) : Host.Outcome State Fault Refusal := .next (reservedEffect s)

end Sys2Proof.Machine
end

