-- ==== Sys2Proof/Machine/Timing.lean ====
section
/-! DEFINITION. SETFREQ and SETDELAY (40 R69, R70). -/

namespace Sys2Proof.Machine

/-- SETFREQ (40 R69): `frequency` and its count in one operation; every operand is accepted. -/
def setfreqEffect (hz : Word) (s : State) : State :=
  if s.lifecycle = .released then s.raise .released
  else ({ s with frequency := hz, halfPeriodCount := halfPeriodFor s.config hz } : State).respond .ok

/-- SETDELAY (40 R70): the microsecond operand is not kept (10 R29). -/
def setdelayEffect (us : Word) (s : State) : State :=
  if s.lifecycle = .released then s.raise .released
  else ({ s with interbyteDelayCount := interbyteFor s.config us } : State).respond .ok

/-- SETFREQ completes in its accept tick (44 R103). -/
def execSetfreq (hz : Word) (s : State) : Host.Outcome State Fault Refusal :=
  .next (setfreqEffect hz s)

/-- SETDELAY completes in its accept tick (44 R103). -/
def execSetdelay (us : Word) (s : State) : Host.Outcome State Fault Refusal :=
  .next (setdelayEffect us s)

end Sys2Proof.Machine
end

