-- ==== Sys2Proof/Machine/Transfer.lean ====
section
/-! DEFINITION. The bit, the byte and the buffer at the transaction level (42 R81 to R88), and the acceptance of a WRITE at the
tick level (44 R103, R105). -/

namespace Sys2Proof.Machine

/-- `H`, as the number of iterations of `Delay(H)`. -/
def State.halfPeriodTicks (s : State) : Nat := s.halfPeriodCount.toNat

/-- `D`, as the number of iterations of `Delay(D)`. -/
def State.interbyteTicks (s : State) : Nat := s.interbyteDelayCount.toNat

/-- TransferBit of modes 0 and 2 (42 R81): the level read, and the state after the bit. -/
def transferBitDriveFirst (b : Level) (s : State) : Level × State :=
  let s1 := (s.pinWriteMosi b).delay s.halfPeriodTicks
  let r  := s1.misoLevel
  let s2 := (s1.pinReadMiso.pinWriteSck (!s.cpol)).delay s.halfPeriodTicks
  (r, s2.pinWriteSck s.cpol)

/-- TransferBit of modes 1 and 3 (42 R82). -/
def transferBitClockFirst (b : Level) (s : State) : Level × State :=
  let s1 := ((s.pinWriteSck (!s.cpol)).pinWriteMosi b).delay s.halfPeriodTicks
  let s2 := s1.pinWriteSck s.cpol
  let r  := s2.misoLevel
  (r, s2.pinReadMiso.delay s.halfPeriodTicks)

/-- TransferBit: the family follows from `mode[0]` (41 R76, 42 R83). -/
def transferBit (b : Level) (s : State) : Level × State :=
  if driveFirst s.mode then transferBitDriveFirst b s else transferBitClockFirst b s

/-- `((r << 1) | x)[7:0]` (42 R84). -/
def shiftIn (r : Byte) (x : Level) : Byte := (r <<< 1) ||| (BitVec.ofBool x).setWidth 8

/-- `(t << 1)[7:0]` (42 R84). -/
def shiftOut (t : Byte) : Byte := t <<< 1

/-- The loop of TransferByte (42 R84): `t` is `tx_shift` and `r` is `rx_acc` (10 R32). -/
def transferBits : Nat → State → State
  | 0, s => s
  | n + 1, s =>
    let p := transferBit s.txShift.msb s
    transferBits n { p.2 with rxAcc := shiftIn p.2.rxAcc p.1, txShift := shiftOut p.2.txShift }

/-- TransferByte (42 R84): the byte received, and the state after the byte. -/
def transferByte (o : Byte) (s : State) : Byte × State :=
  let t := transferBits 8 { s with txShift := o, rxAcc := 0 }
  (t.rxAcc, t)

/-- The body of WRITE's loop for the byte at address `a` (42 R86): the delay follows every byte (42 R88). -/
def transferAt (a : Word) (s : State) : State :=
  let p := transferByte (s.byteAt a) (s.memRead a)
  (p.2.memWrite a p.1).delay s.interbyteTicks

/-- WRITE's loop over `n` bytes from address `a` upward (42 R86, 20 R50). -/
def transferBuffer : Nat → Word → State → State
  | 0, _, s => s
  | n + 1, a, s => transferBuffer n (a + 1) (transferAt a s)

/-- WRITE at the transaction level, whole (42 R86, R87). -/
def writeTransaction (base len : Word) (s : State) : State :=
  if s.lifecycle = .released then s.raise .released
  else if s.modeValid = false then s.raise .invalidMode
  else if rangeFits base len = false then s.raise .invalidArgument
  else if len = 0 then s.respond .ok
  else
    ({ transferBuffer len.toNat base { s with lifecycle := .busy } with lifecycle := .ready } : State).respond .ok

/-- WRITE in its accept tick (44 R103, R105): the checks of 42 R86 in their order (60 R126); one that passes them with
`len > 0` starts the sequencer and completes later (44 R112). -/
def writeAccept (base len : Word) (s : State) : State :=
  if s.lifecycle = .released then s.raise .released
  else if s.modeValid = false then s.raise .invalidMode
  else if rangeFits base len = false then s.raise .invalidArgument
  else if len = 0 then s.respond .ok
  else { s with lifecycle := .busy, base := base, len := len, byteIdx := 0, seq := .load }

/-- WRITE in its accept tick; `seqTick` runs the bytes (44 R105 to R112). Log 15. -/
def execWrite (base len : Word) (s : State) : Host.Outcome State Fault Refusal :=
  .next (writeAccept base len s)

end Sys2Proof.Machine
end

