-- ==== Sys2Proof/Syntax.lean ====
section
/-! DEFINITION. The commands of the block: one constructor per row of spec/opcode_table.json, in its order (30 R59). -/

namespace Sys2Proof

/-- A command with the operands its row names (30 R58, R59). Every operand is an unsigned 32-bit number, so the type
itself keeps each one in its field; the bits a command does not read are no part of it (30 R58). -/
inductive Instr where
  /-- SETFREQ, op 0x1 (40 R69). -/
  | setfreq (hz : Word)
  /-- SETMODE, op 0x2 (41 R78): the operand is any 32-bit value; only 0 to 3 succeed. -/
  | setmode (m : Word)
  /-- SETDELAY, op 0x3 (40 R70). -/
  | setdelay (us : Word)
  /-- WRITE, op 0x4 (42 R86). -/
  | write (base len : Word)
  /-- DESTROY, op 0x5 (43 R95). -/
  | destroy
  /-- The reserved op 0x0 (30 R60). -/
  | reserved0
  /-- The reserved op 0x6 (30 R60). -/
  | reserved6
  /-- The reserved op 0x7 (30 R60). -/
  | reserved7
  /-- The reserved op 0x8 (30 R60). -/
  | reserved8
  /-- The reserved op 0x9 (30 R60). -/
  | reserved9
  /-- The reserved op 0xA (30 R60). -/
  | reservedA
  /-- The reserved op 0xB (30 R60). -/
  | reservedB
  /-- The reserved op 0xC (30 R60). -/
  | reservedC
  /-- The reserved op 0xD (30 R60). -/
  | reservedD
  /-- The reserved op 0xE (30 R60). -/
  | reservedE
  /-- The reserved op 0xF (30 R60). -/
  | reservedF
  deriving DecidableEq, Repr

end Sys2Proof
end

