-- ==== Sys2Proof/Decode.lean ====
section
/-! DEFINITION. The decoder and the encoder of the 68-bit command word (30 R55 to R60).

A command is presented in parallel (30 R55), so the decoder reads one number and no byte order arises. -/

namespace Sys2Proof

/-- `op`, bits 67 to 64 (30 R56). -/
def opField (w : CommandWord) : BitVec 4 := w.extractLsb' 64 4

/-- `arg0`, bits 63 to 32 (30 R56). -/
def arg0Field (w : CommandWord) : Word := w.extractLsb' 32 32

/-- `arg1`, bits 31 to 0 (30 R56). -/
def arg1Field (w : CommandWord) : Word := w.extractLsb' 0 32

/-- The opcode map (30 R59, R60). Every value of `op` is some row, so no 68-bit word is refused; the bits a row does not
name are ignored (30 R58). -/
def decodeWord (w : CommandWord) : Instr :=
  match (opField w).toNat with
  | 0  => .reserved0
  | 1  => .setfreq (arg0Field w)
  | 2  => .setmode (arg0Field w)
  | 3  => .setdelay (arg0Field w)
  | 4  => .write (arg0Field w) (arg1Field w)
  | 5  => .destroy
  | 6  => .reserved6
  | 7  => .reserved7
  | 8  => .reserved8
  | 9  => .reserved9
  | 10 => .reservedA
  | 11 => .reservedB
  | 12 => .reservedC
  | 13 => .reservedD
  | 14 => .reservedE
  | _  => .reservedF

/-- Why a number is no command. -/
inductive DecodeReject where
  /-- It does not fit the 68 bits of the command port (30 R55). Safe: no such word can be presented. -/
  | widerThanCommandWord
  deriving DecidableEq, Repr

/-- The decoder on any number: a command word, or rejected by name. -/
def decode (n : Nat) : Except DecodeReject Instr :=
  if n < 2 ^ 68 then .ok (decodeWord (BitVec.ofNat 68 n)) else .error .widerThanCommandWord

/-- `{op, arg0, arg1}` (30 R56). -/
def packFields (op : BitVec 4) (arg0 arg1 : Word) : CommandWord := op ++ arg0 ++ arg1

/-- The word an assembler emits for a command: every ignored bit is 0 (30 R59, R62). -/
def encode : Instr → CommandWord
  | .setfreq hz     => packFields 0x1#4 hz 0
  | .setmode m      => packFields 0x2#4 m 0
  | .setdelay us    => packFields 0x3#4 us 0
  | .write base len => packFields 0x4#4 base len
  | .destroy        => packFields 0x5#4 0 0
  | .reserved0      => packFields 0x0#4 0 0
  | .reserved6      => packFields 0x6#4 0 0
  | .reserved7      => packFields 0x7#4 0 0
  | .reserved8      => packFields 0x8#4 0 0
  | .reserved9      => packFields 0x9#4 0 0
  | .reservedA      => packFields 0xA#4 0 0
  | .reservedB      => packFields 0xB#4 0 0
  | .reservedC      => packFields 0xC#4 0 0
  | .reservedD      => packFields 0xD#4 0 0
  | .reservedE      => packFields 0xE#4 0 0
  | .reservedF      => packFields 0xF#4 0 0

/-- The bits of the word a command reads: `op`, and the operand fields its row names (30 R56, R58). -/
def bitsRead : Instr → CommandWord
  | .setfreq _  => packFields 0xF#4 0xFFFFFFFF#32 0
  | .setmode _  => packFields 0xF#4 0xFFFFFFFF#32 0
  | .setdelay _ => packFields 0xF#4 0xFFFFFFFF#32 0
  | .write _ _  => packFields 0xF#4 0xFFFFFFFF#32 0xFFFFFFFF#32
  | .destroy    => packFields 0xF#4 0 0
  | .reserved0  => packFields 0xF#4 0 0
  | .reserved6  => packFields 0xF#4 0 0
  | .reserved7  => packFields 0xF#4 0 0
  | .reserved8  => packFields 0xF#4 0 0
  | .reserved9  => packFields 0xF#4 0 0
  | .reservedA  => packFields 0xF#4 0 0
  | .reservedB  => packFields 0xF#4 0 0
  | .reservedC  => packFields 0xF#4 0 0
  | .reservedD  => packFields 0xF#4 0 0
  | .reservedE  => packFields 0xF#4 0 0
  | .reservedF  => packFields 0xF#4 0 0

/-- The number `w` seen as a row of the opcode table sees it: its `nbits` low bits, every bit above them 0. -/
def tableBits (nbits w : Nat) : Nat := w % 2 ^ nbits

/-- What the decoder reads from a word numbered as spec/opcode_table.json numbers it. -/
def decodeTableWord (nbits w : Nat) : Option Instr :=
  match decode (tableBits nbits w) with
  | .ok i    => some i
  | .error _ => none

end Sys2Proof
end

