-- ==== Sys2Proof/Machine/HostPort.lean ====
section
/-! DEFINITION. What a tick does, from the inputs of the tick (30 R57; 44 R100, R103; 60 R137). -/

namespace Sys2Proof.Machine

/-- What happens in a tick, with the state it happens to. -/
inductive TickAction where
  /-- A reset tick: nothing else happens (44 R100). -/
  | reset (s : State)
  /-- The machine stops. -/
  | stuck (r : Fault)
  /-- A tick of the running WRITE. -/
  | sequence (s : State)
  /-- A command is accepted (30 R57). -/
  | command (i : Instr) (s : State)
  /-- The block does nothing in this tick. -/
  | quiet (s : State)

/-- The level of `rst` in this tick (70 R140): the input, or a RESET line of the host's program. Log 7. -/
def State.rstAsserted (s : State) : Bool :=
  s.rstInput.headD false || s.hostInput.head? == some .reset

/-- The moves the host has left after this tick, where it presents a command or a store for the next one: an idle tick and a
reset tick pass whatever the block does. -/
def passTick : List HostMove → List HostMove
  | .idle :: rest  => rest
  | .reset :: rest => rest
  | moves          => moves

/-- The inputs pass to the next tick, and the response of the last one is over: `rsp_valid` is 0 in every tick not directly
after a completion (44 R104). -/
def State.nextInputs (s : State) : State :=
  { s with rstInput := s.rstInput.tail, hostInput := passTick s.hostInput, rspValid := false }

/-- The host's tick where the block is not BUSY and `rst` is 0: a presented command is accepted (30 R57) and begins a new
trace; a store of the host lands (20 R52, 60 R137). -/
def hostTick (s : State) (moves : List HostMove) : TickAction :=
  match moves with
  | .cmd w :: rest    => .command (decodeWord w) { s with hostInput := rest, trace := [] }
  | .poke a v :: rest => .quiet { s with hostInput := rest, mem := s.mem.write a.toNat v }
  | _                 => .quiet s

/-- What this tick does. A reset tick does nothing else (44 R100), so a STORE in it stores nothing, though `mem_we` is 1 in it:
DESIGN CHOICE, unsafe, log 22. -/
def tickAction (s : State) : TickAction :=
  if s.rstAsserted then .reset s.nextInputs
  else if s.hasReset = false then .stuck .beforeFirstReset
  else if s.lifecycle = .busy then
    if s.seq = .idle then .stuck .busyWithoutSequence else .sequence s.nextInputs
  else hostTick s.nextInputs s.hostInput

/-- The inputs with `rst` at 0 in this tick. -/
def withoutReset : List Level → List Level
  | []        => []
  | _ :: rest => false :: rest

/-- The command word `w` stands on the command port, `rst` is 0. -/
def State.presentCommand (s : State) (w : CommandWord) : State :=
  { s with hostInput := .cmd w :: s.hostInput, rstInput := withoutReset s.rstInput }

end Sys2Proof.Machine
end

