-- ==== Sys2Proof/Machine/Sequencer.lean ====
section
/-! DEFINITION. One tick of a running WRITE (44 R102, R106 to R112). -/

namespace Sys2Proof.Machine

/-- Enters a wait step of `n` ticks (44 R102): it loads `dly_cnt`; a wait of 0 is skipped, so `done` happens in this tick.
The event `Wait(n)` is recorded here (log 16). -/
def State.enterWait (s : State) (n : Count) (step : Seq) (done : State → State) : State :=
  if n = 0 then done (s.delay 0) else { s.delay n.toNat with seq := step, dlyCnt := n }

/-- One tick of a wait step (44 R102): it is left on the tick where `dly_cnt` is 1. -/
def State.waitTick (s : State) (done : State → State) : State :=
  if s.dlyCnt = 1 then done s else { s with dlyCnt := s.dlyCnt - 1 }

/-- The first step of a bit (44 R106, R109). -/
def firstBitStep (mode : BitVec 2) : Seq := if driveFirst mode then .a1 else .b1

/-- `H` as a `dly_cnt` value. -/
def State.halfPeriodWait (s : State) : Count := s.halfPeriodCount.setWidth 64

/-- The address of the byte in flight (44 R106, R110). -/
def State.flightAddress (s : State) : Word := s.base + s.byteIdx

/-- The WRITE completes (44 R112). The operation registers but `seq` keep the values the last byte left in them, though 93 I15
allows any value outside a WRITE: log 21, DEDUCED from 10 R38 and 44 R112, unsafe. -/
def State.completeWrite (s : State) : State :=
  ({ s with lifecycle := .ready, seq := .idle } : State).respond .ok

/-- The byte ends (44 R111). -/
def State.endByte (s : State) : State :=
  if s.byteIdx + 1 = s.len then s.completeWrite
  else { s with byteIdx := s.byteIdx + 1, seq := .load }

/-- The bit ends (44 R109). -/
def State.endBit (s : State) : State :=
  if s.bitCnt = 7 then { s with seq := .store }
  else { s with bitCnt := s.bitCnt + 1, seq := firstBitStep s.mode }

/-- LOAD (44 R106). -/
def State.loadTick (s : State) : State :=
  { s.memRead s.flightAddress with
    txShift := s.byteAt s.flightAddress
    rxAcc   := 0
    bitCnt  := 0
    seq     := firstBitStep s.mode }

/-- The MOSI drive of A1 and B2: bit 7 of `tx_shift`, which shifts (44 R107, R108). -/
def State.driveBit (s : State) : State :=
  { s.pinWriteMosi s.txShift.msb with txShift := shiftOut s.txShift }

/-- The MISO read of A3 and B5, into bit 0 of `rx_acc` (44 R107, R108). -/
def State.sampleBit (s : State) : State :=
  { s.pinReadMiso with rxAcc := shiftIn s.rxAcc s.misoLevel }

/-- The leading edge: SCK to the active level (44 R107, R108). -/
def State.leadingEdge (s : State) : State := s.pinWriteSck (!s.cpol)

/-- The trailing edge: SCK back to the idle level (44 R107, R108). -/
def State.trailingEdge (s : State) : State := s.pinWriteSck s.cpol

/-- STORE (44 R110), up to the inter-byte delay. -/
def State.storeByte (s : State) : State := s.memWrite s.flightAddress s.rxAcc

/-- Continues at a step. -/
def State.goto (s : State) (step : Seq) : State := { s with seq := step }

/-- One tick of the sequencer (44 R106 to R112). `IDLE` has no tick: `tickAction` does not come here with it. -/
def seqTick (s : State) : State :=
  match s.seq with
  | .idle  => s
  | .load  => s.loadTick
  | .a1    => s.driveBit.enterWait s.halfPeriodWait .a2 (fun t => t.goto .a3)
  | .a2    => s.waitTick (fun t => t.goto .a3)
  | .a3    => s.sampleBit.goto .a4
  | .a4    => s.leadingEdge.enterWait s.halfPeriodWait .a5 (fun t => t.goto .a6)
  | .a5    => s.waitTick (fun t => t.goto .a6)
  | .a6    => s.trailingEdge.endBit
  | .b1    => s.leadingEdge.goto .b2
  | .b2    => s.driveBit.enterWait s.halfPeriodWait .b3 (fun t => t.goto .b4)
  | .b3    => s.waitTick (fun t => t.goto .b4)
  | .b4    => s.trailingEdge.goto .b5
  | .b5    => s.sampleBit.enterWait s.halfPeriodWait .b6 State.endBit
  | .b6    => s.waitTick State.endBit
  | .store => s.storeByte.enterWait s.interbyteDelayCount .ibd State.endByte
  | .ibd   => s.waitTick State.endByte

end Sys2Proof.Machine
end

