-- ==== Sys2Proof/Machine/Step.lean ====
section
/-! DEFINITION. One step of the machine: one tick of `clk` (44 R100). -/

namespace Sys2Proof.Machine

/-- One tick: reset, a tick of the running WRITE, the acceptance of a command, or nothing. -/
def step (s : State) : Host.Outcome State Fault Refusal :=
  match tickAction s with
  | .reset t     => .next (create t)
  | .stuck r     => .fault r
  | .sequence t  => .next (seqTick t)
  | .command i t => exec i t
  | .quiet t     => .next t

/-- `s` with the word `w` of the opcode table on the command port, where `step` takes its next command from (log 13). -/
def State.withFetchWord (s : State) (nbits w : Nat) : State :=
  s.presentCommand (BitVec.ofNat 68 (tableBits nbits w))

end Sys2Proof.Machine
end

