-- ==== Sys2Proof/WellFormed.lean ====
section
/-! DEFINITION. The lines of a test program (30 R62, R63) and the check that each number fits its field.

`Instr` itself needs no check: each operand is a 32-bit word by its type, and every value of it is encodable (30 R58, R62).
A source line carries plain numbers, so it is here that a term can be ill formed. -/

namespace Sys2Proof

/-- One line of a program: a command, the escape `.cmd`, the two lines that are not commands (`RESET`, `MEM[a] = v`), or a
pseudo-command (30 R62, R63). -/
inductive AsmLine where
  | setfreq (hz : Nat)
  | setmode (m : Nat)
  | setdelay (us : Nat)
  | write (base len : Nat)
  | destroy
  /-- `.cmd <word>`: any 68-bit word, reserved ones included. -/
  | cmd (word : Nat)
  /-- `RESET`: one tick with `rst = 1`. -/
  | reset
  /-- `MEM[a] = v`: the host sets buffer byte `a` to `v`. -/
  | mem (a v : Nat)
  /-- `CREATE`, the same as `RESET` (30 R63). -/
  | create
  /-- `CONFIGURE <m>, <hz>, <us>` (30 R63). -/
  | configure (m hz us : Nat)
  /-- `TRANSFER <base>, <len>`, the same as `WRITE` (30 R63). -/
  | transfer (base len : Nat)
  deriving DecidableEq, Repr

/-- A number fits an operand field: 0 to 2^32 − 1 (30 R62). -/
def fitsOperand (n : Nat) : Bool := decide (n < 2 ^ 32)

/-- A number fits the command word (30 R62: any 68-bit word). -/
def fitsCommandWord (n : Nat) : Bool := decide (n < 2 ^ 68)

/-- A number fits a buffer byte (20 R40). -/
def fitsByte (n : Nat) : Bool := decide (n < 2 ^ 8)

/-- Each number of the line is in its field's range (30 R62). -/
def AsmLine.wellFormed : AsmLine → Bool
  | .setfreq hz        => fitsOperand hz
  | .setmode m         => fitsOperand m
  | .setdelay us       => fitsOperand us
  | .write base len    => fitsOperand base && fitsOperand len
  | .destroy           => true
  | .cmd word          => fitsCommandWord word
  | .reset             => true
  | .mem a v           => fitsOperand a && fitsByte v
  | .create            => true
  | .configure m hz us => fitsOperand m && fitsOperand hz && fitsOperand us
  | .transfer base len => fitsOperand base && fitsOperand len

end Sys2Proof
end

