-- ==== Sys2Proof/Machine/Assembler.lean ====
section
/-! DEFINITION. From the text of a test program to what the host does (30 R62, R63). -/

namespace Sys2Proof.Machine

/-- A word of a source line, or a mark. -/
inductive Token where
  | word (cs : List Char)
  | comma
  | openBracket
  | closeBracket
  | equals
  deriving DecidableEq, Repr

/-- `;` to the end of the line is a comment (30 R62). -/
def dropComment : List Char → List Char
  | [] => []
  | c :: cs => if c = ';' then [] else c :: dropComment cs

/-- The mark a character is, if it is one. -/
def markOf (c : Char) : Option Token :=
  if c = ',' then some .comma
  else if c = '[' then some .openBracket
  else if c = ']' then some .closeBracket
  else if c = '=' then some .equals
  else none

/-- The word read so far, put before the tokens that follow it. -/
def closeWord (w : List Char) (ts : List Token) : List Token :=
  if w = [] then ts else .word w.reverse :: ts

/-- Words are parted by blanks and marks; `w` is the word being read, last character first. Log 18. -/
def tokensFrom (w : List Char) : List Char → List Token
  | [] => closeWord w []
  | c :: cs =>
    if c = ' ' ∨ c = '\t' ∨ c = '\r' then closeWord w (tokensFrom [] cs)
    else match markOf c with
      | some t => closeWord w (t :: tokensFrom [] cs)
      | none   => tokensFrom (c :: w) cs

/-- The tokens of a source line. -/
def tokens (line : List Char) : List Token := tokensFrom [] (dropComment line)

/-- The value of a digit in base 16; those below 10 serve base 10 too. The letters of hex digits are read in either case, which
30 R62 and 00 R9 leave open: DESIGN CHOICE, log 18. -/
def digitValue (c : Char) : Option Nat :=
  if '0' ≤ c ∧ c ≤ '9' then some (c.toNat - '0'.toNat)
  else if 'a' ≤ c ∧ c ≤ 'f' then some (c.toNat - 'a'.toNat + 10)
  else if 'A' ≤ c ∧ c ≤ 'F' then some (c.toNat - 'A'.toNat + 10)
  else none

/-- The digits of a number after `acc`; `_` is a separator (00 R9). Where it may stand the spec does not say: after the first
digit it may stand anywhere, doubled and at the end too. DESIGN CHOICE, log 18. -/
def digitsFrom (radix acc : Nat) : List Char → Option Nat
  | [] => some acc
  | c :: cs =>
    if c = '_' then digitsFrom radix acc cs
    else match digitValue c with
      | some d => if d < radix then digitsFrom radix (acc * radix + d) cs else none
      | none   => none

/-- A number in decimal or `0x` hex (30 R62). That it begins with a digit, with leading zeros allowed, and that the `x` is a
small letter: DESIGN CHOICE, log 18. -/
def number : List Char → Option Nat
  | '0' :: 'x' :: c :: cs => if c = '_' then none else digitsFrom 16 0 (c :: cs)
  | c :: cs               => if c = '_' then none else digitsFrom 10 0 (c :: cs)
  | []                    => none

/-- The numbers of an operand list, parted by commas. -/
def operandList : List Token → Option (List Nat)
  | [] => some []
  | [.word w] => (number w).map ([·])
  | .word w :: .comma :: rest =>
    match number w, operandList rest with
    | some n, some (m :: ms) => some (n :: m :: ms)
    | _, _                   => none
  | _ => none

/-- A command or a pseudo-command with its operands (30 R62, R63). -/
def commandLine (name : List Char) (args : List Nat) : Option AsmLine :=
  if name = ['S', 'E', 'T', 'F', 'R', 'E', 'Q'] then
    match args with | [hz] => some (.setfreq hz) | _ => none
  else if name = ['S', 'E', 'T', 'M', 'O', 'D', 'E'] then
    match args with | [m] => some (.setmode m) | _ => none
  else if name = ['S', 'E', 'T', 'D', 'E', 'L', 'A', 'Y'] then
    match args with | [us] => some (.setdelay us) | _ => none
  else if name = ['W', 'R', 'I', 'T', 'E'] then
    match args with | [b, n] => some (.write b n) | _ => none
  else if name = ['D', 'E', 'S', 'T', 'R', 'O', 'Y'] then
    match args with | [] => some .destroy | _ => none
  else if name = ['.', 'c', 'm', 'd'] then
    match args with | [w] => some (.cmd w) | _ => none
  else if name = ['R', 'E', 'S', 'E', 'T'] then
    match args with | [] => some .reset | _ => none
  else if name = ['C', 'R', 'E', 'A', 'T', 'E'] then
    match args with | [] => some .create | _ => none
  else if name = ['C', 'O', 'N', 'F', 'I', 'G', 'U', 'R', 'E'] then
    match args with | [m, hz, us] => some (.configure m hz us) | _ => none
  else if name = ['T', 'R', 'A', 'N', 'S', 'F', 'E', 'R'] then
    match args with | [b, n] => some (.transfer b n) | _ => none
  else none

/-- `MEM[a] = v` (30 R62). -/
def memLine : List Token → Option AsmLine
  | [.openBracket, .word a, .closeBracket, .equals, .word v] =>
    match number a, number v with
    | some a, some v => some (.mem a v)
    | _, _           => none
  | _ => none

/-- A source line read, with no check of its numbers' ranges. A blank or comment-only line gives `none`, as an ill-formed one
does: 30 R62 says "one command per line" and is silent on it. DESIGN CHOICE, log 18. -/
def readLine (line : List Char) : Option AsmLine :=
  match tokens line with
  | .word name :: rest =>
    if name = ['M', 'E', 'M'] then memLine rest else (operandList rest).bind (commandLine name)
  | _ => none

/-- A source line whose numbers are in range (30 R62). -/
def parseLine (line : List Char) : Option AsmLine :=
  (readLine line).filter AsmLine.wellFormed

/-- The pseudo-commands expanded (30 R63); another line is itself. -/
def expandLine : AsmLine → List AsmLine
  | .create            => [.reset]
  | .configure m hz us => [.setmode m, .setfreq hz, .setdelay us]
  | .transfer base len => [.write base len]
  | l                  => [l]

/-- What the host does for a line that is no pseudo-command (30 R62). -/
def hostMoveOf : AsmLine → Option HostMove
  | .setfreq hz     => some (.cmd (encode (.setfreq (BitVec.ofNat 32 hz))))
  | .setmode m      => some (.cmd (encode (.setmode (BitVec.ofNat 32 m))))
  | .setdelay us    => some (.cmd (encode (.setdelay (BitVec.ofNat 32 us))))
  | .write base len => some (.cmd (encode (.write (BitVec.ofNat 32 base) (BitVec.ofNat 32 len))))
  | .destroy        => some (.cmd (encode .destroy))
  | .cmd word       => some (.cmd (BitVec.ofNat 68 word))
  | .reset          => some .reset
  | .mem _ _        => none
  | .create         => none
  | .configure ..   => none
  | .transfer ..    => none

/-- The host's moves for a program (30 R62, R63): the lines in order, `MEM` lines left out. -/
def hostMoves (program : List AsmLine) : List HostMove :=
  (program.flatMap expandLine).filterMap hostMoveOf

/-- The buffer memory with the program's `MEM` lines stored, which happens before the program runs (30 R62). -/
def storeMemLines (m : Memory) : List AsmLine → Memory
  | []                => m
  | .mem a v :: rest  => storeMemLines (m.write (BitVec.ofNat 32 a).toNat (BitVec.ofNat 8 v)) rest
  | _ :: rest         => storeMemLines m rest

/-- A state with a program given to the host. -/
def State.withProgram (s : State) (program : List AsmLine) : State :=
  { s with mem := storeMemLines s.mem program, hostInput := hostMoves program }

end Sys2Proof.Machine
end

