-- ==== Sys2Proof/Machine/Ports.lean ====
section
/-! DEFINITION. What the block shows: the observation port (10 R37) and the other outputs (44 R101). Each is a function of the
state of the tick, `cmd_ready` of `rst` too (44 R102). -/

namespace Sys2Proof.Machine

/-- The code of `lifecycle` (10 R21). -/
def Lifecycle.code : Lifecycle → BitVec 2
  | .ready    => 0
  | .busy     => 1
  | .released => 2

/-- The status codes (60 R121). -/
def Status.code : Status → BitVec 2
  | .ok              => 0
  | .invalidMode     => 1
  | .invalidArgument => 2
  | .released        => 3

/-- The observation port (10 R37). -/
structure Observation where
  lifecycle           : BitVec 2
  mode                : BitVec 2
  modeValid           : Bool
  cpol                : Level
  cpha                : Level
  frequency           : Word
  halfPeriodCount     : Word
  interbyteDelayCount : Count
  lastStatus          : BitVec 2
  busy                : Bool
  deriving DecidableEq, Repr

/-- Each output shows its register's current value (10 R37); `cpha` is combinational (10 R25). -/
def observe (s : State) : Observation where
  lifecycle           := s.lifecycle.code
  mode                := s.mode
  modeValid           := s.modeValid
  cpol                := s.cpol
  cpha                := cphaOf s.mode
  frequency           := s.frequency
  halfPeriodCount     := s.halfPeriodCount
  interbyteDelayCount := s.interbyteDelayCount
  lastStatus          := s.lastStatus.code
  busy                := decide (s.lifecycle = .busy)

/-- The ports of 44 R101 but the observation port. `none` is a value the spec does not give: the level of a pin the block does
not drive or has not driven (10 R39, 43 R95), the status of no response, the address of no access (log 12, log 14). -/
structure Outputs where
  cmdReady  : Bool
  rspValid  : Bool
  rspStatus : Option (BitVec 2)
  sck       : Option Level
  sckOe     : Bool
  mosi      : Option Level
  mosiOe    : Bool
  memAddr   : Option Word
  memRe     : Bool
  memWe     : Bool
  memWdata  : Option Byte
  deriving DecidableEq, Repr

/-- `cmd_ready` (30 R57, 44 R101). -/
def cmdReady (s : State) : Bool := decide (s.lifecycle ≠ .busy) && !s.rstAsserted

/-- The level of the SCK wire, as far as the block gives it (10 R26, 43 R95). -/
def sckPin (s : State) : Option Level := if s.sckOe then some s.sck else none

/-- The level of the MOSI wire, as far as the block gives it (10 R26, R39). -/
def mosiPin (s : State) : Option Level := if s.mosiOe then s.mosi else none

/-- `rsp_status` while `rsp_valid` is 1: the code `last_status` took in the same tick (44 R104). -/
def rspStatus (s : State) : Option (BitVec 2) := if s.rspValid then some s.lastStatus.code else none

/-- `mem_re` (44 R106). Like `mem_we` it does not look at `rst` (44 R102). -/
def memRe (s : State) : Bool := decide (s.lifecycle = .busy) && decide (s.seq = .load)

/-- `mem_we` (44 R110). It does not look at `rst` (44 R102), so it is 1 in a STORE tick that is a reset tick too, in which this
model's memory takes no byte: DESIGN CHOICE, log 22. -/
def memWe (s : State) : Bool := decide (s.lifecycle = .busy) && decide (s.seq = .store)

/-- The outputs during the tick whose state is `s`. -/
def outputs (s : State) : Outputs where
  cmdReady  := cmdReady s
  rspValid  := s.rspValid
  rspStatus := rspStatus s
  sck       := sckPin s
  sckOe     := s.sckOe
  mosi      := mosiPin s
  mosiOe    := s.mosiOe
  memAddr   := if memRe s || memWe s then some s.flightAddress else none
  memRe     := memRe s
  memWe     := memWe s
  memWdata  := if memWe s then some s.rxAcc else none

end Sys2Proof.Machine
end

