-- ==== Sys2Proof/Machine/Transaction.lean ====
section
/-! DEFINITION. The transaction level: a command's whole effect and trace (00 R5), and the tick counts of 44 R115. -/

namespace Sys2Proof.Machine

/-- The effect of a command, whole, with its trace (40 R69, R70; 41 R78; 42 R86; 43 R95; 30 R60). -/
def transact (i : Instr) (s : State) : State :=
  match i with
  | .setfreq hz     => setfreqEffect hz s
  | .setmode m      => setmodeEffect m s
  | .setdelay us    => setdelayEffect us s
  | .write base len => writeTransaction base len s
  | .destroy        => destroyEffect s
  | .reserved0      => reservedEffect s
  | .reserved6      => reservedEffect s
  | .reserved7      => reservedEffect s
  | .reserved8      => reservedEffect s
  | .reserved9      => reservedEffect s
  | .reservedA      => reservedEffect s
  | .reservedB      => reservedEffect s
  | .reservedC      => reservedEffect s
  | .reservedD      => reservedEffect s
  | .reservedE      => reservedEffect s
  | .reservedF      => reservedEffect s

/-- The ticks of one bit, either family (44 R115). -/
def bitTicks (s : State) : Nat := 4 + 2 * s.halfPeriodTicks

/-- The ticks of one byte: LOAD, 8 bits, STORE, IBD (44 R115). -/
def byteTicks (s : State) : Nat := 34 + 16 * s.halfPeriodTicks + s.interbyteTicks

/-- A WRITE that passes the checks of 42 R86 and has bytes to send. -/
def writeStarts (base len : Word) (s : State) : Bool :=
  decide (s.lifecycle ≠ .released) && s.modeValid && rangeFits base len && decide (len ≠ 0)

/-- How many ticks after its accept tick a command completes (44 R115). -/
def ticksAfterAccept (i : Instr) (s : State) : Nat :=
  match i with
  | .write base len => if writeStarts base len s then len.toNat * byteTicks s else 0
  | _               => 0

/-- What the transaction level gives of a state: everything but the position of the sequencer (`base`, `len`, `byte_idx`,
`bit_cnt`, `dly_cnt`, which 42 does not set: 90 C10) and the inputs that ticks use up. -/
def transactionView (s : State) : State :=
  { s with base := 0, len := 0, byteIdx := 0, bitCnt := 0, dlyCnt := 0, rstInput := [], hostInput := [] }

/-- The level the environment presents at the `k`-th MISO read from now, the next one being the 0th (60 R132). -/
def State.misoAt (s : State) (k : Nat) : Level :=
  s.misoInput.getD k (Config.freeMiso (s.draws + (k - s.misoInput.length)))

/-- The events the block itself settles: all but what it reads from MISO and stores from there (42 R89). -/
def Event.ownChoice : Event → Bool
  | .misoR _  => false
  | .memW _ _ => false
  | _         => true

/-- The levels driven on SCK, in time order (42 R92). -/
def sckLevels (es : List Event) : List Level :=
  es.filterMap fun e => match e with
    | .sckW v => some v
    | _       => none

/-- The levels driven on MOSI, in time order (42 R85). -/
def mosiLevels (es : List Event) : List Level :=
  es.filterMap fun e => match e with
    | .mosiW v => some v
    | _        => none

/-- The levels read from MISO, in time order. -/
def misoLevels (es : List Event) : List Level :=
  es.filterMap fun e => match e with
    | .misoR v => some v
    | _        => none

/-- The accesses to the buffer memory, in time order: `true` is a write (20 R50). -/
def memoryAccesses (es : List Event) : List (Bool × Word) :=
  es.filterMap fun e => match e with
    | .memR a _ => some (false, a)
    | .memW a _ => some (true, a)
    | _         => none

/-- The responses in a trace (30 R61). -/
def responses (es : List Event) : List Status :=
  es.filterMap fun e => match e with
    | .rsp st => some st
    | _       => none

/-- Every MISO read of the trace returns the level of the last MOSI write before it, `last` being the one before the trace
(42 R91). -/
def loopback : Option Level → List Event → Bool
  | _, []                  => true
  | _, .mosiW v :: rest    => loopback (some v) rest
  | last, .misoR v :: rest => decide (last = some v) && loopback last rest
  | last, _ :: rest        => loopback last rest

/-- The bits of a byte, most significant first (42 R85). -/
def bitsMsbFirst (b : Byte) : List Level :=
  (List.range 8).map fun k => b.getLsbD (7 - k)

/-- The byte whose bits arrive most significant first (42 R84). -/
def byteOfBits (bits : List Level) : Byte := bits.foldl shiftIn 0

end Sys2Proof.Machine
end

