-- ==== Sys2Proof/Safety.lean ====
section
/-! DEFINITION. The invariant of a safe run (10 R35), the runs the claims are about, and the projections they use. -/

namespace Sys2Proof.Machine

/-- SCK is at the active level in the states that follow a leading edge and precede the trailing edge (42 R93). -/
def Seq.clockActive : Seq → Bool
  | .a5 => true
  | .a6 => true
  | .b2 => true
  | .b3 => true
  | .b4 => true
  | _   => false

/-- The step belongs to the family of the mode (41 R76). -/
def Seq.ofFamily (mode : BitVec 2) : Seq → Bool
  | .a1 | .a2 | .a3 | .a4 | .a5 | .a6 => driveFirst mode
  | .b1 | .b2 | .b3 | .b4 | .b5 | .b6 => !driveFirst mode
  | _ => true

/-- The length of the wait step the sequencer is in; 0 in an act step (44 R102). -/
def State.waitLength (s : State) : Nat :=
  match s.seq with
  | .a2 | .a5 | .b3 | .b6 => s.halfPeriodTicks
  | .ibd => s.interbyteTicks
  | _ => 0

/-- The sequencer is in a wait step. -/
def Seq.isWait : Seq → Bool
  | .a2 | .a5 | .b3 | .b6 | .ibd => true
  | _ => false

/-- What holds in every state after a reset: 10 R35, 10 R28, 42 R93, 20 R48, and the canonical form of the memory. -/
structure Inv (s : State) : Prop where
  hasReset   : s.hasReset = true
  memory     : s.mem.wf = true
  parameters : s.config.inRange
  /-- 10 R35 item 2 -/
  cpol       : s.cpol = cpolOf s.mode
  /-- 10 R35 item 3 -/
  halfPeriod : s.halfPeriodCount.toNat = halfPeriod s.config.loopsPerSecond.toNat s.frequency.toNat
  /-- 10 R35 item 4, where the last operand is not kept (10 R29) -/
  interbyte  : ∃ us : Word, s.interbyteDelayCount.toNat = interByte s.config.loopsPerSecond.toNat us.toNat
  /-- 10 R26: the outputs are driven unless the block is released -/
  enables    : s.sckOe = decide (s.lifecycle ≠ .released) ∧ s.mosiOe = decide (s.lifecycle ≠ .released)
  /-- 10 R35 item 6: BUSY exactly while the sequencer runs a WRITE -/
  busy       : s.lifecycle = .busy ↔ s.seq ≠ .idle
  /-- 10 R35 item 6 -/
  busyMode   : s.lifecycle = .busy → s.modeValid = true
  /-- 10 R35 item 5 and 42 R93: SCK is at the active level only between the two edges of a bit -/
  clock      : s.lifecycle ≠ .released → s.sck = (if s.seq.clockActive then !s.cpol else s.cpol)
  /-- 41 R76 -/
  family     : s.seq.ofFamily s.mode = true
  /-- 10 R31, 20 R48: the byte in flight is inside the buffer, which does not wrap -/
  position   : s.lifecycle = .busy → s.byteIdx.toNat < s.len.toNat ∧ s.base.toNat + s.len.toNat ≤ 2 ^ 32
  /-- 44 R102: a wait step counts down from its length to 1 -/
  waiting    : s.seq.isWait = true → 1 ≤ s.dlyCnt.toNat ∧ s.dlyCnt.toNat ≤ s.waitLength
  /-- 30 R61: a command has responded exactly once when it has completed, and not before -/
  responded  : if s.lifecycle = .busy then responses s.trace = [] else (responses s.trace).length ≤ 1
  /-- 44 R104: the response presented is the last event of the trace, and `last_status` is its code -/
  presented  : s.rspValid = true → s.trace.getLast? = some (.rsp s.lastStatus)

/-- `k` ticks from `s` end in `t`, with no fault and no refusal. -/
def RunsTo (k : Nat) (s t : State) : Prop := Sys2Proof.core.run k s = .next t

/-- `rst` is 0 in each of the next `k` ticks (70 R140). -/
def NoReset (k : Nat) (s : State) : Prop := ∀ j t, j < k → RunsTo j s t → t.rstAsserted = false

/-- `s` after a command that only responds: `last_status` and the response, and the event (60 R125). -/
def answered (s : State) (st : Status) : State :=
  { s with lastStatus := st, rspValid := true, trace := s.trace ++ [.rsp st] }

/-- The commands with a reserved op (30 R60). -/
def reservedCommands : List Instr :=
  [.reserved0, .reserved6, .reserved7, .reserved8, .reserved9, .reservedA, .reservedB, .reservedC, .reservedD,
    .reservedE, .reservedF]

/-- The registers a command sets, which no tick of a WRITE changes (10 R38). -/
def SameConfiguration (s t : State) : Prop :=
  t.mode = s.mode ∧ t.modeValid = s.modeValid ∧ t.cpol = s.cpol ∧ t.frequency = s.frequency ∧
  t.halfPeriodCount = s.halfPeriodCount ∧ t.interbyteDelayCount = s.interbyteDelayCount ∧ t.config = s.config

/-- The operation registers (10 R20). -/
def SameOperation (s t : State) : Prop :=
  t.base = s.base ∧ t.len = s.len ∧ t.byteIdx = s.byteIdx ∧ t.bitCnt = s.bitCnt ∧ t.txShift = s.txShift ∧
  t.rxAcc = s.rxAcc ∧ t.seq = s.seq ∧ t.dlyCnt = s.dlyCnt

/-- The pin state (10 R26). -/
def SamePins (s t : State) : Prop :=
  t.sck = s.sck ∧ t.sckOe = s.sckOe ∧ t.mosi = s.mosi ∧ t.mosiOe = s.mosiOe

/-- The inputs and the model's own counters. -/
def SameInputs (s t : State) : Prop :=
  t.misoInput = s.misoInput ∧ t.rstInput = s.rstInput ∧ t.hostInput = s.hostInput ∧ t.draws = s.draws ∧
  t.hasReset = s.hasReset

/-- Every byte of the buffer memory reads as before. -/
def SameMemory (s t : State) : Prop := ∀ a : Word, t.byteAt a = s.byteAt a

end Sys2Proof.Machine
end

