-- ==== Sys2Proof/Certificates/Slice0/Obligations.lean ====
section
/-! DEFINITION. The statements for the provers. -/

open Sys2Proof Sys2Proof.Machine

/-! ## Encoding -/

/-- 30 R56, R59, R62: the decoder gives back every command the encoder writes, with every operand at every value. -/
def Obligations.DecodeOfEncodeIsTheCommand : Prop :=
  ∀ i : Instr, decode (encode i).toNat = .ok i

/-- 30 R58: a command word means exactly the command whose bits it agrees with; every other bit is ignored. -/
def Obligations.WordMeansCommandIffBitsReadAgree : Prop :=
  ∀ (i : Instr) (w : CommandWord), decodeWord w = i ↔ w &&& bitsRead i = encode i

/-- 30 R56, R59, R60: the opcode map, on the word written as the number `op · 2^64 + arg0 · 2^32 + arg1`. -/
def Obligations.OpcodeMapOnNumbers : Prop :=
  ∀ a b : Word,
    decode (0x0 * 2 ^ 64 + a.toNat * 2 ^ 32 + b.toNat) = .ok .reserved0 ∧
    decode (0x1 * 2 ^ 64 + a.toNat * 2 ^ 32 + b.toNat) = .ok (.setfreq a) ∧
    decode (0x2 * 2 ^ 64 + a.toNat * 2 ^ 32 + b.toNat) = .ok (.setmode a) ∧
    decode (0x3 * 2 ^ 64 + a.toNat * 2 ^ 32 + b.toNat) = .ok (.setdelay a) ∧
    decode (0x4 * 2 ^ 64 + a.toNat * 2 ^ 32 + b.toNat) = .ok (.write a b) ∧
    decode (0x5 * 2 ^ 64 + a.toNat * 2 ^ 32 + b.toNat) = .ok .destroy ∧
    decode (0x6 * 2 ^ 64 + a.toNat * 2 ^ 32 + b.toNat) = .ok .reserved6 ∧
    decode (0x7 * 2 ^ 64 + a.toNat * 2 ^ 32 + b.toNat) = .ok .reserved7 ∧
    decode (0x8 * 2 ^ 64 + a.toNat * 2 ^ 32 + b.toNat) = .ok .reserved8 ∧
    decode (0x9 * 2 ^ 64 + a.toNat * 2 ^ 32 + b.toNat) = .ok .reserved9 ∧
    decode (0xA * 2 ^ 64 + a.toNat * 2 ^ 32 + b.toNat) = .ok .reservedA ∧
    decode (0xB * 2 ^ 64 + a.toNat * 2 ^ 32 + b.toNat) = .ok .reservedB ∧
    decode (0xC * 2 ^ 64 + a.toNat * 2 ^ 32 + b.toNat) = .ok .reservedC ∧
    decode (0xD * 2 ^ 64 + a.toNat * 2 ^ 32 + b.toNat) = .ok .reservedD ∧
    decode (0xE * 2 ^ 64 + a.toNat * 2 ^ 32 + b.toNat) = .ok .reservedE ∧
    decode (0xF * 2 ^ 64 + a.toNat * 2 ^ 32 + b.toNat) = .ok .reservedF

/-- 30 R64 and 95 V24: the spec's own example words. The last clause is the model's own (log 17, DEDUCED): the decoder takes a
number, and rejects by name one too wide for the command port. -/
def Obligations.ExampleWordsDecode : Prop :=
  decode 0x1000F424000000000 = .ok (.setfreq 1000000) ∧
  decode 0x20000000000000000 = .ok (.setmode 0) ∧
  decode 0x20000000300000000 = .ok (.setmode 3) ∧
  decode 0x20000000400000000 = .ok (.setmode 4) ∧
  decode 0x30000000000000000 = .ok (.setdelay 0) ∧
  decode 0x30000000A00000000 = .ok (.setdelay 10) ∧
  decode 0x40000010000000001 = .ok (.write 0x100 1) ∧
  decode 0x400002000000000FF = .ok (.write 0x2000 255) ∧
  decode 0x50000000000000000 = .ok .destroy ∧
  decode 0x00000000000000000 = .ok .reserved0 ∧
  decode 0x200000002DEADBEEF = .ok (.setmode 2) ∧
  decode 0x5123456789ABCDEF0 = .ok .destroy ∧
  decode 0x100000000000000000 = .error .widerThanCommandWord

/-- 30 R62, R63: a well-formed source line gives the host the command it names; a pseudo-command its expansion. -/
def Obligations.SourceLineGivesItsCommand : Prop :=
  (∀ hz, (AsmLine.setfreq hz).wellFormed = true → ∃ (w : CommandWord) (x : Word), x.toNat = hz ∧
    hostMoves [.setfreq hz] = [.cmd w] ∧ decodeWord w = .setfreq x ∧ w.toNat % 2 ^ 32 = 0) ∧
  (∀ m, (AsmLine.setmode m).wellFormed = true → ∃ (w : CommandWord) (x : Word), x.toNat = m ∧
    hostMoves [.setmode m] = [.cmd w] ∧ decodeWord w = .setmode x ∧ w.toNat % 2 ^ 32 = 0) ∧
  (∀ us, (AsmLine.setdelay us).wellFormed = true → ∃ (w : CommandWord) (x : Word), x.toNat = us ∧
    hostMoves [.setdelay us] = [.cmd w] ∧ decodeWord w = .setdelay x ∧ w.toNat % 2 ^ 32 = 0) ∧
  (∀ base len, (AsmLine.write base len).wellFormed = true → ∃ (w : CommandWord) (x y : Word), x.toNat = base ∧
    y.toNat = len ∧ hostMoves [.write base len] = [.cmd w] ∧ decodeWord w = .write x y) ∧
  (∃ w : CommandWord, hostMoves [.destroy] = [.cmd w] ∧ decodeWord w = .destroy ∧ w.toNat % 2 ^ 64 = 0) ∧
  (∀ n, (AsmLine.cmd n).wellFormed = true → ∃ w : CommandWord, w.toNat = n ∧ hostMoves [.cmd n] = [.cmd w]) ∧
  hostMoves [.reset] = [.reset] ∧ hostMoves [.create] = [.reset] ∧
  (∀ base len, hostMoves [.transfer base len] = hostMoves [.write base len]) ∧
  (∀ m hz us, hostMoves [.configure m hz us] = hostMoves [.setmode m, .setfreq hz, .setdelay us])

/-! ## Calibration -/

/-- 40 R66: the half-period count is `LPS / (2f)` rounded half up, clamped to at least 1, and at most 2^31. -/
def Obligations.HalfPeriodRoundsHalfUp : Prop :=
  ∀ lps f : Nat, 1 ≤ lps → lps < 2 ^ 32 → f < 2 ^ 32 →
    (f = 0 → halfPeriod lps f = 1) ∧
    (f ≠ 0 → halfPeriod lps f = max 1 ((lps + f) / (2 * f))) ∧
    (f ≠ 0 → halfPeriod lps f = max 1 ⌊(lps : ℚ) / (2 * f) + 1 / 2⌋₊) ∧
    1 ≤ halfPeriod lps f ∧ halfPeriod lps f ≤ 2 ^ 31

/-- 40 R67: the inter-byte count is `us · LPS / 10^6` rounded half up, and below 2^45; the product fits 64 bits. -/
def Obligations.InterByteRoundsHalfUp : Prop :=
  ∀ lps us : Nat, 1 ≤ lps → lps < 2 ^ 32 → us < 2 ^ 32 →
    interByte lps us = (us * lps + 500000) / 1000000 ∧
    interByte lps us = ⌊(us : ℚ) / 1000000 * lps + 1 / 2⌋₊ ∧
    interByte lps us < 2 ^ 45 ∧ us * lps < 2 ^ 64 - 2 ^ 33 + 2 ∧ interByte lps 0 = 0

/-- 40 R72: neither count is ever reduced by its register's width. -/
def Obligations.CountsFitTheirRegisters : Prop :=
  ∀ (c : Config) (x : Word),
    (halfPeriodFor c x).toNat = halfPeriod c.loopsPerSecond.toNat x.toNat ∧
    (interbyteFor c x).toNat = interByte c.loopsPerSecond.toNat x.toNat

/-- 40 R71: a count depends on the operand and LPS alone, a repeated SETFREQ gives the same count, and no operand gives a
half-period count of 0. -/
def Obligations.CountsDependOnOperandAndLps : Prop :=
  ∀ (x : Word) (s s' t t' u : State), s.lifecycle = .ready → s'.lifecycle = .ready →
    s.config.loopsPerSecond = s'.config.loopsPerSecond →
    (exec (.setfreq x) s = .next t → exec (.setfreq x) s' = .next t' → exec (.setfreq x) t = .next u →
      t.halfPeriodCount = t'.halfPeriodCount ∧ u.halfPeriodCount = t.halfPeriodCount ∧ 1 ≤ t.halfPeriodCount.toNat) ∧
    (exec (.setdelay x) s = .next t → exec (.setdelay x) s' = .next t' →
      t.interbyteDelayCount = t'.interbyteDelayCount)

/-! ## The commands: results -/

/-- 40 R69: SETFREQ stores the operand and its count, and responds OK; nothing else changes. -/
def Obligations.SetfreqStoresFrequencyAndCount : Prop :=
  ∀ (hz : Word) (s : State), s.lifecycle = .ready → ∃ count : Word,
    count.toNat = (if hz.toNat = 0 then 1
      else max 1 ((s.config.loopsPerSecond.toNat + hz.toNat) / (2 * hz.toNat))) ∧
    exec (.setfreq hz) s = .next { s with
      frequency := hz, halfPeriodCount := count, lastStatus := .ok, rspValid := true, trace := s.trace ++ [.rsp .ok] }

/-- 40 R70: SETDELAY stores the count of its operand, and responds OK; nothing else changes. -/
def Obligations.SetdelayStoresCount : Prop :=
  ∀ (us : Word) (s : State), s.lifecycle = .ready → ∃ count : Count,
    count.toNat = (us.toNat * s.config.loopsPerSecond.toNat + 500000) / 1000000 ∧
    exec (.setdelay us) s = .next { s with
      interbyteDelayCount := count, lastStatus := .ok, rspValid := true, trace := s.trace ++ [.rsp .ok] }

/-- 41 R78: a legal SETMODE sets `mode`, `cpol` and `mode_valid`, drives SCK to the idle level and responds OK; an illegal one
clears `mode_valid`, responds InvalidMode and changes nothing else. -/
def Obligations.SetmodeSelectsOrRefuses : Prop :=
  ∀ (m : Word) (s : State), s.lifecycle = .ready →
    (m.toNat ≤ 3 → ∃ mode : BitVec 2, mode.toNat = m.toNat ∧
      exec (.setmode m) s = .next { s with
        mode := mode, cpol := decide (2 ≤ m.toNat), modeValid := true, sck := decide (2 ≤ m.toNat), lastStatus := .ok,
        rspValid := true, trace := s.trace ++ [.sckW (decide (2 ≤ m.toNat)), .rsp .ok] }) ∧
    (3 < m.toNat → exec (.setmode m) s = .next { answered s .invalidMode with modeValid := false })

/-- 41 R79: after a legal SETMODE the SCK wire is driven at `cpol`, before any transfer. -/
def Obligations.SckIdlesAtCpolAfterSetmode : Prop :=
  ∀ (m : Word) (s : State), s.lifecycle = .ready → s.sckOe = true → m.toNat ≤ 3 →
    ∃ t, exec (.setmode m) s = .next t ∧ (outputs t).sck = some t.cpol ∧ t.sck = t.cpol

/-- 43 R95: DESTROY stops driving both outputs, enters RELEASED and responds OK; the registers keep their values. -/
def Obligations.DestroyReleasesTheLines : Prop :=
  ∀ s : State, s.lifecycle = .ready →
    exec .destroy s = .next { s with
      sckOe := false, mosiOe := false, lifecycle := .released, lastStatus := .ok, rspValid := true,
      trace := s.trace ++ [.rel .sck, .rel .mosi, .rel .miso, .rsp .ok] }

/-- 30 R60: a word with a reserved op is a reserved command, and each of them responds InvalidArgument (Released in RELEASED)
and changes nothing else. -/
def Obligations.ReservedOpsAnswerInvalidArgument : Prop :=
  (∀ w : CommandWord, decodeWord w ∈ reservedCommands ↔ (opField w).toNat = 0 ∨ 6 ≤ (opField w).toNat) ∧
  (∀ i ∈ reservedCommands, ∀ s : State,
    (s.lifecycle = .ready → exec i s = .next (answered s .invalidArgument)) ∧
    (s.lifecycle = .released → exec i s = .next (answered s .released)))

/-- 43 R96: in RELEASED every command responds Released and changes nothing else, and only a reset leaves RELEASED. -/
def Obligations.ReleasedAnswersReleased : Prop :=
  ∀ s : State, s.lifecycle = .released →
    (∀ i : Instr, exec i s = .next (answered s .released)) ∧
    (∀ t, step s = .next t → (t.lifecycle = .released ↔ s.rstAsserted = false))

/-- 42 R86, 60 R126: WRITE's checks in their order, each with no effect but the response. -/
def Obligations.WriteChecksInOrder : Prop :=
  ∀ (base len : Word) (s : State),
    (s.lifecycle = .released → exec (.write base len) s = .next (answered s .released)) ∧
    (s.lifecycle = .ready → s.modeValid = false → exec (.write base len) s = .next (answered s .invalidMode)) ∧
    (s.lifecycle = .ready → s.modeValid = true → 2 ^ 32 < base.toNat + len.toNat →
      exec (.write base len) s = .next (answered s .invalidArgument))

/-- 42 R87: an empty WRITE responds OK at once with no event but the response; InvalidMode where the mode is invalid. -/
def Obligations.EmptyWriteOnlyResponds : Prop :=
  ∀ (base : Word) (s : State), s.lifecycle = .ready →
    (s.modeValid = true → exec (.write base 0) s = .next (answered s .ok)) ∧
    (s.modeValid = false → exec (.write base 0) s = .next (answered s .invalidMode))

/-- 20 R48: a WRITE whose range does not fit is refused before any event; every address in the trace of a command is that of a
WRITE's byte `i < len`, and every address the block shows on `mem_addr` is that of the byte in flight, both as unreduced
numbers below 2^32. -/
def Obligations.WriteRangeNeverWraps : Prop :=
  (∀ (base len : Word) (s : State), s.lifecycle = .ready → s.modeValid = true → 2 ^ 32 < base.toNat + len.toNat →
    exec (.write base len) s = .next (answered s .invalidArgument)) ∧
  (∀ (i : Instr) (s : State), ∃ es, (transact i s).trace = s.trace ++ es ∧
    ∀ rw ∈ memoryAccesses es, ∃ base len : Word, i = .write base len ∧
      ∃ k < len.toNat, rw.2.toNat = base.toNat + k ∧ base.toNat + k < 2 ^ 32) ∧
  (∀ (s : State) (a : Word), Inv s → (outputs s).memAddr = some a →
    s.byteIdx.toNat < s.len.toNat ∧ a.toNat = s.base.toNat + s.byteIdx.toNat ∧
    s.base.toNat + s.byteIdx.toNat < 2 ^ 32)

/-- 44 R105: a WRITE that passes the checks with bytes to send starts the sequencer; nothing else changes in its accept
tick, and the block is not ready for a command. -/
def Obligations.WriteStartsTheSequencer : Prop :=
  ∀ (base len : Word) (s : State), s.lifecycle = .ready → s.modeValid = true → base.toNat + len.toNat ≤ 2 ^ 32 →
    len ≠ 0 → ∃ t, cmdReady t = false ∧ exec (.write base len) s = .next t ∧
      t = { s with lifecycle := .busy, base := base, len := len, byteIdx := 0, seq := .load }

/-! ## The commands: frames -/

/-- 10 R38: what SETFREQ, SETDELAY and the reserved ops leave alone. -/
def Obligations.CountSettersFrame : Prop :=
  ∀ (i : Instr) (s t : State), ((∃ hz, i = .setfreq hz) ∨ (∃ us, i = .setdelay us) ∨ i ∈ reservedCommands) →
    exec i s = .next t →
    SamePins s t ∧ SameOperation s t ∧ SameInputs s t ∧ SameMemory s t ∧ t.lifecycle = s.lifecycle ∧ t.mode = s.mode ∧
    t.modeValid = s.modeValid ∧ t.cpol = s.cpol ∧ t.config = s.config ∧
    ((∀ hz, i ≠ .setfreq hz) → t.frequency = s.frequency ∧ t.halfPeriodCount = s.halfPeriodCount) ∧
    ((∀ us, i ≠ .setdelay us) → t.interbyteDelayCount = s.interbyteDelayCount)

/-- 10 R38: what SETMODE leaves alone, and what an illegal operand leaves alone too. -/
def Obligations.SetmodeFrame : Prop :=
  ∀ (m : Word) (s t : State), exec (.setmode m) s = .next t →
    t.sckOe = s.sckOe ∧ t.mosi = s.mosi ∧ t.mosiOe = s.mosiOe ∧ SameOperation s t ∧ SameInputs s t ∧ SameMemory s t ∧
    t.lifecycle = s.lifecycle ∧ t.frequency = s.frequency ∧ t.halfPeriodCount = s.halfPeriodCount ∧
    t.interbyteDelayCount = s.interbyteDelayCount ∧ t.config = s.config ∧
    (3 < m.toNat → t.mode = s.mode ∧ t.cpol = s.cpol ∧ t.sck = s.sck)

/-- 43 R95, 10 R38: what DESTROY leaves alone. -/
def Obligations.DestroyFrame : Prop :=
  ∀ s t : State, exec .destroy s = .next t →
    SameConfiguration s t ∧ t.sck = s.sck ∧ t.mosi = s.mosi ∧ SameOperation s t ∧ SameInputs s t ∧ SameMemory s t

/-- 42 R86, 44 R103, R105: what WRITE leaves alone in its accept tick. -/
def Obligations.WriteAcceptFrame : Prop :=
  ∀ (base len : Word) (s t : State), exec (.write base len) s = .next t →
    SameConfiguration s t ∧ SamePins s t ∧ SameInputs s t ∧ SameMemory s t ∧ t.bitCnt = s.bitCnt ∧
    t.txShift = s.txShift ∧ t.rxAcc = s.rxAcc ∧ t.dlyCnt = s.dlyCnt

/-! ## Errors -/

/-- 60 R122, R123, R124: the causes of each error response, exactly. -/
def Obligations.ErrorCausesExactly : Prop :=
  ∀ (i : Instr) (s t : State), s.lifecycle ≠ .busy → exec i s = .next t →
    (t.trace = s.trace ++ [.rsp .invalidMode] ↔ s.lifecycle ≠ .released ∧
      ((∃ m : Word, i = .setmode m ∧ 3 < m.toNat) ∨ (∃ base len, i = .write base len ∧ s.modeValid = false))) ∧
    (t.trace = s.trace ++ [.rsp .invalidArgument] ↔ s.lifecycle ≠ .released ∧
      (i ∈ reservedCommands ∨
        (∃ base len : Word, i = .write base len ∧ s.modeValid = true ∧ 2 ^ 32 < base.toNat + len.toNat))) ∧
    (t.trace = s.trace ++ [.rsp .released] ↔ s.lifecycle = .released)

/-- 60 R125: a command that responds an error changes `last_status`, clears `mode_valid` where it is a SETMODE out of range that
responds anything but Released, and changes nothing else; it has no event but the response. -/
def Obligations.ErrorsChangeOnlyTheStatus : Prop :=
  ∀ (i : Instr) (s t : State) (e : Status), exec i s = .next t → e ≠ .ok →
    responses t.trace = responses s.trace ++ [e] →
    t = { answered s e with modeValid := t.modeValid } ∧
    ((∃ m : Word, i = .setmode m ∧ 3 < m.toNat) ∧ e ≠ .released → t.modeValid = false) ∧
    (¬ ((∃ m : Word, i = .setmode m ∧ 3 < m.toNat) ∧ e ≠ .released) → t.modeValid = s.modeValid)

/-! ## Modes -/

/-- 10 R24, R25; 41 R75, R77: `cpol` and `cpha` of each mode, and the mode from the two. -/
def Obligations.ModeIsCpolAndNotCpha : Prop :=
  ∀ mode : BitVec 2,
    (cpolOf mode = true ↔ mode = 2 ∨ mode = 3) ∧ (cphaOf mode = true ↔ mode = 0 ∨ mode = 2) ∧
    mode = BitVec.ofBool (cpolOf mode) ++ BitVec.ofBool (!cphaOf mode) ∧
    (driveFirst mode = true ↔ mode = 0 ∨ mode = 2)

/-! ## Transfers at the transaction level -/

/-- 42 R81, R82: the level a bit returns, its events and its effect, in both families. -/
def Obligations.BitEventsInOrder : Prop :=
  ∀ (b : Level) (s : State), let h := s.halfPeriodTicks; let r := s.misoAt 0
    (transferBit b s).1 = r ∧
    (transferBit b s).2.sck = s.cpol ∧ (transferBit b s).2.mosi = some b ∧
    ((s.mode = 0 ∨ s.mode = 2) → (transferBit b s).2.trace =
      s.trace ++ [.mosiW b, .wait h, .misoR r, .sckW (!s.cpol), .wait h, .sckW s.cpol]) ∧
    ((s.mode = 1 ∨ s.mode = 3) → (transferBit b s).2.trace =
      s.trace ++ [.sckW (!s.cpol), .mosiW b, .wait h, .sckW s.cpol, .misoR r, .wait h])

/-- 42 R85: the k-th bit sent is bit 7 − k of the byte and the k-th level read is bit 7 − k of the byte received, in every
mode. -/
def Obligations.BytesTravelMsbFirst : Prop :=
  ∀ (o : Byte) (s : State),
    (mosiLevels (transferByte o s).2.trace = mosiLevels s.trace ++ (List.range 8).map fun k => o.getLsbD (7 - k)) ∧
    (∀ k < 8, (transferByte o s).1.getLsbD (7 - k) = s.misoAt k)

/-- 42 R84: a byte is 48 events, uses up eight MISO levels, ends with `tx_shift` 0 and `rx_acc` the byte received, and leaves
the memory and the configuration alone. -/
def Obligations.ByteTransferEffect : Prop :=
  ∀ (o : Byte) (s : State), let t := (transferByte o s).2
    (∃ es, t.trace = s.trace ++ es ∧ es.length = 48) ∧ t.txShift = 0 ∧ t.rxAcc = (transferByte o s).1 ∧
    t.sck = s.cpol ∧ t.mosi = some (o.getLsbD 0) ∧ (∀ k, t.misoAt k = s.misoAt (k + 8)) ∧ SameConfiguration s t ∧
    SameMemory s t

/-- 42 R89: after a WRITE that responds OK each byte of the buffer is what its eight MISO levels say and every other byte is
unchanged, and the bits sent are those of the bytes the buffer held. -/
def Obligations.WriteExchangesTheBuffer : Prop :=
  ∀ (base len : Word) (s : State), s.lifecycle = .ready → s.modeValid = true → s.mem.wf = true →
    base.toNat + len.toNat ≤ 2 ^ 32 → let t := transact (.write base len) s
    t.lastStatus = .ok ∧
    (∀ i < len.toNat, ∀ k < 8, (t.byteAt (base + BitVec.ofNat 32 i)).getLsbD (7 - k) = s.misoAt (8 * i + k)) ∧
    (∀ a : Word, (a.toNat < base.toNat ∨ base.toNat + len.toNat ≤ a.toNat) → t.byteAt a = s.byteAt a) ∧
    mosiLevels t.trace = mosiLevels s.trace ++
      (List.range len.toNat).flatMap fun i => bitsMsbFirst (s.byteAt (base + BitVec.ofNat 32 i))

/-- 42 R91: on loopback a bit returns itself, a byte returns itself and a WRITE leaves the buffer as it was. -/
def Obligations.LoopbackReturnsWhatIsSent : Prop :=
  ∀ (s : State) (es : List Event), loopback s.mosi es = true →
    (∀ b, (transferBit b s).2.trace = s.trace ++ es → (transferBit b s).1 = b) ∧
    (∀ o, (transferByte o s).2.trace = s.trace ++ es → (transferByte o s).1 = o) ∧
    (∀ base len, s.mem.wf = true → (transact (.write base len) s).trace = s.trace ++ es →
      SameMemory s (transact (.write base len) s))

/-- 42 R92: the events of a bit, of a byte and of a successful WRITE, counted. -/
def Obligations.EventCounts : Prop :=
  (∀ (b : Level) (s : State), ∃ es, (transferBit b s).2.trace = s.trace ++ es ∧ es.length = 6 ∧
    (sckLevels es).length = 2 ∧ (mosiLevels es).length = 1 ∧ (misoLevels es).length = 1 ∧
    es.count (.wait s.halfPeriodTicks) = 2) ∧
  (∀ (a : Word) (s : State), ∃ bits r, (transferAt a s).trace =
      s.trace ++ [.memR a (s.byteAt a)] ++ bits ++ [.memW a r, .wait s.interbyteTicks] ∧ bits.length = 48 ∧
    sckLevels bits = (List.replicate 8 [!s.cpol, s.cpol]).flatten) ∧
  (∀ (base len : Word) (s : State), s.lifecycle = .ready → s.modeValid = true → base.toNat + len.toNat ≤ 2 ^ 32 →
    ∃ es, (transact (.write base len) s).trace = s.trace ++ es ∧ es.length = 51 * len.toNat + 1 ∧
      (sckLevels es).length = 16 * len.toNat ∧ (mosiLevels es).length = 8 * len.toNat ∧
      (misoLevels es).length = 8 * len.toNat ∧ responses es = [.ok])

/-- 20 R50, R45: a WRITE reads and then writes each byte of its buffer once, in increasing address order, and accesses no
other byte. -/
def Obligations.MemoryAccessesInAddressOrder : Prop :=
  ∀ (base len : Word) (s : State), s.lifecycle = .ready → s.modeValid = true → base.toNat + len.toNat ≤ 2 ^ 32 →
    ∃ es, (transact (.write base len) s).trace = s.trace ++ es ∧
      memoryAccesses es = (List.range len.toNat).flatMap fun i =>
        [(false, base + BitVec.ofNat 32 i), (true, base + BitVec.ofNat 32 i)]

/-- 30 R61, 00 R11: every command responds exactly once, and the response is its last event. -/
def Obligations.EveryCommandRespondsOnceAtItsEnd : Prop :=
  ∀ (i : Instr) (s : State), ∃ es st, (transact i s).trace = s.trace ++ es ++ [.rsp st] ∧ responses es = [] ∧
    (transact i s).lastStatus = st ∧ (transact i s).rspValid = true

/-- 42 R88: every WRITE of `len` bytes has exactly `len` waits after a store, one right after each, the last event before the
response among them. -/
def Obligations.TrailingDelayFollowsEveryByte : Prop :=
  (∀ (a : Word) (s : State), ∃ es v, (transferAt a s).trace = s.trace ++ es ++ [.memW a v, .wait s.interbyteTicks] ∧
    ∀ b x, .memW b x ∉ es) ∧
  (∀ (base len : Word) (s : State), s.lifecycle = .ready → s.modeValid = true → base.toNat + len.toNat ≤ 2 ^ 32 →
    len ≠ 0 → ∃ es, (transact (.write base len) s).trace = s.trace ++ es ++ [.wait s.interbyteTicks, .rsp .ok])

/-- 42 R89: what a WRITE drives and waits for does not depend on what the environment presents. -/
def Obligations.WaveformIndependentOfMiso : Prop :=
  ∀ (base len : Word) (s : State) (levels : List Level) (draws : Nat),
    (transact (.write base len) { s with misoInput := levels, draws := draws }).trace.filter Event.ownChoice =
      (transact (.write base len) s).trace.filter Event.ownChoice

/-! ## The machine, tick by tick -/

/-- 30 R57, 44 R103: a step at a command on the port is `exec` of the command decoded from it, on the state whose inputs have
passed to the next tick and whose trace begins anew (log 9); and `withFetchWord` presents a word of the opcode table (log 13). -/
def Obligations.StepRunsTheDecodedCommand : Prop :=
  (∀ (s : State) (w : CommandWord) (rest : List HostMove), s.hasReset = true → s.lifecycle ≠ .busy →
    s.rstAsserted = false → s.hostInput = .cmd w :: rest →
    step s = exec (decodeWord w)
      { s with hostInput := rest, rstInput := s.rstInput.tail, rspValid := false, trace := [] }) ∧
  (∀ (s : State) (nbits w : Nat) (i : Instr), s.hasReset = true → s.lifecycle ≠ .busy →
    decodeTableWord nbits w = some i →
    step (s.withFetchWord nbits w) = exec i { s with rstInput := s.rstInput.tail, rspValid := false, trace := [] })

/-- 30 R57: a command is taken in the tick in which it is presented and the block is ready, and otherwise stays presented. -/
def Obligations.HeldCommandWaitsForReady : Prop :=
  ∀ (s t : State) (w : CommandWord) (rest : List HostMove), s.hostInput = .cmd w :: rest → step s = .next t →
    (cmdReady s = true ↔ s.lifecycle ≠ .busy ∧ s.rstAsserted = false) ∧
    (cmdReady s = true → t.hostInput = rest) ∧ (cmdReady s = false → t.hostInput = .cmd w :: rest)

/-- 44 R104: `rsp_valid` is 1 exactly in the tick after a completion, with the status of the command; a reset tick completes
nothing. -/
def Obligations.ResponseLastsOneTick : Prop :=
  ∀ s t : State, step s = .next t →
    (t.rspValid = true ↔ s.rstAsserted = false ∧
      ((s.lifecycle ≠ .busy ∧ (∃ w rest, s.hostInput = .cmd w :: rest) ∧ t.lifecycle ≠ .busy) ∨
        (s.lifecycle = .busy ∧ t.lifecycle = .ready))) ∧
    (t.rspValid = true → (outputs t).rspStatus = some t.lastStatus.code ∧
      t.trace.getLast? = some (.rsp t.lastStatus)) ∧
    (s.lifecycle = .busy → s.rstAsserted = false → t.rspValid = true → t.lastStatus = .ok)

/-- 43 R94, 44 R111, R112: the transitions of `lifecycle`, exactly; a WRITE completes in the tick where its last byte ends. -/
def Obligations.LifecycleTransitions : Prop :=
  ∀ s t : State, step s = .next t →
    (s.rstAsserted = true → t.lifecycle = .ready) ∧
    (s.rstAsserted = false → s.lifecycle = .released → t.lifecycle = .released) ∧
    (s.rstAsserted = false → s.lifecycle = .busy →
      (t.lifecycle = .ready ↔ s.byteIdx + 1 = s.len ∧
        (s.seq = .ibd ∧ s.dlyCnt = 1 ∨ s.seq = .store ∧ s.interbyteDelayCount = 0)) ∧
      (t.lifecycle ≠ .ready → t.lifecycle = .busy) ∧ (t.lifecycle = .ready → t.lastStatus = .ok)) ∧
    (s.rstAsserted = false → s.lifecycle = .ready →
      (t.lifecycle = .busy ↔ ∃ (w : CommandWord) (rest : List HostMove) (base len : Word),
        s.hostInput = .cmd w :: rest ∧ decodeWord w = .write base len ∧ s.modeValid = true ∧
        base.toNat + len.toNat ≤ 2 ^ 32 ∧ len ≠ 0) ∧
      (t.lifecycle = .released ↔ ∃ (w : CommandWord) (rest : List HostMove),
        s.hostInput = .cmd w :: rest ∧ decodeWord w = .destroy))

/-- 10 R38: a step changes a field only where one of the field's writers runs in it. -/
def Obligations.OnlyItsWritersChangeAField : Prop :=
  ∀ s t : State, step s = .next t → s.rstAsserted = false →
    let accepts := fun i : Instr =>
      s.lifecycle ≠ .busy ∧ ∃ (w : CommandWord) (rest : List HostMove), s.hostInput = .cmd w :: rest ∧ decodeWord w = i
    ((t.mode ≠ s.mode ∨ t.cpol ≠ s.cpol) → ∃ m : Word, accepts (.setmode m) ∧ m.toNat ≤ 3) ∧
    (t.modeValid ≠ s.modeValid → ∃ m : Word, accepts (.setmode m)) ∧
    ((t.frequency ≠ s.frequency ∨ t.halfPeriodCount ≠ s.halfPeriodCount) → ∃ hz : Word, accepts (.setfreq hz)) ∧
    (t.interbyteDelayCount ≠ s.interbyteDelayCount → ∃ us : Word, accepts (.setdelay us)) ∧
    (t.sck ≠ s.sck → s.lifecycle = .busy ∨ ∃ m : Word, accepts (.setmode m) ∧ m.toNat ≤ 3) ∧
    (t.mosi ≠ s.mosi → s.lifecycle = .busy) ∧
    ((t.sckOe ≠ s.sckOe ∨ t.mosiOe ≠ s.mosiOe) → accepts .destroy) ∧
    (t.lifecycle ≠ s.lifecycle → s.lifecycle = .busy ∨ accepts .destroy ∨ ∃ base len : Word, accepts (.write base len)) ∧
    (t.lastStatus ≠ s.lastStatus → s.lifecycle = .busy ∨ ∃ i : Instr, accepts i) ∧
    (¬ SameOperation s t → s.lifecycle = .busy ∨ ∃ base len : Word, accepts (.write base len)) ∧
    t.config = s.config

/-- 70 R141, 10 R36: a reset tick from any state gives the reset state and no response; 70 R143, 20 R41: the buffer memory is not
touched, in a STORE tick too (the model's choice, log 22). Beside these rules, the model's own: that the parameters are not touched (log 19, DEDUCED), that the block counts as
reset afterwards, from before the first reset too (`hasReset`, log 8, DEDUCED), and that the trace begins anew (log 9). -/
def Obligations.ResetGivesTheResetState : Prop :=
  ∀ s : State, s.rstAsserted = true → ∃ t, step s = .next t ∧
    t.lifecycle = .ready ∧ t.mode = 0 ∧ t.modeValid = true ∧ t.cpol = false ∧ t.sck = false ∧ t.sckOe = true ∧
    t.mosi = none ∧ t.mosiOe = true ∧ t.frequency = s.config.defaultFrequencyHz ∧
    t.halfPeriodCount.toNat = halfPeriod s.config.loopsPerSecond.toNat s.config.defaultFrequencyHz.toNat ∧
    t.interbyteDelayCount.toNat = interByte s.config.loopsPerSecond.toNat s.config.defaultInterbyteDelayUs.toNat ∧
    t.lastStatus = .ok ∧ t.seq = .idle ∧ t.rspValid = false ∧ t.trace = [.sckW false] ∧ t.hasReset = true ∧
    (cmdReady t = true ↔ t.rstAsserted = false) ∧ t.config = s.config ∧ t.mem = s.mem

/-- 70 R143: a reset that cuts a WRITE short gives no response and leaves every byte of the buffer as it is; SCK is 0 and MOSI
is `UNSET` after it. That the byte of a STORE tick with `rst` 1 is not stored is the model's choice (log 22, DESIGN CHOICE,
unsafe). -/
def Obligations.ResetAbortsWriteSilently : Prop :=
  ∀ s : State, s.lifecycle = .busy → s.rstAsserted = true → ∃ t, step s = .next t ∧ t.lifecycle = .ready ∧
    t.rspValid = false ∧ responses t.trace = [] ∧ SameMemory s t ∧ t.sck = false ∧ t.mosi = none

/-- 70 R144, 93 I14: a step never refuses, and stops exactly before the first reset (log 8) and where BUSY has no sequencer step,
the model's own stop (log 10); so it never stops from a state of the invariant. -/
def Obligations.StepStopsExactly : Prop :=
  ∀ s : State,
    (∀ r, step s ≠ .refused r) ∧
    (∀ r, step s = .fault r ↔ s.rstAsserted = false ∧
      ((s.hasReset = false ∧ r = .beforeFirstReset) ∨
        (s.hasReset = true ∧ s.lifecycle = .busy ∧ s.seq = .idle ∧ r = .busyWithoutSequence))) ∧
    (Inv s → ∃ t, step s = .next t)

/-- 20 R41, R45: a byte of the buffer memory changes only in a STORE tick, at the address of the byte in flight and to `rx_acc`,
or by a store of the host. That the host stores only while the block is not BUSY is the model's choice (log 6, DESIGN CHOICE,
unsafe): 20 R52 keeps the host out of the running buffer and lets it store elsewhere. That no byte changes in a reset tick, in
STORE too, is the model's choice (log 22, DESIGN CHOICE, unsafe). -/
def Obligations.MemoryChangesOnlyByStores : Prop :=
  ∀ s t : State, step s = .next t → ∀ a : Word, t.byteAt a ≠ s.byteAt a →
    s.rstAsserted = false ∧
    ((s.lifecycle = .busy ∧ s.seq = .store ∧ a = s.base + s.byteIdx ∧ (outputs s).memAddr = some a ∧
        (s.mem.wf = true → t.byteAt a = s.rxAcc)) ∨
      (s.lifecycle ≠ .busy ∧ ∃ v rest, s.hostInput = .poke a v :: rest ∧ (s.mem.wf = true → t.byteAt a = v)))

/-- 10 R38, 70 R154: no tick of a running WRITE changes what the commands set, the enables or the WRITE's operands. That the
completing tick leaves the operands too is the model's own (log 21, DEDUCED). -/
def Obligations.BusyTickFrame : Prop :=
  ∀ s t : State, s.lifecycle = .busy → s.rstAsserted = false → step s = .next t →
    SameConfiguration s t ∧ t.sckOe = s.sckOe ∧ t.mosiOe = s.mosiOe ∧ t.base = s.base ∧ t.len = s.len ∧
    t.hasReset = s.hasReset ∧ (t.lifecycle = .busy → t.lastStatus = s.lastStatus) ∧
    (∀ a : Word, (s.seq ≠ .store ∨ a ≠ s.base + s.byteIdx) → t.byteAt a = s.byteAt a) ∧
    (∃ es, t.trace = s.trace ++ es)

/-- 44 R102: a wait step that is not at its last tick counts down by one and changes no output and nothing else of the
block. -/
def Obligations.WaitTickOnlyCounts : Prop :=
  ∀ s : State, s.lifecycle = .busy → s.hasReset = true → s.rstAsserted = false → s.rspValid = false →
    s.seq.isWait = true → s.dlyCnt ≠ 1 →
    ∃ t, step s = .next t ∧ outputs t = outputs s ∧ observe t = observe s ∧
      t = { s with dlyCnt := s.dlyCnt - 1, rstInput := t.rstInput, hostInput := t.hostInput }

/-- 44 R106: LOAD reads the byte in flight and begins its first bit. -/
def Obligations.LoadTick : Prop :=
  ∀ s : State, s.lifecycle = .busy → s.hasReset = true → s.rstAsserted = false → s.seq = .load →
    (outputs s).memRe = true ∧ (outputs s).memAddr = some (s.base + s.byteIdx) ∧
    ∃ t, step s = .next t ∧ t.txShift = s.byteAt (s.base + s.byteIdx) ∧ t.rxAcc = 0 ∧ t.bitCnt = 0 ∧
      t.seq = (if s.mode.getLsbD 0 then .b1 else .a1) ∧ SamePins s t ∧ SameMemory s t

/-- 44 R107, R109: the act steps of the drive-first family and where each goes. -/
def Obligations.DriveFirstSteps : Prop :=
  ∀ s : State, s.lifecycle = .busy → s.hasReset = true → s.rstAsserted = false → s.halfPeriodCount ≠ 0 →
    driveFirst s.mode = true →
    (s.seq = .a1 → ∃ t, step s = .next t ∧ t.mosi = some (s.txShift.getLsbD 7) ∧ t.txShift = s.txShift <<< 1 ∧
      t.seq = .a2 ∧ t.dlyCnt.toNat = s.halfPeriodCount.toNat ∧ t.sck = s.sck ∧ t.rxAcc = s.rxAcc) ∧
    (s.seq = .a2 → s.dlyCnt = 1 → ∃ t, step s = .next t ∧ t.seq = .a3 ∧ SamePins s t) ∧
    (s.seq = .a3 → ∃ t, step s = .next t ∧ t.rxAcc = (s.rxAcc <<< 1 ||| (if s.misoAt 0 then 1 else 0)) ∧
      t.seq = .a4 ∧ SamePins s t) ∧
    (s.seq = .a4 → ∃ t, step s = .next t ∧ t.sck = (!s.cpol) ∧ t.seq = .a5 ∧
      t.dlyCnt.toNat = s.halfPeriodCount.toNat ∧ t.mosi = s.mosi) ∧
    (s.seq = .a5 → s.dlyCnt = 1 → ∃ t, step s = .next t ∧ t.seq = .a6 ∧ SamePins s t) ∧
    (s.seq = .a6 → ∃ t, step s = .next t ∧ t.sck = s.cpol ∧ t.mosi = s.mosi ∧
      (s.bitCnt = 7 → t.seq = .store) ∧ (s.bitCnt ≠ 7 → t.bitCnt = s.bitCnt + 1 ∧ t.seq = .a1))

/-- 44 R108, R109: the act steps of the clock-first family and where each goes. -/
def Obligations.ClockFirstSteps : Prop :=
  ∀ s : State, s.lifecycle = .busy → s.hasReset = true → s.rstAsserted = false → s.halfPeriodCount ≠ 0 →
    driveFirst s.mode = false →
    (s.seq = .b1 → ∃ t, step s = .next t ∧ t.sck = (!s.cpol) ∧ t.seq = .b2 ∧ t.mosi = s.mosi) ∧
    (s.seq = .b2 → ∃ t, step s = .next t ∧ t.mosi = some (s.txShift.getLsbD 7) ∧ t.txShift = s.txShift <<< 1 ∧
      t.seq = .b3 ∧ t.dlyCnt.toNat = s.halfPeriodCount.toNat ∧ t.sck = s.sck ∧ t.rxAcc = s.rxAcc) ∧
    (s.seq = .b3 → s.dlyCnt = 1 → ∃ t, step s = .next t ∧ t.seq = .b4 ∧ SamePins s t) ∧
    (s.seq = .b4 → ∃ t, step s = .next t ∧ t.sck = s.cpol ∧ t.seq = .b5 ∧ t.mosi = s.mosi) ∧
    (s.seq = .b5 → ∃ t, step s = .next t ∧ t.rxAcc = (s.rxAcc <<< 1 ||| (if s.misoAt 0 then 1 else 0)) ∧
      t.seq = .b6 ∧ t.dlyCnt.toNat = s.halfPeriodCount.toNat ∧ SamePins s t) ∧
    (s.seq = .b6 → s.dlyCnt = 1 → ∃ t, step s = .next t ∧ SamePins s t ∧
      (s.bitCnt = 7 → t.seq = .store) ∧ (s.bitCnt ≠ 7 → t.bitCnt = s.bitCnt + 1 ∧ t.seq = .b1))

/-- 44 R110, R111, R112: STORE puts `rx_acc` at the address in flight; the byte ends there where D is 0 and else after the
inter-byte wait; the last byte completes the WRITE. -/
def Obligations.StoreAndByteEnd : Prop :=
  ∀ s : State, s.lifecycle = .busy → s.hasReset = true → s.rstAsserted = false →
    (s.seq = .store → (outputs s).memWe = true ∧ (outputs s).memAddr = some (s.base + s.byteIdx) ∧
      (outputs s).memWdata = some s.rxAcc ∧
      ∃ t, step s = .next t ∧ (s.mem.wf = true → t.byteAt (s.base + s.byteIdx) = s.rxAcc) ∧
        (∀ a, a ≠ s.base + s.byteIdx → t.byteAt a = s.byteAt a) ∧
        (s.interbyteDelayCount ≠ 0 → t.seq = .ibd ∧ t.dlyCnt = s.interbyteDelayCount ∧ t.lifecycle = .busy)) ∧
    ((s.seq = .ibd ∧ s.dlyCnt = 1 ∨ s.seq = .store ∧ s.interbyteDelayCount = 0) → ∃ t, step s = .next t ∧
      (s.byteIdx + 1 = s.len → t.lifecycle = .ready ∧ t.seq = .idle ∧ t.rspValid = true ∧ t.lastStatus = .ok) ∧
      (s.byteIdx + 1 ≠ s.len → t.lifecycle = .busy ∧ t.seq = .load ∧ t.byteIdx = s.byteIdx + 1))

/-- 44 R115, R116: the edges of a drive-first bit by tick, from the tick of its first step. -/
def Obligations.DriveFirstBitTiming : Prop :=
  ∀ s : State, s.lifecycle = .busy → s.hasReset = true → s.seq = .a1 → driveFirst s.mode = true → s.sck = s.cpol →
    s.halfPeriodCount ≠ 0 → NoReset (2 * s.halfPeriodTicks + 4) s →
    ∀ k ≤ 2 * s.halfPeriodTicks + 4, ∃ t, RunsTo k s t ∧
      (t.sck = !s.cpol ↔ s.halfPeriodTicks + 3 ≤ k ∧ k < 2 * s.halfPeriodTicks + 4) ∧
      (1 ≤ k → t.mosi = some s.txShift.msb) ∧ (t.seq = .a3 ↔ k = s.halfPeriodTicks + 1) ∧
      (k = 2 * s.halfPeriodTicks + 4 → t.seq = if s.bitCnt = 7 then .store else .a1)

/-- 44 R115, R116, 70 R152: the edges of a clock-first bit by tick; the leading edge shows while MOSI is still what it was. -/
def Obligations.ClockFirstBitTiming : Prop :=
  ∀ s : State, s.lifecycle = .busy → s.hasReset = true → s.seq = .b1 → driveFirst s.mode = false → s.sck = s.cpol →
    s.halfPeriodCount ≠ 0 → NoReset (2 * s.halfPeriodTicks + 4) s →
    ∀ k ≤ 2 * s.halfPeriodTicks + 4, ∃ t, RunsTo k s t ∧
      (t.sck = !s.cpol ↔ 1 ≤ k ∧ k < s.halfPeriodTicks + 3) ∧
      (k ≤ 1 → t.mosi = s.mosi) ∧ (2 ≤ k → t.mosi = some s.txShift.msb) ∧
      (t.seq = .b5 ↔ k = s.halfPeriodTicks + 3) ∧
      (k = 2 * s.halfPeriodTicks + 4 → t.seq = if s.bitCnt = 7 then .store else .b1)

/-- 44 R114, R115: a command that is not cut short by a reset completes after exactly the ticks of 44 R115 with the effect
and the trace of the transaction level, and is BUSY and without a response until then. That `tx_shift` and `rx_acc` hold 42 R84's
values still after the completion is the model's own (log 21, DEDUCED). -/
def Obligations.TicksRefineTransactions : Prop :=
  ∀ (i : Instr) (s : State), s.hasReset = true → s.lifecycle ≠ .busy → s.seq = .idle →
    ∃ t, exec i s = .next t ∧ (NoReset (ticksAfterAccept i s) t → ∃ u, RunsTo (ticksAfterAccept i s) t u ∧
      transactionView u = transactionView (transact i s) ∧
      ∀ j v, j < ticksAfterAccept i s → RunsTo j t v → v.lifecycle = .busy ∧ responses v.trace = responses s.trace)

/-- 42 R86, R89, 44 R115: a WRITE that passes its checks and is not reset completes after `len · (34 + 16H + D)` ticks: READY,
status OK, the received bytes in place, every other byte and the configuration unchanged, SCK at rest. -/
def Obligations.WriteCompletesWithReceivedBytes : Prop :=
  ∀ (base len : Word) (s : State), s.hasReset = true → s.lifecycle = .ready → s.seq = .idle → s.modeValid = true →
    s.mem.wf = true → base.toNat + len.toNat ≤ 2 ^ 32 → len ≠ 0 →
    let ticks := len.toNat * (34 + 16 * s.halfPeriodCount.toNat + s.interbyteDelayCount.toNat)
    ∃ t, exec (.write base len) s = .next t ∧ (NoReset ticks t → ∃ u, RunsTo ticks t u ∧
      u.lifecycle = .ready ∧ u.lastStatus = .ok ∧ u.rspValid = true ∧ u.seq = .idle ∧ SameConfiguration s u ∧
      u.sck = s.cpol ∧ u.sckOe = s.sckOe ∧ u.mosiOe = s.mosiOe ∧ u.hasReset = true ∧
      (∀ i < len.toNat, ∀ k < 8, (u.byteAt (base + BitVec.ofNat 32 i)).getLsbD (7 - k) = s.misoAt (8 * i + k)) ∧
      (∀ a : Word, (a.toNat < base.toNat ∨ base.toNat + len.toNat ≤ a.toNat) → u.byteAt a = s.byteAt a))

/-! ## The invariant -/

/-- 10 R36: the state after reset has the invariant. -/
def Obligations.InvariantHoldsAtReset : Prop := Inv State.reset

/-- 10 R35, R28, 42 R93, 30 R61: every step keeps the invariant, whatever the host and the environment do. -/
def Obligations.StepKeepsInvariant : Prop :=
  ∀ s t : State, Inv s → step s = .next t → Inv t

/-! ## The ports -/

/-- 10 R37: the observation port shows each register's current value, `cpha` of 10 R25 and `busy`; 10 R21 and 60 R121: the
numbers it shows for `lifecycle` and `last_status`. -/
def Obligations.ObservationPortShowsTheRegisters : Prop :=
  ∀ s : State,
    ((observe s).lifecycle.toNat = 0 ↔ s.lifecycle = .ready) ∧ ((observe s).lifecycle.toNat = 1 ↔ s.lifecycle = .busy) ∧
    ((observe s).lifecycle.toNat = 2 ↔ s.lifecycle = .released) ∧
    ((observe s).lastStatus.toNat = 0 ↔ s.lastStatus = .ok) ∧
    ((observe s).lastStatus.toNat = 1 ↔ s.lastStatus = .invalidMode) ∧
    ((observe s).lastStatus.toNat = 2 ↔ s.lastStatus = .invalidArgument) ∧
    ((observe s).lastStatus.toNat = 3 ↔ s.lastStatus = .released) ∧
    (observe s).mode = s.mode ∧ (observe s).modeValid = s.modeValid ∧ (observe s).cpol = s.cpol ∧
    ((observe s).cpha = true ↔ s.mode = 0 ∨ s.mode = 2) ∧ (observe s).frequency = s.frequency ∧
    (observe s).halfPeriodCount = s.halfPeriodCount ∧ (observe s).interbyteDelayCount = s.interbyteDelayCount ∧
    ((observe s).busy = true ↔ s.lifecycle = .busy)

/-- 30 R61, 44 R104, 60 R121: the number on `rsp_status` after a step is that of the response the trace ends with, and the one
`obs_last_status` shows; without a response the model gives `rsp_status` no value (log 12, DEDUCED). -/
def Obligations.ResponsePortCarriesTheStatusNumber : Prop :=
  ∀ s t : State, step s = .next t →
    (∀ c, (outputs t).rspStatus = some c → c = (observe t).lastStatus ∧ ∃ st, t.trace.getLast? = some (.rsp st) ∧
      (c.toNat = 0 ↔ st = .ok) ∧ (c.toNat = 1 ↔ st = .invalidMode) ∧ (c.toNat = 2 ↔ st = .invalidArgument) ∧
      (c.toNat = 3 ↔ st = .released)) ∧
    ((outputs t).rspValid = true ↔ (outputs t).rspStatus ≠ none)
end

