-- ==== Sys2Proof/Laws/Calibration.lean ====
section
/-! SUPPORT. The ranges of the two conversions: no count wraps in its register (40 R66, R67, R72). -/

namespace Sys2Proof.Machine

theorem halfPeriod_pos (lps f : Nat) : 1 ≤ halfPeriod lps f := by
  unfold halfPeriod
  split
  · exact le_refl 1
  · exact le_max_left 1 _

theorem halfPeriod_le {lps : Nat} (h : lps < 2 ^ 32) (f : Nat) : halfPeriod lps f ≤ 2 ^ 31 := by
  unfold halfPeriod
  split
  · norm_num
  · rename_i hf
    refine max_le (by norm_num) (Nat.div_le_of_le_mul ?_)
    have : 1 ≤ f := by omega
    nlinarith

theorem interByte_lt {lps us : Nat} (h1 : lps < 2 ^ 32) (h2 : us < 2 ^ 32) : interByte lps us < 2 ^ 45 := by
  unfold interByte
  rw [Nat.div_lt_iff_lt_mul (by norm_num)]
  have : us * lps ≤ (2 ^ 32 - 1) * (2 ^ 32 - 1) := Nat.mul_le_mul (by omega) (by omega)
  omega

@[simp] theorem halfPeriodFor_toNat (c : Config) (hz : Word) :
    (halfPeriodFor c hz).toNat = halfPeriod c.loopsPerSecond.toNat hz.toNat := by
  have h := halfPeriod_le c.loopsPerSecond.isLt hz.toNat
  simp only [halfPeriodFor, BitVec.toNat_ofNat]
  exact Nat.mod_eq_of_lt (by omega)

@[simp] theorem interbyteFor_toNat (c : Config) (us : Word) :
    (interbyteFor c us).toNat = interByte c.loopsPerSecond.toNat us.toNat := by
  have h := interByte_lt c.loopsPerSecond.isLt us.isLt
  simp only [interbyteFor, BitVec.toNat_ofNat]
  exact Nat.mod_eq_of_lt (by omega)

theorem implementation_inRange : Config.implementation.inRange := by
  have h := Config.freeLoopsPerSecondLessOne.isLt
  intro h0
  have h1 := congrArg BitVec.toNat h0
  have h2 : (Config.freeLoopsPerSecondLessOne.val + 1) % 2 ^ 32 = Config.freeLoopsPerSecondLessOne.val + 1 :=
    Nat.mod_eq_of_lt (by omega)
  simp only [Config.implementation, BitVec.toNat_ofNat, h2] at h1
  simp at h1

end Sys2Proof.Machine
end

