-- ==== Sys2Proof/Laws/State.lean ====
section
/-! SUPPORT. What each named update of the state does to each field. -/

namespace Sys2Proof.Machine

variable (s : State)

/-! `pinWriteSck` -/

@[simp] theorem State.pinWriteSck_lifecycle (v : Level) : (s.pinWriteSck v).lifecycle = s.lifecycle := rfl
@[simp] theorem State.pinWriteSck_mode (v : Level) : (s.pinWriteSck v).mode = s.mode := rfl
@[simp] theorem State.pinWriteSck_modeValid (v : Level) : (s.pinWriteSck v).modeValid = s.modeValid := rfl
@[simp] theorem State.pinWriteSck_cpol (v : Level) : (s.pinWriteSck v).cpol = s.cpol := rfl
@[simp] theorem State.pinWriteSck_frequency (v : Level) : (s.pinWriteSck v).frequency = s.frequency := rfl
@[simp] theorem State.pinWriteSck_halfPeriodCount (v : Level) : (s.pinWriteSck v).halfPeriodCount = s.halfPeriodCount := rfl
@[simp] theorem State.pinWriteSck_interbyteDelayCount (v : Level) : (s.pinWriteSck v).interbyteDelayCount = s.interbyteDelayCount := rfl
@[simp] theorem State.pinWriteSck_lastStatus (v : Level) : (s.pinWriteSck v).lastStatus = s.lastStatus := rfl
@[simp] theorem State.pinWriteSck_sck (v : Level) : (s.pinWriteSck v).sck = v := rfl
@[simp] theorem State.pinWriteSck_sckOe (v : Level) : (s.pinWriteSck v).sckOe = s.sckOe := rfl
@[simp] theorem State.pinWriteSck_mosi (v : Level) : (s.pinWriteSck v).mosi = s.mosi := rfl
@[simp] theorem State.pinWriteSck_mosiOe (v : Level) : (s.pinWriteSck v).mosiOe = s.mosiOe := rfl
@[simp] theorem State.pinWriteSck_base (v : Level) : (s.pinWriteSck v).base = s.base := rfl
@[simp] theorem State.pinWriteSck_len (v : Level) : (s.pinWriteSck v).len = s.len := rfl
@[simp] theorem State.pinWriteSck_byteIdx (v : Level) : (s.pinWriteSck v).byteIdx = s.byteIdx := rfl
@[simp] theorem State.pinWriteSck_bitCnt (v : Level) : (s.pinWriteSck v).bitCnt = s.bitCnt := rfl
@[simp] theorem State.pinWriteSck_txShift (v : Level) : (s.pinWriteSck v).txShift = s.txShift := rfl
@[simp] theorem State.pinWriteSck_rxAcc (v : Level) : (s.pinWriteSck v).rxAcc = s.rxAcc := rfl
@[simp] theorem State.pinWriteSck_seq (v : Level) : (s.pinWriteSck v).seq = s.seq := rfl
@[simp] theorem State.pinWriteSck_dlyCnt (v : Level) : (s.pinWriteSck v).dlyCnt = s.dlyCnt := rfl
@[simp] theorem State.pinWriteSck_rspValid (v : Level) : (s.pinWriteSck v).rspValid = s.rspValid := rfl
@[simp] theorem State.pinWriteSck_mem (v : Level) : (s.pinWriteSck v).mem = s.mem := rfl
@[simp] theorem State.pinWriteSck_trace (v : Level) : (s.pinWriteSck v).trace = s.trace ++ [.sckW v] := rfl
@[simp] theorem State.pinWriteSck_config (v : Level) : (s.pinWriteSck v).config = s.config := rfl
@[simp] theorem State.pinWriteSck_hasReset (v : Level) : (s.pinWriteSck v).hasReset = s.hasReset := rfl
@[simp] theorem State.pinWriteSck_misoInput (v : Level) : (s.pinWriteSck v).misoInput = s.misoInput := rfl
@[simp] theorem State.pinWriteSck_rstInput (v : Level) : (s.pinWriteSck v).rstInput = s.rstInput := rfl
@[simp] theorem State.pinWriteSck_hostInput (v : Level) : (s.pinWriteSck v).hostInput = s.hostInput := rfl
@[simp] theorem State.pinWriteSck_draws (v : Level) : (s.pinWriteSck v).draws = s.draws := rfl

/-! `pinWriteMosi` -/

@[simp] theorem State.pinWriteMosi_lifecycle (v : Level) : (s.pinWriteMosi v).lifecycle = s.lifecycle := rfl
@[simp] theorem State.pinWriteMosi_mode (v : Level) : (s.pinWriteMosi v).mode = s.mode := rfl
@[simp] theorem State.pinWriteMosi_modeValid (v : Level) : (s.pinWriteMosi v).modeValid = s.modeValid := rfl
@[simp] theorem State.pinWriteMosi_cpol (v : Level) : (s.pinWriteMosi v).cpol = s.cpol := rfl
@[simp] theorem State.pinWriteMosi_frequency (v : Level) : (s.pinWriteMosi v).frequency = s.frequency := rfl
@[simp] theorem State.pinWriteMosi_halfPeriodCount (v : Level) : (s.pinWriteMosi v).halfPeriodCount = s.halfPeriodCount := rfl
@[simp] theorem State.pinWriteMosi_interbyteDelayCount (v : Level) : (s.pinWriteMosi v).interbyteDelayCount = s.interbyteDelayCount := rfl
@[simp] theorem State.pinWriteMosi_lastStatus (v : Level) : (s.pinWriteMosi v).lastStatus = s.lastStatus := rfl
@[simp] theorem State.pinWriteMosi_sck (v : Level) : (s.pinWriteMosi v).sck = s.sck := rfl
@[simp] theorem State.pinWriteMosi_sckOe (v : Level) : (s.pinWriteMosi v).sckOe = s.sckOe := rfl
@[simp] theorem State.pinWriteMosi_mosi (v : Level) : (s.pinWriteMosi v).mosi = some v := rfl
@[simp] theorem State.pinWriteMosi_mosiOe (v : Level) : (s.pinWriteMosi v).mosiOe = s.mosiOe := rfl
@[simp] theorem State.pinWriteMosi_base (v : Level) : (s.pinWriteMosi v).base = s.base := rfl
@[simp] theorem State.pinWriteMosi_len (v : Level) : (s.pinWriteMosi v).len = s.len := rfl
@[simp] theorem State.pinWriteMosi_byteIdx (v : Level) : (s.pinWriteMosi v).byteIdx = s.byteIdx := rfl
@[simp] theorem State.pinWriteMosi_bitCnt (v : Level) : (s.pinWriteMosi v).bitCnt = s.bitCnt := rfl
@[simp] theorem State.pinWriteMosi_txShift (v : Level) : (s.pinWriteMosi v).txShift = s.txShift := rfl
@[simp] theorem State.pinWriteMosi_rxAcc (v : Level) : (s.pinWriteMosi v).rxAcc = s.rxAcc := rfl
@[simp] theorem State.pinWriteMosi_seq (v : Level) : (s.pinWriteMosi v).seq = s.seq := rfl
@[simp] theorem State.pinWriteMosi_dlyCnt (v : Level) : (s.pinWriteMosi v).dlyCnt = s.dlyCnt := rfl
@[simp] theorem State.pinWriteMosi_rspValid (v : Level) : (s.pinWriteMosi v).rspValid = s.rspValid := rfl
@[simp] theorem State.pinWriteMosi_mem (v : Level) : (s.pinWriteMosi v).mem = s.mem := rfl
@[simp] theorem State.pinWriteMosi_trace (v : Level) : (s.pinWriteMosi v).trace = s.trace ++ [.mosiW v] := rfl
@[simp] theorem State.pinWriteMosi_config (v : Level) : (s.pinWriteMosi v).config = s.config := rfl
@[simp] theorem State.pinWriteMosi_hasReset (v : Level) : (s.pinWriteMosi v).hasReset = s.hasReset := rfl
@[simp] theorem State.pinWriteMosi_misoInput (v : Level) : (s.pinWriteMosi v).misoInput = s.misoInput := rfl
@[simp] theorem State.pinWriteMosi_rstInput (v : Level) : (s.pinWriteMosi v).rstInput = s.rstInput := rfl
@[simp] theorem State.pinWriteMosi_hostInput (v : Level) : (s.pinWriteMosi v).hostInput = s.hostInput := rfl
@[simp] theorem State.pinWriteMosi_draws (v : Level) : (s.pinWriteMosi v).draws = s.draws := rfl

/-! `pinReadMiso` -/

@[simp] theorem State.pinReadMiso_lifecycle : s.pinReadMiso.lifecycle = s.lifecycle := rfl
@[simp] theorem State.pinReadMiso_mode : s.pinReadMiso.mode = s.mode := rfl
@[simp] theorem State.pinReadMiso_modeValid : s.pinReadMiso.modeValid = s.modeValid := rfl
@[simp] theorem State.pinReadMiso_cpol : s.pinReadMiso.cpol = s.cpol := rfl
@[simp] theorem State.pinReadMiso_frequency : s.pinReadMiso.frequency = s.frequency := rfl
@[simp] theorem State.pinReadMiso_halfPeriodCount : s.pinReadMiso.halfPeriodCount = s.halfPeriodCount := rfl
@[simp] theorem State.pinReadMiso_interbyteDelayCount : s.pinReadMiso.interbyteDelayCount = s.interbyteDelayCount := rfl
@[simp] theorem State.pinReadMiso_lastStatus : s.pinReadMiso.lastStatus = s.lastStatus := rfl
@[simp] theorem State.pinReadMiso_sck : s.pinReadMiso.sck = s.sck := rfl
@[simp] theorem State.pinReadMiso_sckOe : s.pinReadMiso.sckOe = s.sckOe := rfl
@[simp] theorem State.pinReadMiso_mosi : s.pinReadMiso.mosi = s.mosi := rfl
@[simp] theorem State.pinReadMiso_mosiOe : s.pinReadMiso.mosiOe = s.mosiOe := rfl
@[simp] theorem State.pinReadMiso_base : s.pinReadMiso.base = s.base := rfl
@[simp] theorem State.pinReadMiso_len : s.pinReadMiso.len = s.len := rfl
@[simp] theorem State.pinReadMiso_byteIdx : s.pinReadMiso.byteIdx = s.byteIdx := rfl
@[simp] theorem State.pinReadMiso_bitCnt : s.pinReadMiso.bitCnt = s.bitCnt := rfl
@[simp] theorem State.pinReadMiso_txShift : s.pinReadMiso.txShift = s.txShift := rfl
@[simp] theorem State.pinReadMiso_rxAcc : s.pinReadMiso.rxAcc = s.rxAcc := rfl
@[simp] theorem State.pinReadMiso_seq : s.pinReadMiso.seq = s.seq := rfl
@[simp] theorem State.pinReadMiso_dlyCnt : s.pinReadMiso.dlyCnt = s.dlyCnt := rfl
@[simp] theorem State.pinReadMiso_rspValid : s.pinReadMiso.rspValid = s.rspValid := rfl
@[simp] theorem State.pinReadMiso_mem : s.pinReadMiso.mem = s.mem := rfl
@[simp] theorem State.pinReadMiso_trace : s.pinReadMiso.trace = s.trace ++ [.misoR s.misoLevel] := rfl
@[simp] theorem State.pinReadMiso_config : s.pinReadMiso.config = s.config := rfl
@[simp] theorem State.pinReadMiso_hasReset : s.pinReadMiso.hasReset = s.hasReset := rfl
@[simp] theorem State.pinReadMiso_misoInput : s.pinReadMiso.misoInput = s.misoInput.tail := rfl
@[simp] theorem State.pinReadMiso_rstInput : s.pinReadMiso.rstInput = s.rstInput := rfl
@[simp] theorem State.pinReadMiso_hostInput : s.pinReadMiso.hostInput = s.hostInput := rfl
@[simp] theorem State.pinReadMiso_draws : s.pinReadMiso.draws = if s.misoInput = [] then s.draws + 1 else s.draws := rfl

/-! `delay` -/

@[simp] theorem State.delay_lifecycle (n : Nat) : (s.delay n).lifecycle = s.lifecycle := rfl
@[simp] theorem State.delay_mode (n : Nat) : (s.delay n).mode = s.mode := rfl
@[simp] theorem State.delay_modeValid (n : Nat) : (s.delay n).modeValid = s.modeValid := rfl
@[simp] theorem State.delay_cpol (n : Nat) : (s.delay n).cpol = s.cpol := rfl
@[simp] theorem State.delay_frequency (n : Nat) : (s.delay n).frequency = s.frequency := rfl
@[simp] theorem State.delay_halfPeriodCount (n : Nat) : (s.delay n).halfPeriodCount = s.halfPeriodCount := rfl
@[simp] theorem State.delay_interbyteDelayCount (n : Nat) : (s.delay n).interbyteDelayCount = s.interbyteDelayCount := rfl
@[simp] theorem State.delay_lastStatus (n : Nat) : (s.delay n).lastStatus = s.lastStatus := rfl
@[simp] theorem State.delay_sck (n : Nat) : (s.delay n).sck = s.sck := rfl
@[simp] theorem State.delay_sckOe (n : Nat) : (s.delay n).sckOe = s.sckOe := rfl
@[simp] theorem State.delay_mosi (n : Nat) : (s.delay n).mosi = s.mosi := rfl
@[simp] theorem State.delay_mosiOe (n : Nat) : (s.delay n).mosiOe = s.mosiOe := rfl
@[simp] theorem State.delay_base (n : Nat) : (s.delay n).base = s.base := rfl
@[simp] theorem State.delay_len (n : Nat) : (s.delay n).len = s.len := rfl
@[simp] theorem State.delay_byteIdx (n : Nat) : (s.delay n).byteIdx = s.byteIdx := rfl
@[simp] theorem State.delay_bitCnt (n : Nat) : (s.delay n).bitCnt = s.bitCnt := rfl
@[simp] theorem State.delay_txShift (n : Nat) : (s.delay n).txShift = s.txShift := rfl
@[simp] theorem State.delay_rxAcc (n : Nat) : (s.delay n).rxAcc = s.rxAcc := rfl
@[simp] theorem State.delay_seq (n : Nat) : (s.delay n).seq = s.seq := rfl
@[simp] theorem State.delay_dlyCnt (n : Nat) : (s.delay n).dlyCnt = s.dlyCnt := rfl
@[simp] theorem State.delay_rspValid (n : Nat) : (s.delay n).rspValid = s.rspValid := rfl
@[simp] theorem State.delay_mem (n : Nat) : (s.delay n).mem = s.mem := rfl
@[simp] theorem State.delay_trace (n : Nat) : (s.delay n).trace = s.trace ++ [.wait n] := rfl
@[simp] theorem State.delay_config (n : Nat) : (s.delay n).config = s.config := rfl
@[simp] theorem State.delay_hasReset (n : Nat) : (s.delay n).hasReset = s.hasReset := rfl
@[simp] theorem State.delay_misoInput (n : Nat) : (s.delay n).misoInput = s.misoInput := rfl
@[simp] theorem State.delay_rstInput (n : Nat) : (s.delay n).rstInput = s.rstInput := rfl
@[simp] theorem State.delay_hostInput (n : Nat) : (s.delay n).hostInput = s.hostInput := rfl
@[simp] theorem State.delay_draws (n : Nat) : (s.delay n).draws = s.draws := rfl

/-! `memRead` -/

@[simp] theorem State.memRead_lifecycle (a : Word) : (s.memRead a).lifecycle = s.lifecycle := rfl
@[simp] theorem State.memRead_mode (a : Word) : (s.memRead a).mode = s.mode := rfl
@[simp] theorem State.memRead_modeValid (a : Word) : (s.memRead a).modeValid = s.modeValid := rfl
@[simp] theorem State.memRead_cpol (a : Word) : (s.memRead a).cpol = s.cpol := rfl
@[simp] theorem State.memRead_frequency (a : Word) : (s.memRead a).frequency = s.frequency := rfl
@[simp] theorem State.memRead_halfPeriodCount (a : Word) : (s.memRead a).halfPeriodCount = s.halfPeriodCount := rfl
@[simp] theorem State.memRead_interbyteDelayCount (a : Word) : (s.memRead a).interbyteDelayCount = s.interbyteDelayCount := rfl
@[simp] theorem State.memRead_lastStatus (a : Word) : (s.memRead a).lastStatus = s.lastStatus := rfl
@[simp] theorem State.memRead_sck (a : Word) : (s.memRead a).sck = s.sck := rfl
@[simp] theorem State.memRead_sckOe (a : Word) : (s.memRead a).sckOe = s.sckOe := rfl
@[simp] theorem State.memRead_mosi (a : Word) : (s.memRead a).mosi = s.mosi := rfl
@[simp] theorem State.memRead_mosiOe (a : Word) : (s.memRead a).mosiOe = s.mosiOe := rfl
@[simp] theorem State.memRead_base (a : Word) : (s.memRead a).base = s.base := rfl
@[simp] theorem State.memRead_len (a : Word) : (s.memRead a).len = s.len := rfl
@[simp] theorem State.memRead_byteIdx (a : Word) : (s.memRead a).byteIdx = s.byteIdx := rfl
@[simp] theorem State.memRead_bitCnt (a : Word) : (s.memRead a).bitCnt = s.bitCnt := rfl
@[simp] theorem State.memRead_txShift (a : Word) : (s.memRead a).txShift = s.txShift := rfl
@[simp] theorem State.memRead_rxAcc (a : Word) : (s.memRead a).rxAcc = s.rxAcc := rfl
@[simp] theorem State.memRead_seq (a : Word) : (s.memRead a).seq = s.seq := rfl
@[simp] theorem State.memRead_dlyCnt (a : Word) : (s.memRead a).dlyCnt = s.dlyCnt := rfl
@[simp] theorem State.memRead_rspValid (a : Word) : (s.memRead a).rspValid = s.rspValid := rfl
@[simp] theorem State.memRead_mem (a : Word) : (s.memRead a).mem = s.mem := rfl
@[simp] theorem State.memRead_trace (a : Word) : (s.memRead a).trace = s.trace ++ [.memR a (s.byteAt a)] := rfl
@[simp] theorem State.memRead_config (a : Word) : (s.memRead a).config = s.config := rfl
@[simp] theorem State.memRead_hasReset (a : Word) : (s.memRead a).hasReset = s.hasReset := rfl
@[simp] theorem State.memRead_misoInput (a : Word) : (s.memRead a).misoInput = s.misoInput := rfl
@[simp] theorem State.memRead_rstInput (a : Word) : (s.memRead a).rstInput = s.rstInput := rfl
@[simp] theorem State.memRead_hostInput (a : Word) : (s.memRead a).hostInput = s.hostInput := rfl
@[simp] theorem State.memRead_draws (a : Word) : (s.memRead a).draws = s.draws := rfl

/-! `memWrite` -/

@[simp] theorem State.memWrite_lifecycle (a : Word) (v : Byte) : (s.memWrite a v).lifecycle = s.lifecycle := rfl
@[simp] theorem State.memWrite_mode (a : Word) (v : Byte) : (s.memWrite a v).mode = s.mode := rfl
@[simp] theorem State.memWrite_modeValid (a : Word) (v : Byte) : (s.memWrite a v).modeValid = s.modeValid := rfl
@[simp] theorem State.memWrite_cpol (a : Word) (v : Byte) : (s.memWrite a v).cpol = s.cpol := rfl
@[simp] theorem State.memWrite_frequency (a : Word) (v : Byte) : (s.memWrite a v).frequency = s.frequency := rfl
@[simp] theorem State.memWrite_halfPeriodCount (a : Word) (v : Byte) : (s.memWrite a v).halfPeriodCount = s.halfPeriodCount := rfl
@[simp] theorem State.memWrite_interbyteDelayCount (a : Word) (v : Byte) : (s.memWrite a v).interbyteDelayCount = s.interbyteDelayCount := rfl
@[simp] theorem State.memWrite_lastStatus (a : Word) (v : Byte) : (s.memWrite a v).lastStatus = s.lastStatus := rfl
@[simp] theorem State.memWrite_sck (a : Word) (v : Byte) : (s.memWrite a v).sck = s.sck := rfl
@[simp] theorem State.memWrite_sckOe (a : Word) (v : Byte) : (s.memWrite a v).sckOe = s.sckOe := rfl
@[simp] theorem State.memWrite_mosi (a : Word) (v : Byte) : (s.memWrite a v).mosi = s.mosi := rfl
@[simp] theorem State.memWrite_mosiOe (a : Word) (v : Byte) : (s.memWrite a v).mosiOe = s.mosiOe := rfl
@[simp] theorem State.memWrite_base (a : Word) (v : Byte) : (s.memWrite a v).base = s.base := rfl
@[simp] theorem State.memWrite_len (a : Word) (v : Byte) : (s.memWrite a v).len = s.len := rfl
@[simp] theorem State.memWrite_byteIdx (a : Word) (v : Byte) : (s.memWrite a v).byteIdx = s.byteIdx := rfl
@[simp] theorem State.memWrite_bitCnt (a : Word) (v : Byte) : (s.memWrite a v).bitCnt = s.bitCnt := rfl
@[simp] theorem State.memWrite_txShift (a : Word) (v : Byte) : (s.memWrite a v).txShift = s.txShift := rfl
@[simp] theorem State.memWrite_rxAcc (a : Word) (v : Byte) : (s.memWrite a v).rxAcc = s.rxAcc := rfl
@[simp] theorem State.memWrite_seq (a : Word) (v : Byte) : (s.memWrite a v).seq = s.seq := rfl
@[simp] theorem State.memWrite_dlyCnt (a : Word) (v : Byte) : (s.memWrite a v).dlyCnt = s.dlyCnt := rfl
@[simp] theorem State.memWrite_rspValid (a : Word) (v : Byte) : (s.memWrite a v).rspValid = s.rspValid := rfl
@[simp] theorem State.memWrite_mem (a : Word) (v : Byte) : (s.memWrite a v).mem = s.mem.write a.toNat v := rfl
@[simp] theorem State.memWrite_trace (a : Word) (v : Byte) : (s.memWrite a v).trace = s.trace ++ [.memW a v] := rfl
@[simp] theorem State.memWrite_config (a : Word) (v : Byte) : (s.memWrite a v).config = s.config := rfl
@[simp] theorem State.memWrite_hasReset (a : Word) (v : Byte) : (s.memWrite a v).hasReset = s.hasReset := rfl
@[simp] theorem State.memWrite_misoInput (a : Word) (v : Byte) : (s.memWrite a v).misoInput = s.misoInput := rfl
@[simp] theorem State.memWrite_rstInput (a : Word) (v : Byte) : (s.memWrite a v).rstInput = s.rstInput := rfl
@[simp] theorem State.memWrite_hostInput (a : Word) (v : Byte) : (s.memWrite a v).hostInput = s.hostInput := rfl
@[simp] theorem State.memWrite_draws (a : Word) (v : Byte) : (s.memWrite a v).draws = s.draws := rfl

/-! `pinRelease` -/

@[simp] theorem State.pinRelease_lifecycle (p : Pin) : (s.pinRelease p).lifecycle = s.lifecycle := rfl
@[simp] theorem State.pinRelease_mode (p : Pin) : (s.pinRelease p).mode = s.mode := rfl
@[simp] theorem State.pinRelease_modeValid (p : Pin) : (s.pinRelease p).modeValid = s.modeValid := rfl
@[simp] theorem State.pinRelease_cpol (p : Pin) : (s.pinRelease p).cpol = s.cpol := rfl
@[simp] theorem State.pinRelease_frequency (p : Pin) : (s.pinRelease p).frequency = s.frequency := rfl
@[simp] theorem State.pinRelease_halfPeriodCount (p : Pin) : (s.pinRelease p).halfPeriodCount = s.halfPeriodCount := rfl
@[simp] theorem State.pinRelease_interbyteDelayCount (p : Pin) : (s.pinRelease p).interbyteDelayCount = s.interbyteDelayCount := rfl
@[simp] theorem State.pinRelease_lastStatus (p : Pin) : (s.pinRelease p).lastStatus = s.lastStatus := rfl
@[simp] theorem State.pinRelease_sck (p : Pin) : (s.pinRelease p).sck = s.sck := rfl
@[simp] theorem State.pinRelease_sckOe (p : Pin) : (s.pinRelease p).sckOe = if p = .sck then false else s.sckOe := rfl
@[simp] theorem State.pinRelease_mosi (p : Pin) : (s.pinRelease p).mosi = s.mosi := rfl
@[simp] theorem State.pinRelease_mosiOe (p : Pin) : (s.pinRelease p).mosiOe = if p = .mosi then false else s.mosiOe := rfl
@[simp] theorem State.pinRelease_base (p : Pin) : (s.pinRelease p).base = s.base := rfl
@[simp] theorem State.pinRelease_len (p : Pin) : (s.pinRelease p).len = s.len := rfl
@[simp] theorem State.pinRelease_byteIdx (p : Pin) : (s.pinRelease p).byteIdx = s.byteIdx := rfl
@[simp] theorem State.pinRelease_bitCnt (p : Pin) : (s.pinRelease p).bitCnt = s.bitCnt := rfl
@[simp] theorem State.pinRelease_txShift (p : Pin) : (s.pinRelease p).txShift = s.txShift := rfl
@[simp] theorem State.pinRelease_rxAcc (p : Pin) : (s.pinRelease p).rxAcc = s.rxAcc := rfl
@[simp] theorem State.pinRelease_seq (p : Pin) : (s.pinRelease p).seq = s.seq := rfl
@[simp] theorem State.pinRelease_dlyCnt (p : Pin) : (s.pinRelease p).dlyCnt = s.dlyCnt := rfl
@[simp] theorem State.pinRelease_rspValid (p : Pin) : (s.pinRelease p).rspValid = s.rspValid := rfl
@[simp] theorem State.pinRelease_mem (p : Pin) : (s.pinRelease p).mem = s.mem := rfl
@[simp] theorem State.pinRelease_trace (p : Pin) : (s.pinRelease p).trace = s.trace ++ [.rel p] := rfl
@[simp] theorem State.pinRelease_config (p : Pin) : (s.pinRelease p).config = s.config := rfl
@[simp] theorem State.pinRelease_hasReset (p : Pin) : (s.pinRelease p).hasReset = s.hasReset := rfl
@[simp] theorem State.pinRelease_misoInput (p : Pin) : (s.pinRelease p).misoInput = s.misoInput := rfl
@[simp] theorem State.pinRelease_rstInput (p : Pin) : (s.pinRelease p).rstInput = s.rstInput := rfl
@[simp] theorem State.pinRelease_hostInput (p : Pin) : (s.pinRelease p).hostInput = s.hostInput := rfl
@[simp] theorem State.pinRelease_draws (p : Pin) : (s.pinRelease p).draws = s.draws := rfl

/-! `respond` -/

@[simp] theorem State.respond_lifecycle (st : Status) : (s.respond st).lifecycle = s.lifecycle := rfl
@[simp] theorem State.respond_mode (st : Status) : (s.respond st).mode = s.mode := rfl
@[simp] theorem State.respond_modeValid (st : Status) : (s.respond st).modeValid = s.modeValid := rfl
@[simp] theorem State.respond_cpol (st : Status) : (s.respond st).cpol = s.cpol := rfl
@[simp] theorem State.respond_frequency (st : Status) : (s.respond st).frequency = s.frequency := rfl
@[simp] theorem State.respond_halfPeriodCount (st : Status) : (s.respond st).halfPeriodCount = s.halfPeriodCount := rfl
@[simp] theorem State.respond_interbyteDelayCount (st : Status) : (s.respond st).interbyteDelayCount = s.interbyteDelayCount := rfl
@[simp] theorem State.respond_lastStatus (st : Status) : (s.respond st).lastStatus = st := rfl
@[simp] theorem State.respond_sck (st : Status) : (s.respond st).sck = s.sck := rfl
@[simp] theorem State.respond_sckOe (st : Status) : (s.respond st).sckOe = s.sckOe := rfl
@[simp] theorem State.respond_mosi (st : Status) : (s.respond st).mosi = s.mosi := rfl
@[simp] theorem State.respond_mosiOe (st : Status) : (s.respond st).mosiOe = s.mosiOe := rfl
@[simp] theorem State.respond_base (st : Status) : (s.respond st).base = s.base := rfl
@[simp] theorem State.respond_len (st : Status) : (s.respond st).len = s.len := rfl
@[simp] theorem State.respond_byteIdx (st : Status) : (s.respond st).byteIdx = s.byteIdx := rfl
@[simp] theorem State.respond_bitCnt (st : Status) : (s.respond st).bitCnt = s.bitCnt := rfl
@[simp] theorem State.respond_txShift (st : Status) : (s.respond st).txShift = s.txShift := rfl
@[simp] theorem State.respond_rxAcc (st : Status) : (s.respond st).rxAcc = s.rxAcc := rfl
@[simp] theorem State.respond_seq (st : Status) : (s.respond st).seq = s.seq := rfl
@[simp] theorem State.respond_dlyCnt (st : Status) : (s.respond st).dlyCnt = s.dlyCnt := rfl
@[simp] theorem State.respond_rspValid (st : Status) : (s.respond st).rspValid = true := rfl
@[simp] theorem State.respond_mem (st : Status) : (s.respond st).mem = s.mem := rfl
@[simp] theorem State.respond_trace (st : Status) : (s.respond st).trace = s.trace ++ [.rsp st] := rfl
@[simp] theorem State.respond_config (st : Status) : (s.respond st).config = s.config := rfl
@[simp] theorem State.respond_hasReset (st : Status) : (s.respond st).hasReset = s.hasReset := rfl
@[simp] theorem State.respond_misoInput (st : Status) : (s.respond st).misoInput = s.misoInput := rfl
@[simp] theorem State.respond_rstInput (st : Status) : (s.respond st).rstInput = s.rstInput := rfl
@[simp] theorem State.respond_hostInput (st : Status) : (s.respond st).hostInput = s.hostInput := rfl
@[simp] theorem State.respond_draws (st : Status) : (s.respond st).draws = s.draws := rfl

/-! `raise` -/

@[simp] theorem State.raise_lifecycle (st : Status) : (s.raise st).lifecycle = s.lifecycle := rfl
@[simp] theorem State.raise_mode (st : Status) : (s.raise st).mode = s.mode := rfl
@[simp] theorem State.raise_modeValid (st : Status) : (s.raise st).modeValid = s.modeValid := rfl
@[simp] theorem State.raise_cpol (st : Status) : (s.raise st).cpol = s.cpol := rfl
@[simp] theorem State.raise_frequency (st : Status) : (s.raise st).frequency = s.frequency := rfl
@[simp] theorem State.raise_halfPeriodCount (st : Status) : (s.raise st).halfPeriodCount = s.halfPeriodCount := rfl
@[simp] theorem State.raise_interbyteDelayCount (st : Status) : (s.raise st).interbyteDelayCount = s.interbyteDelayCount := rfl
@[simp] theorem State.raise_lastStatus (st : Status) : (s.raise st).lastStatus = st := rfl
@[simp] theorem State.raise_sck (st : Status) : (s.raise st).sck = s.sck := rfl
@[simp] theorem State.raise_sckOe (st : Status) : (s.raise st).sckOe = s.sckOe := rfl
@[simp] theorem State.raise_mosi (st : Status) : (s.raise st).mosi = s.mosi := rfl
@[simp] theorem State.raise_mosiOe (st : Status) : (s.raise st).mosiOe = s.mosiOe := rfl
@[simp] theorem State.raise_base (st : Status) : (s.raise st).base = s.base := rfl
@[simp] theorem State.raise_len (st : Status) : (s.raise st).len = s.len := rfl
@[simp] theorem State.raise_byteIdx (st : Status) : (s.raise st).byteIdx = s.byteIdx := rfl
@[simp] theorem State.raise_bitCnt (st : Status) : (s.raise st).bitCnt = s.bitCnt := rfl
@[simp] theorem State.raise_txShift (st : Status) : (s.raise st).txShift = s.txShift := rfl
@[simp] theorem State.raise_rxAcc (st : Status) : (s.raise st).rxAcc = s.rxAcc := rfl
@[simp] theorem State.raise_seq (st : Status) : (s.raise st).seq = s.seq := rfl
@[simp] theorem State.raise_dlyCnt (st : Status) : (s.raise st).dlyCnt = s.dlyCnt := rfl
@[simp] theorem State.raise_rspValid (st : Status) : (s.raise st).rspValid = true := rfl
@[simp] theorem State.raise_mem (st : Status) : (s.raise st).mem = s.mem := rfl
@[simp] theorem State.raise_trace (st : Status) : (s.raise st).trace = s.trace ++ [.rsp st] := rfl
@[simp] theorem State.raise_config (st : Status) : (s.raise st).config = s.config := rfl
@[simp] theorem State.raise_hasReset (st : Status) : (s.raise st).hasReset = s.hasReset := rfl
@[simp] theorem State.raise_misoInput (st : Status) : (s.raise st).misoInput = s.misoInput := rfl
@[simp] theorem State.raise_rstInput (st : Status) : (s.raise st).rstInput = s.rstInput := rfl
@[simp] theorem State.raise_hostInput (st : Status) : (s.raise st).hostInput = s.hostInput := rfl
@[simp] theorem State.raise_draws (st : Status) : (s.raise st).draws = s.draws := rfl

/-! `goto` -/

@[simp] theorem State.goto_lifecycle (q : Seq) : (s.goto q).lifecycle = s.lifecycle := rfl
@[simp] theorem State.goto_mode (q : Seq) : (s.goto q).mode = s.mode := rfl
@[simp] theorem State.goto_modeValid (q : Seq) : (s.goto q).modeValid = s.modeValid := rfl
@[simp] theorem State.goto_cpol (q : Seq) : (s.goto q).cpol = s.cpol := rfl
@[simp] theorem State.goto_frequency (q : Seq) : (s.goto q).frequency = s.frequency := rfl
@[simp] theorem State.goto_halfPeriodCount (q : Seq) : (s.goto q).halfPeriodCount = s.halfPeriodCount := rfl
@[simp] theorem State.goto_interbyteDelayCount (q : Seq) : (s.goto q).interbyteDelayCount = s.interbyteDelayCount := rfl
@[simp] theorem State.goto_lastStatus (q : Seq) : (s.goto q).lastStatus = s.lastStatus := rfl
@[simp] theorem State.goto_sck (q : Seq) : (s.goto q).sck = s.sck := rfl
@[simp] theorem State.goto_sckOe (q : Seq) : (s.goto q).sckOe = s.sckOe := rfl
@[simp] theorem State.goto_mosi (q : Seq) : (s.goto q).mosi = s.mosi := rfl
@[simp] theorem State.goto_mosiOe (q : Seq) : (s.goto q).mosiOe = s.mosiOe := rfl
@[simp] theorem State.goto_base (q : Seq) : (s.goto q).base = s.base := rfl
@[simp] theorem State.goto_len (q : Seq) : (s.goto q).len = s.len := rfl
@[simp] theorem State.goto_byteIdx (q : Seq) : (s.goto q).byteIdx = s.byteIdx := rfl
@[simp] theorem State.goto_bitCnt (q : Seq) : (s.goto q).bitCnt = s.bitCnt := rfl
@[simp] theorem State.goto_txShift (q : Seq) : (s.goto q).txShift = s.txShift := rfl
@[simp] theorem State.goto_rxAcc (q : Seq) : (s.goto q).rxAcc = s.rxAcc := rfl
@[simp] theorem State.goto_seq (q : Seq) : (s.goto q).seq = q := rfl
@[simp] theorem State.goto_dlyCnt (q : Seq) : (s.goto q).dlyCnt = s.dlyCnt := rfl
@[simp] theorem State.goto_rspValid (q : Seq) : (s.goto q).rspValid = s.rspValid := rfl
@[simp] theorem State.goto_mem (q : Seq) : (s.goto q).mem = s.mem := rfl
@[simp] theorem State.goto_trace (q : Seq) : (s.goto q).trace = s.trace := rfl
@[simp] theorem State.goto_config (q : Seq) : (s.goto q).config = s.config := rfl
@[simp] theorem State.goto_hasReset (q : Seq) : (s.goto q).hasReset = s.hasReset := rfl
@[simp] theorem State.goto_misoInput (q : Seq) : (s.goto q).misoInput = s.misoInput := rfl
@[simp] theorem State.goto_rstInput (q : Seq) : (s.goto q).rstInput = s.rstInput := rfl
@[simp] theorem State.goto_hostInput (q : Seq) : (s.goto q).hostInput = s.hostInput := rfl
@[simp] theorem State.goto_draws (q : Seq) : (s.goto q).draws = s.draws := rfl

/-! `nextInputs` -/

@[simp] theorem State.nextInputs_lifecycle : s.nextInputs.lifecycle = s.lifecycle := rfl
@[simp] theorem State.nextInputs_mode : s.nextInputs.mode = s.mode := rfl
@[simp] theorem State.nextInputs_modeValid : s.nextInputs.modeValid = s.modeValid := rfl
@[simp] theorem State.nextInputs_cpol : s.nextInputs.cpol = s.cpol := rfl
@[simp] theorem State.nextInputs_frequency : s.nextInputs.frequency = s.frequency := rfl
@[simp] theorem State.nextInputs_halfPeriodCount : s.nextInputs.halfPeriodCount = s.halfPeriodCount := rfl
@[simp] theorem State.nextInputs_interbyteDelayCount : s.nextInputs.interbyteDelayCount = s.interbyteDelayCount := rfl
@[simp] theorem State.nextInputs_lastStatus : s.nextInputs.lastStatus = s.lastStatus := rfl
@[simp] theorem State.nextInputs_sck : s.nextInputs.sck = s.sck := rfl
@[simp] theorem State.nextInputs_sckOe : s.nextInputs.sckOe = s.sckOe := rfl
@[simp] theorem State.nextInputs_mosi : s.nextInputs.mosi = s.mosi := rfl
@[simp] theorem State.nextInputs_mosiOe : s.nextInputs.mosiOe = s.mosiOe := rfl
@[simp] theorem State.nextInputs_base : s.nextInputs.base = s.base := rfl
@[simp] theorem State.nextInputs_len : s.nextInputs.len = s.len := rfl
@[simp] theorem State.nextInputs_byteIdx : s.nextInputs.byteIdx = s.byteIdx := rfl
@[simp] theorem State.nextInputs_bitCnt : s.nextInputs.bitCnt = s.bitCnt := rfl
@[simp] theorem State.nextInputs_txShift : s.nextInputs.txShift = s.txShift := rfl
@[simp] theorem State.nextInputs_rxAcc : s.nextInputs.rxAcc = s.rxAcc := rfl
@[simp] theorem State.nextInputs_seq : s.nextInputs.seq = s.seq := rfl
@[simp] theorem State.nextInputs_dlyCnt : s.nextInputs.dlyCnt = s.dlyCnt := rfl
@[simp] theorem State.nextInputs_rspValid : s.nextInputs.rspValid = false := rfl
@[simp] theorem State.nextInputs_mem : s.nextInputs.mem = s.mem := rfl
@[simp] theorem State.nextInputs_trace : s.nextInputs.trace = s.trace := rfl
@[simp] theorem State.nextInputs_config : s.nextInputs.config = s.config := rfl
@[simp] theorem State.nextInputs_hasReset : s.nextInputs.hasReset = s.hasReset := rfl
@[simp] theorem State.nextInputs_misoInput : s.nextInputs.misoInput = s.misoInput := rfl
@[simp] theorem State.nextInputs_rstInput : s.nextInputs.rstInput = s.rstInput.tail := rfl
@[simp] theorem State.nextInputs_hostInput : s.nextInputs.hostInput = passTick s.hostInput := rfl
@[simp] theorem State.nextInputs_draws : s.nextInputs.draws = s.draws := rfl

end Sys2Proof.Machine
end

