-- ==== Sys2Proof/Laws/Step.lean ====
section
/-! SUPPORT. What one step can do, and runs of several steps. -/

namespace Sys2Proof.Machine

/-- The state a command is performed on: the command is off the port, and its trace begins (30 R57, 44 R103). -/
def State.accepted (s : State) (rest : List HostMove) : State :=
  { s.nextInputs with hostInput := rest, trace := [] }

/-- No command stops the machine. -/
theorem exec_next (i : Instr) (s : State) : ∃ t, exec i s = .next t := by
  cases i <;> exact ⟨_, rfl⟩

/-- Everything a step to a next state can be. -/
theorem step_cases {s t : State} (h : step s = .next t) :
    (s.rstAsserted = true ∧ t = create s.nextInputs) ∨
    (s.rstAsserted = false ∧ s.hasReset = true ∧
      ((s.lifecycle = .busy ∧ s.seq ≠ .idle ∧ t = seqTick s.nextInputs) ∨
       (s.lifecycle ≠ .busy ∧
         ((∃ w rest, s.hostInput = .cmd w :: rest ∧ exec (decodeWord w) (s.accepted rest) = .next t) ∨
          (∃ a v rest, s.hostInput = .poke a v :: rest ∧
            t = { s.nextInputs with hostInput := rest, mem := s.mem.write a.toNat v }) ∨
          ((∀ w rest, s.hostInput ≠ .cmd w :: rest) ∧ (∀ a v rest, s.hostInput ≠ .poke a v :: rest) ∧
            t = s.nextInputs))))) := by
  unfold step tickAction at h
  by_cases hr : s.rstAsserted = true
  · simp only [hr, if_true] at h
    exact .inl ⟨hr, by simpa using h.symm⟩
  · simp only [Bool.not_eq_true] at hr
    refine .inr ⟨hr, ?_⟩
    by_cases h0 : s.hasReset = true
    · refine ⟨h0, ?_⟩
      simp only [hr, h0, Bool.false_eq_true, if_false, Bool.true_eq_false] at h
      by_cases hb : s.lifecycle = .busy
      · by_cases hq : s.seq = .idle
        · simp [hb, hq] at h
        · simp only [hb, hq, if_true, if_false] at h
          exact .inl ⟨hb, hq, by simpa using h.symm⟩
      · refine .inr ⟨hb, ?_⟩
        simp only [hb, if_false] at h
        match hi : s.hostInput with
        | .cmd w :: rest => rw [hi] at h; exact .inl ⟨w, rest, rfl, h⟩
        | .poke a v :: rest =>
          rw [hi] at h
          exact .inr (.inl ⟨a, v, rest, rfl, (Host.Outcome.next.inj h).symm⟩)
        | [] => rw [hi] at h; exact .inr (.inr ⟨by simp, by simp, (Host.Outcome.next.inj h).symm⟩)
        | .idle :: rest => rw [hi] at h; exact .inr (.inr ⟨by simp, by simp, (Host.Outcome.next.inj h).symm⟩)
        | .reset :: rest => rw [hi] at h; exact .inr (.inr ⟨by simp, by simp, (Host.Outcome.next.inj h).symm⟩)
    · simp only [Bool.not_eq_true] at h0
      simp [hr, h0] at h

/-- A tick of a running WRITE. -/
theorem step_sequence {s : State} (hr : s.rstAsserted = false) (h0 : s.hasReset = true) (hb : s.lifecycle = .busy)
    (hq : s.seq ≠ .idle) : step s = .next (seqTick s.nextInputs) := by
  simp [step, tickAction, hr, h0, hb, hq]

theorem runsTo_zero (s : State) : RunsTo 0 s s := rfl

theorem runsTo_succ {s t u : State} {k : Nat} (h : step s = .next t) : RunsTo (k + 1) s u ↔ RunsTo k t u := by
  have hc : Sys2Proof.core.step s = Host.Outcome.next t := h
  unfold RunsTo
  simp only [Host.Core.run, hc]

theorem runsTo_succ_iff {s u : State} {k : Nat} : RunsTo (k + 1) s u ↔ ∃ t, step s = .next t ∧ RunsTo k t u := by
  constructor
  · intro h
    cases hs : step s with
    | next t => exact ⟨t, rfl, (runsTo_succ hs).mp h⟩
    | fault r =>
      have hc : Sys2Proof.core.step s = Host.Outcome.fault r := hs
      simp [RunsTo, Host.Core.run, hc] at h
    | refused r =>
      have hc : Sys2Proof.core.step s = Host.Outcome.refused r := hs
      simp [RunsTo, Host.Core.run, hc] at h
  · rintro ⟨t, hs, ht⟩
    exact (runsTo_succ hs).mpr ht

theorem runsTo_unique {k : Nat} {s t u : State} (ht : RunsTo k s t) (hu : RunsTo k s u) : t = u :=
  Host.Outcome.next.inj (ht.symm.trans hu)

theorem runsTo_add {j k : Nat} {s u : State} : RunsTo (j + k) s u ↔ ∃ t, RunsTo j s t ∧ RunsTo k t u := by
  induction j generalizing s with
  | zero =>
    rw [Nat.zero_add]
    exact ⟨fun h => ⟨s, rfl, h⟩, fun ⟨t, h1, h2⟩ => by rwa [runsTo_unique (runsTo_zero s) h1]⟩
  | succ j ih =>
    rw [show j + 1 + k = (j + k) + 1 by omega, runsTo_succ_iff]
    constructor
    · rintro ⟨v, hv, h⟩
      obtain ⟨t, h1, h2⟩ := ih.mp h
      exact ⟨t, (runsTo_succ hv).mpr h1, h2⟩
    · rintro ⟨t, h1, h2⟩
      obtain ⟨v, hv, h⟩ := runsTo_succ_iff.mp h1
      exact ⟨v, hv, ih.mpr ⟨t, h, h2⟩⟩

theorem NoReset.now {k : Nat} {s : State} (h : NoReset (k + 1) s) : s.rstAsserted = false :=
  h 0 s (by omega) rfl

theorem NoReset.later {j k : Nat} {s t : State} (h : NoReset (j + k) s) (ht : RunsTo j s t) : NoReset k t :=
  fun i u hi hu => h (j + i) u (by omega) (runsTo_add.mpr ⟨t, ht, hu⟩)

theorem NoReset.mono {j k : Nat} {s : State} (h : NoReset k s) (hj : j ≤ k) : NoReset j s :=
  fun i u hi hu => h i u (by omega) hu

/-- `k` ticks from `s` end in `t`, and the block is BUSY in each of them. -/
def BusyRun (k : Nat) (s t : State) : Prop :=
  RunsTo k s t ∧ ∀ j u, j < k → RunsTo j s u → u.lifecycle = .busy

theorem busyRun_zero (s : State) : BusyRun 0 s s := ⟨rfl, fun _ _ h => absurd h (Nat.not_lt_zero _)⟩

theorem BusyRun.trans {j k : Nat} {s t u : State} (h1 : BusyRun j s t) (h2 : BusyRun k t u) : BusyRun (j + k) s u := by
  refine ⟨runsTo_add.mpr ⟨t, h1.1, h2.1⟩, fun i v hi hv => ?_⟩
  by_cases hij : i < j
  · exact h1.2 i v hij hv
  · obtain ⟨m, rfl⟩ : ∃ m, i = j + m := ⟨i - j, by omega⟩
    obtain ⟨w, hw, hwv⟩ := runsTo_add.mp hv
    rw [runsTo_unique hw h1.1] at hwv
    exact h2.2 m v (by omega) hwv

theorem busyRun_tick {s : State} (hr : s.rstAsserted = false) (h0 : s.hasReset = true) (hb : s.lifecycle = .busy)
    (hq : s.seq ≠ .idle) : BusyRun 1 s (seqTick s.nextInputs) := by
  refine ⟨(runsTo_succ (step_sequence hr h0 hb hq)).mpr rfl, fun j u hj hu => ?_⟩
  obtain rfl : j = 0 := by omega
  rw [← runsTo_unique (runsTo_zero s) hu]
  exact hb

end Sys2Proof.Machine
end

