-- ==== Sys2Proof/Laws/Commands.lean ====
section
/-! SUPPORT. Everything a command can do in its accept tick. -/

namespace Sys2Proof.Machine

theorem raise_eq_answered (s : State) (st : Status) : s.raise st = answered s st := rfl

theorem respond_eq_answered (s : State) (st : Status) : s.respond st = answered s st := rfl

theorem setfreqEffect_released {s : State} (h : s.lifecycle = .released) (hz : Word) :
    setfreqEffect hz s = answered s .released := by
  simp [setfreqEffect, h, raise_eq_answered]

theorem setfreqEffect_live {s : State} (h : s.lifecycle ≠ .released) (hz : Word) :
    setfreqEffect hz s = answered { s with frequency := hz, halfPeriodCount := halfPeriodFor s.config hz } .ok := by
  simp [setfreqEffect, h, respond_eq_answered]

theorem setdelayEffect_released {s : State} (h : s.lifecycle = .released) (us : Word) :
    setdelayEffect us s = answered s .released := by
  simp [setdelayEffect, h, raise_eq_answered]

theorem setdelayEffect_live {s : State} (h : s.lifecycle ≠ .released) (us : Word) :
    setdelayEffect us s = answered { s with interbyteDelayCount := interbyteFor s.config us } .ok := by
  simp [setdelayEffect, h, respond_eq_answered]

theorem setmodeEffect_released {s : State} (h : s.lifecycle = .released) (m : Word) :
    setmodeEffect m s = answered s .released := by
  simp [setmodeEffect, h, raise_eq_answered]

theorem setmodeEffect_legal {s : State} (h : s.lifecycle ≠ .released) {m : Word} (hm : m.toNat ≤ 3) :
    setmodeEffect m s = answered
      { s with
        mode := modeBits m, cpol := cpolOf (modeBits m), modeValid := true, sck := cpolOf (modeBits m),
        trace := s.trace ++ [.sckW (cpolOf (modeBits m))] } .ok := by
  simp [setmodeEffect, h, legalMode, hm, respond_eq_answered, State.pinWriteSck]

theorem setmodeEffect_illegal {s : State} (h : s.lifecycle ≠ .released) {m : Word} (hm : 3 < m.toNat) :
    setmodeEffect m s = answered { s with modeValid := false } .invalidMode := by
  have hm' : ¬ m.toNat ≤ 3 := by omega
  simp [setmodeEffect, h, legalMode, hm', raise_eq_answered]

theorem destroyEffect_released {s : State} (h : s.lifecycle = .released) : destroyEffect s = answered s .released := by
  simp [destroyEffect, h, raise_eq_answered]

theorem destroyEffect_live {s : State} (h : s.lifecycle ≠ .released) :
    destroyEffect s = answered
      { s with
        sckOe := false, mosiOe := false, lifecycle := .released
        trace := s.trace ++ [.rel .sck, .rel .mosi, .rel .miso] } .ok := by
  simp [destroyEffect, h, respond_eq_answered, State.pinRelease]

theorem reservedEffect_released {s : State} (h : s.lifecycle = .released) : reservedEffect s = answered s .released := by
  simp [reservedEffect, h, raise_eq_answered]

theorem reservedEffect_live {s : State} (h : s.lifecycle ≠ .released) :
    reservedEffect s = answered s .invalidArgument := by
  simp [reservedEffect, h, raise_eq_answered]

/-- The checks of a WRITE, as the status it answers with at once; `none` where it starts (42 R86). -/
def writeAnswer (base len : Word) (s : State) : Option Status :=
  if s.lifecycle = .released then some .released
  else if s.modeValid = false then some .invalidMode
  else if rangeFits base len = false then some .invalidArgument
  else if len = 0 then some .ok
  else none

theorem writeAccept_answered {base len : Word} {s : State} {st : Status} (h : writeAnswer base len s = some st) :
    writeAccept base len s = answered s st := by
  unfold writeAnswer at h
  unfold writeAccept
  split_ifs at h ⊢ <;> simp_all [raise_eq_answered, respond_eq_answered]

theorem writeAccept_started {base len : Word} {s : State} (h : writeAnswer base len s = none) :
    writeAccept base len s =
      { s with lifecycle := .busy, base := base, len := len, byteIdx := 0, seq := .load } := by
  unfold writeAnswer at h
  unfold writeAccept
  split_ifs at h ⊢
  rfl

theorem writeTransaction_answered {base len : Word} {s : State} {st : Status} (h : writeAnswer base len s = some st) :
    writeTransaction base len s = answered s st := by
  unfold writeAnswer at h
  unfold writeTransaction
  split_ifs at h ⊢ <;> simp_all [raise_eq_answered, respond_eq_answered]

theorem writeTransaction_started {base len : Word} {s : State} (h : writeAnswer base len s = none) :
    writeTransaction base len s =
      answered { transferBuffer len.toNat base { s with lifecycle := .busy } with lifecycle := .ready } .ok := by
  unfold writeAnswer at h
  unfold writeTransaction
  split_ifs at h ⊢
  rfl

theorem writeAnswer_none {base len : Word} {s : State} :
    writeAnswer base len s = none ↔
      s.lifecycle ≠ .released ∧ s.modeValid = true ∧ base.toNat + len.toNat ≤ 2 ^ 32 ∧ len ≠ 0 := by
  unfold writeAnswer
  split_ifs with h1 h2 h3 h4 <;> simp_all [rangeFits]

theorem writeStarts_iff {base len : Word} {s : State} :
    writeStarts base len s = true ↔ writeAnswer base len s = none := by
  rw [writeAnswer_none]
  simp [writeStarts, rangeFits, and_assoc]

/-- Everything a command can do in its accept tick. -/
theorem exec_cases {i : Instr} {s t : State} (h : exec i s = .next t) :
    (∃ st, t = answered s st ∧ (st = .ok → ∃ base, i = .write base 0)) ∨
    (∃ hz, i = .setfreq hz ∧ s.lifecycle ≠ .released ∧
      t = answered { s with frequency := hz, halfPeriodCount := halfPeriodFor s.config hz } .ok) ∨
    (∃ us, i = .setdelay us ∧ s.lifecycle ≠ .released ∧
      t = answered { s with interbyteDelayCount := interbyteFor s.config us } .ok) ∨
    (∃ m : Word, i = .setmode m ∧ s.lifecycle ≠ .released ∧ m.toNat ≤ 3 ∧ t = answered
      { s with
        mode := modeBits m, cpol := cpolOf (modeBits m), modeValid := true, sck := cpolOf (modeBits m)
        trace := s.trace ++ [.sckW (cpolOf (modeBits m))] } .ok) ∨
    (∃ m : Word, i = .setmode m ∧ s.lifecycle ≠ .released ∧ 3 < m.toNat ∧
      t = answered { s with modeValid := false } .invalidMode) ∨
    (i = .destroy ∧ s.lifecycle ≠ .released ∧ t = answered
      { s with
        sckOe := false, mosiOe := false, lifecycle := .released
        trace := s.trace ++ [.rel .sck, .rel .mosi, .rel .miso] } .ok) ∨
    (∃ base len, i = .write base len ∧ writeAnswer base len s = none ∧
      t = { s with lifecycle := .busy, base := base, len := len, byteIdx := 0, seq := .load }) := by
  by_cases hr : s.lifecycle = .released
  · refine .inl ⟨.released, ?_, by simp⟩
    cases i with
    | setfreq hz => exact (Host.Outcome.next.inj h).symm.trans (setfreqEffect_released hr hz)
    | setmode m => exact (Host.Outcome.next.inj h).symm.trans (setmodeEffect_released hr m)
    | setdelay us => exact (Host.Outcome.next.inj h).symm.trans (setdelayEffect_released hr us)
    | write base len =>
      exact (Host.Outcome.next.inj h).symm.trans (writeAccept_answered (by simp [writeAnswer, hr]))
    | destroy => exact (Host.Outcome.next.inj h).symm.trans (destroyEffect_released hr)
    | _ => exact (Host.Outcome.next.inj h).symm.trans (reservedEffect_released hr)
  · cases i with
    | setfreq hz =>
      exact .inr (.inl ⟨hz, rfl, hr, (Host.Outcome.next.inj h).symm.trans (setfreqEffect_live hr hz)⟩)
    | setdelay us =>
      exact .inr (.inr (.inl ⟨us, rfl, hr, (Host.Outcome.next.inj h).symm.trans (setdelayEffect_live hr us)⟩))
    | setmode m =>
      by_cases hm : m.toNat ≤ 3
      · exact .inr (.inr (.inr (.inl
          ⟨m, rfl, hr, hm, (Host.Outcome.next.inj h).symm.trans (setmodeEffect_legal hr hm)⟩)))
      · exact .inr (.inr (.inr (.inr (.inl ⟨m, rfl, hr, by omega,
          (Host.Outcome.next.inj h).symm.trans (setmodeEffect_illegal hr (by omega))⟩))))
    | destroy =>
      exact .inr (.inr (.inr (.inr (.inr (.inl
        ⟨rfl, hr, (Host.Outcome.next.inj h).symm.trans (destroyEffect_live hr)⟩)))))
    | write base len =>
      cases hw : writeAnswer base len s with
      | none =>
        exact .inr (.inr (.inr (.inr (.inr (.inr
          ⟨base, len, rfl, hw, (Host.Outcome.next.inj h).symm.trans (writeAccept_started hw)⟩)))))
      | some st =>
        refine .inl ⟨st, (Host.Outcome.next.inj h).symm.trans (writeAccept_answered hw), ?_⟩
        rintro rfl
        refine ⟨base, ?_⟩
        unfold writeAnswer at hw
        split_ifs at hw <;> simp_all
    | _ => exact .inl ⟨.invalidArgument, (Host.Outcome.next.inj h).symm.trans (reservedEffect_live hr), by simp⟩

end Sys2Proof.Machine
end

