-- ==== Sys2Proof/Laws/Decode.lean ====
section
/-! SUPPORT. The fields of a command word as numbers (30 R56), and the decoder on packed fields. -/

namespace Sys2Proof

theorem packFields_toNat (op : BitVec 4) (a b : Word) :
    (packFields op a b).toNat = op.toNat * 2 ^ 64 + a.toNat * 2 ^ 32 + b.toNat := by
  have h : (packFields op a b).toNat = (op.toNat <<< 32 ||| a.toNat) <<< 32 ||| b.toNat := by
    rw [← BitVec.toNat_append, ← BitVec.toNat_append]; rfl
  rw [h, ← Nat.shiftLeft_add_eq_or_of_lt b.isLt, ← Nat.shiftLeft_add_eq_or_of_lt a.isLt]
  simp only [Nat.shiftLeft_eq]
  omega

theorem opField_toNat (w : CommandWord) : (opField w).toNat = w.toNat / 2 ^ 64 := by
  have := w.isLt
  simp only [opField, BitVec.extractLsb'_toNat, Nat.shiftRight_eq_div_pow]
  omega

theorem arg0Field_toNat (w : CommandWord) : (arg0Field w).toNat = w.toNat / 2 ^ 32 % 2 ^ 32 := by
  simp only [arg0Field, BitVec.extractLsb'_toNat, Nat.shiftRight_eq_div_pow]

theorem arg1Field_toNat (w : CommandWord) : (arg1Field w).toNat = w.toNat % 2 ^ 32 := by
  simp only [arg1Field, BitVec.extractLsb'_toNat, Nat.shiftRight_eq_div_pow, Nat.pow_zero, Nat.div_one]

theorem opField_packFields (op : BitVec 4) (a b : Word) : opField (packFields op a b) = op := by
  apply BitVec.eq_of_toNat_eq
  have := a.isLt
  have := b.isLt
  rw [opField_toNat, packFields_toNat]
  omega

theorem arg0Field_packFields (op : BitVec 4) (a b : Word) : arg0Field (packFields op a b) = a := by
  apply BitVec.eq_of_toNat_eq
  have := a.isLt
  have := b.isLt
  rw [arg0Field_toNat, packFields_toNat]
  omega

theorem arg1Field_packFields (op : BitVec 4) (a b : Word) : arg1Field (packFields op a b) = b := by
  apply BitVec.eq_of_toNat_eq
  have := b.isLt
  rw [arg1Field_toNat, packFields_toNat]
  omega

/-- Every word is its three fields. -/
theorem packFields_fields (w : CommandWord) : packFields (opField w) (arg0Field w) (arg1Field w) = w := by
  apply BitVec.eq_of_toNat_eq
  have := w.isLt
  rw [packFields_toNat, opField_toNat, arg0Field_toNat, arg1Field_toNat]
  omega

/-- A mask works field by field. -/
theorem packFields_and (o p : BitVec 4) (a b c d : Word) :
    packFields o a b &&& packFields p c d = packFields (o &&& p) (a &&& c) (b &&& d) := by
  have h : packFields o a b &&& packFields p c d = (o ++ a &&& p ++ c) ++ (b &&& d) := BitVec.and_append
  rw [h, BitVec.and_append]
  rfl

end Sys2Proof
end

