-- ==== Sys2Proof/Laws/Memory.lean ====
section
/-! SUPPORT. The buffer memory: read after write, the canonical form, and that it is canonical. -/

namespace Sys2Proof.Machine

@[simp] theorem Memory.read_nil (a : Nat) : Memory.read [] a = unlistedByte := rfl

@[simp] theorem Memory.wf_nil : Memory.wf [] = true := rfl

theorem Memory.wfFrom_cons {lo a : Nat} {v : Byte} {m : Memory} :
    Memory.wfFrom lo ((a, v) :: m) = true ↔
      lo ≤ a ∧ a < 2 ^ 32 ∧ v ≠ unlistedByte ∧ Memory.wfFrom (a + 1) m = true := by
  simp [Memory.wfFrom, and_assoc]

/-- A lower bound may be lowered. -/
theorem Memory.wfFrom_mono {lo lo' : Nat} {m : Memory} (h : Memory.wfFrom lo m = true) (hl : lo' ≤ lo) :
    Memory.wfFrom lo' m = true := by
  cases m with
  | nil => rfl
  | cons c m =>
    obtain ⟨a, v⟩ := c
    rw [Memory.wfFrom_cons] at h ⊢
    exact ⟨hl.trans h.1, h.2⟩

/-- An address below the bound is not listed. -/
theorem Memory.read_below {lo a : Nat} {m : Memory} (h : Memory.wfFrom lo m = true) (ha : a < lo) :
    m.read a = unlistedByte := by
  induction m generalizing lo with
  | nil => rfl
  | cons c m ih =>
    obtain ⟨b, v⟩ := c
    rw [Memory.wfFrom_cons] at h
    simp only [Memory.read]
    rw [if_neg (by omega)]
    exact ih h.2.2.2 (by omega)

/-- A write leaves every other address alone. -/
theorem Memory.read_write_of_ne {m : Memory} {a b : Nat} (v : Byte) (h : b ≠ a) :
    (m.write a v).read b = m.read b := by
  induction m with
  | nil => by_cases hv : v = unlistedByte <;> simp [Memory.write, Memory.read, hv, h]
  | cons c m ih =>
    obtain ⟨d, w⟩ := c
    simp only [Memory.write]
    split_ifs <;> simp_all [Memory.read]

/-- A read gives the byte last written there. -/
theorem Memory.read_write_same {lo : Nat} {m : Memory} (hm : Memory.wfFrom lo m = true) (a : Nat) (v : Byte) :
    (m.write a v).read a = v := by
  induction m generalizing lo with
  | nil => by_cases hv : v = unlistedByte <;> simp [Memory.write, Memory.read, hv]
  | cons c m ih =>
    obtain ⟨d, w⟩ := c
    rw [Memory.wfFrom_cons] at hm
    simp only [Memory.write]
    split_ifs with h1 h2 h3 h4
    · subst h2
      simp only [Memory.read]
      rw [if_neg (by omega), Memory.read_below hm.2.2.2 (by omega)]
    · simp [Memory.read]
    · subst h3 h4
      exact Memory.read_below hm.2.2.2 (by omega)
    · simp [Memory.read]
    · simp only [Memory.read]
      rw [if_neg h3]
      exact ih hm.2.2.2

theorem Memory.write_wfFrom {lo a : Nat} {m : Memory} (v : Byte) (hm : Memory.wfFrom lo m = true) (hl : lo ≤ a)
    (ha : a < 2 ^ 32) : Memory.wfFrom lo (m.write a v) = true := by
  induction m generalizing lo with
  | nil =>
    simp only [Memory.write]
    split_ifs with h
    · rfl
    · rw [Memory.wfFrom_cons]; exact ⟨hl, ha, h, rfl⟩
  | cons c m ih =>
    obtain ⟨d, w⟩ := c
    have hm' := hm
    rw [Memory.wfFrom_cons] at hm
    obtain ⟨h1, h2, h3, h4⟩ := hm
    simp only [Memory.write]
    split_ifs with g1 g2 g3 g4
    · exact hm'
    · rw [Memory.wfFrom_cons, Memory.wfFrom_cons]
      exact ⟨hl, ha, g2, by omega, h2, h3, h4⟩
    · exact Memory.wfFrom_mono h4 (by omega)
    · rw [Memory.wfFrom_cons]
      subst g3
      exact ⟨hl, ha, g4, h4⟩
    · rw [Memory.wfFrom_cons]
      exact ⟨h1, h2, h3, ih h4 (by omega)⟩

/-- Every store at a 32-bit address keeps the canonical form. -/
theorem Memory.write_wf {m : Memory} (hm : m.wf = true) (a : Word) (v : Byte) : (m.write a.toNat v).wf = true :=
  Memory.write_wfFrom v hm (Nat.zero_le _) a.isLt

/-- Two canonical memories that read alike are the same list. -/
theorem Memory.ext_of_wfFrom {lo : Nat} {m n : Memory} (hm : Memory.wfFrom lo m = true) (hn : Memory.wfFrom lo n = true)
    (h : ∀ a, m.read a = n.read a) : m = n := by
  induction m generalizing lo n with
  | nil =>
    cases n with
    | nil => rfl
    | cons c n =>
      obtain ⟨d, w⟩ := c
      rw [Memory.wfFrom_cons] at hn
      exact absurd (h d).symm (by simpa [Memory.read] using hn.2.2.1)
  | cons c m ih =>
    obtain ⟨d, w⟩ := c
    rw [Memory.wfFrom_cons] at hm
    cases n with
    | nil => exact absurd (h d) (by simpa [Memory.read] using hm.2.2.1)
    | cons c n =>
      obtain ⟨e, x⟩ := c
      rw [Memory.wfFrom_cons] at hn
      have hde : d = e := by
        rcases Nat.lt_trichotomy d e with g | g | g
        · have := h d
          simp only [Memory.read] at this
          rw [if_pos trivial, if_neg (by omega), Memory.read_below hn.2.2.2 (by omega)] at this
          exact absurd this hm.2.2.1
        · exact g
        · have := h e
          simp only [Memory.read] at this
          rw [if_pos trivial, if_neg (by omega), Memory.read_below hm.2.2.2 (by omega)] at this
          exact absurd this.symm hn.2.2.1
      subst hde
      have hwx : w = x := by simpa [Memory.read] using h d
      subst hwx
      congr 1
      refine ih hm.2.2.2 hn.2.2.2 fun a => ?_
      have := h a
      simp only [Memory.read] at this
      split_ifs at this with g
      · subst g
        rw [Memory.read_below hm.2.2.2 (by omega), Memory.read_below hn.2.2.2 (by omega)]
      · exact this

theorem Memory.ext_of_wf {m n : Memory} (hm : m.wf = true) (hn : n.wf = true) (h : ∀ a, m.read a = n.read a) : m = n :=
  Memory.ext_of_wfFrom hm hn h

end Sys2Proof.Machine
end

