-- ==== Sys2Proof/Laws/Sequencer.lean ====
section
/-! SUPPORT. What one tick of the sequencer leaves alone, and what its wait steps do. -/

namespace Sys2Proof.Machine

/-- Entering a wait step either records it and counts, or, with no tick to wait, does what follows it at once. -/
theorem State.enterWait_cases (s : State) (n : Count) (q : Seq) (done : State → State) :
    (n = 0 ∧ s.enterWait n q done = done (s.delay 0)) ∨
    (n ≠ 0 ∧ s.enterWait n q done = { s.delay n.toNat with seq := q, dlyCnt := n }) := by
  unfold State.enterWait
  by_cases h : n = 0
  · exact .inl ⟨h, if_pos h⟩
  · exact .inr ⟨h, if_neg h⟩

/-- A tick of a wait step either leaves it or counts down. -/
theorem State.waitTick_cases (s : State) (done : State → State) :
    (s.dlyCnt = 1 ∧ s.waitTick done = done s) ∨
    (s.dlyCnt ≠ 1 ∧ s.waitTick done = { s with dlyCnt := s.dlyCnt - 1 }) := by
  unfold State.waitTick
  by_cases h : s.dlyCnt = 1
  · exact .inl ⟨h, if_pos h⟩
  · exact .inr ⟨h, if_neg h⟩

/-- What every act but the end of a byte keeps, a tick keeps, unless it ends the byte: `f` may be any projection of the
state. -/
theorem seqTick_keeps_or_ends {α : Type} (f : State → α)
    (hSck : ∀ s v, f (State.pinWriteSck s v) = f s) (hMosi : ∀ s : State, f s.driveBit = f s)
    (hMiso : ∀ s : State, f s.sampleBit = f s) (hDelay : ∀ s n, f (State.delay s n) = f s)
    (hSeq : ∀ (s : State) q, f { s with seq := q } = f s) (hDly : ∀ (s : State) n, f { s with dlyCnt := n } = f s)
    (hBit : ∀ (s : State) n, f { s with bitCnt := n } = f s) (hLoad : ∀ s : State, f s.loadTick = f s)
    (hStore : ∀ s : State, f s.storeByte = f s) (s : State) :
    f (seqTick s) = f s ∨ ∃ t, f t = f s ∧ seqTick s = t.endByte := by
  have hw : ∀ (s : State) (n : Count) (q : Seq) (done : State → State), (∀ t, f (done t) = f t) →
      f (s.enterWait n q done) = f s := by
    intro s n q done hd
    rcases State.enterWait_cases s n q done with ⟨_, h⟩ | ⟨_, h⟩ <;> rw [h]
    · rw [hd, hDelay]
    · exact (hDly { s.delay n.toNat with seq := q } n).trans ((hSeq (s.delay n.toNat) q).trans (hDelay s _))
  have ht : ∀ (s : State) (done : State → State), (∀ t, f (done t) = f t) → f (s.waitTick done) = f s := by
    intro s done hd
    rcases State.waitTick_cases s done with ⟨_, h⟩ | ⟨_, h⟩ <;> rw [h]
    · exact hd s
    · exact hDly s _
  have hg : ∀ (s : State) q, f (s.goto q) = f s := hSeq
  have hb : ∀ s : State, f s.endBit = f s := by
    intro s
    unfold State.endBit
    split
    · exact hSeq s _
    · exact (hSeq { s with bitCnt := s.bitCnt + 1 } _).trans (hBit s _)
  unfold seqTick
  split
  · exact .inl rfl
  · exact .inl (hLoad s)
  · left; rw [hw _ _ _ _ (fun t => hg t _), hMosi]
  · left; rw [ht _ _ (fun t => hg t _)]
  · left; rw [hg, hMiso]
  · left; rw [hw _ _ _ _ (fun t => hg t _)]; exact hSck s _
  · left; rw [ht _ _ (fun t => hg t _)]
  · left; rw [hb]; exact hSck s _
  · left; rw [hg]; exact hSck s _
  · left; rw [hw _ _ _ _ (fun t => hg t _), hMosi]
  · left; rw [ht _ _ (fun t => hg t _)]
  · left; rw [hg]; exact hSck s _
  · left; rw [hw _ _ _ _ hb, hMiso]
  · left; rw [ht _ _ hb]
  · rcases State.enterWait_cases s.storeByte s.interbyteDelayCount .ibd State.endByte with ⟨_, h⟩ | ⟨_, h⟩ <;> rw [h]
    · exact .inr ⟨_, (hDelay _ _).trans (hStore s), rfl⟩
    · left
      exact (hDly { s.storeByte.delay s.interbyteDelayCount.toNat with seq := .ibd } _).trans
        ((hSeq (s.storeByte.delay s.interbyteDelayCount.toNat) _).trans ((hDelay _ _).trans (hStore s)))
  · rcases State.waitTick_cases s State.endByte with ⟨_, h⟩ | ⟨_, h⟩ <;> rw [h]
    · exact .inr ⟨s, rfl, rfl⟩
    · exact .inl (hDly s _)

/-- What every act of the sequencer keeps, every tick keeps. -/
theorem seqTick_keeps {α : Type} (f : State → α)
    (hSck : ∀ s v, f (State.pinWriteSck s v) = f s) (hMosi : ∀ s : State, f s.driveBit = f s)
    (hMiso : ∀ s : State, f s.sampleBit = f s) (hDelay : ∀ s n, f (State.delay s n) = f s)
    (hSeq : ∀ (s : State) q, f { s with seq := q } = f s) (hDly : ∀ (s : State) n, f { s with dlyCnt := n } = f s)
    (hBit : ∀ (s : State) n, f { s with bitCnt := n } = f s) (hLoad : ∀ s : State, f s.loadTick = f s)
    (hStore : ∀ s : State, f s.storeByte = f s) (hEnd : ∀ s : State, f s.endByte = f s) (s : State) :
    f (seqTick s) = f s := by
  rcases seqTick_keeps_or_ends f hSck hMosi hMiso hDelay hSeq hDly hBit hLoad hStore s with h | ⟨t, ht, h⟩
  · exact h
  · rw [h, hEnd, ht]

theorem responses_append (a b : List Event) : responses (a ++ b) = responses a ++ responses b := by
  simp [responses]

/-- A tick leaves the WRITE running and responds nothing, or, at the last byte, completes it (44 R111, R112). -/
theorem seqTick_completes (s : State) :
    ((seqTick s).lifecycle = s.lifecycle ∧ (seqTick s).rspValid = s.rspValid ∧ (seqTick s).lastStatus = s.lastStatus ∧
      responses (seqTick s).trace = responses s.trace) ∨
    ((seqTick s).lifecycle = .ready ∧ (seqTick s).rspValid = true ∧ (seqTick s).lastStatus = .ok ∧
      (seqTick s).seq = .idle ∧ s.byteIdx + 1 = s.len ∧ (seqTick s).trace.getLast? = some (.rsp .ok) ∧
      responses (seqTick s).trace = responses s.trace ++ [.ok]) := by
  have key := seqTick_keeps_or_ends
    (fun s => (s.lifecycle, s.rspValid, s.lastStatus, s.byteIdx, s.len, responses s.trace))
    (fun s v => by simp [responses]) (fun s => by simp [responses, State.driveBit])
    (fun s => by simp [responses, State.sampleBit]) (fun s n => by simp [responses]) (fun _ _ => rfl) (fun _ _ => rfl)
    (fun _ _ => rfl) (fun s => by simp [responses, State.loadTick]) (fun s => by simp [responses, State.storeByte]) s
  simp only [Prod.mk.injEq] at key
  rcases key with ⟨h1, h2, h3, _, _, h6⟩ | ⟨t, ⟨h1, h2, h3, h4, h5, h6⟩, h⟩
  · exact .inl ⟨h1, h2, h3, h6⟩
  · rw [h, State.endByte, ← h4, ← h5, ← h6]
    by_cases hl : t.byteIdx + 1 = t.len
    · rw [if_pos hl]
      exact .inr ⟨rfl, rfl, rfl, rfl, hl, by simp [State.completeWrite], by
        simp only [State.completeWrite, State.respond_trace, responses_append]
        rfl⟩
    · rw [if_neg hl]
      exact .inl ⟨h1, h2, h3, rfl⟩

/-- A tick completes a running WRITE exactly where its last byte ends: at the end of the inter-byte wait, or at STORE where there
is no wait (43 R94; 44 R110, R111, R112). -/
theorem seqTick_lifecycle_ready {s : State} (hb : s.lifecycle = .busy) :
    (seqTick s).lifecycle = .ready ↔ s.byteIdx + 1 = s.len ∧
      (s.seq = .ibd ∧ s.dlyCnt = 1 ∨ s.seq = .store ∧ s.interbyteDelayCount = 0) := by
  have he : ∀ t : State, t.lifecycle = .busy → (t.endByte.lifecycle = .ready ↔ t.byteIdx + 1 = t.len) := by
    intro t ht
    unfold State.endByte
    split
    · exact iff_of_true rfl ‹_›
    · exact iff_of_false (by simp [ht]) ‹_›
  have hbit : ∀ t : State, t.endBit.lifecycle = t.lifecycle := by
    intro t
    unfold State.endBit
    split <;> rfl
  unfold seqTick
  cases hq : s.seq <;>
    simp only [reduceCtorEq, false_and, or_self, and_false, iff_false, true_and, false_or, or_false]
  case store =>
    rcases State.enterWait_cases s.storeByte s.interbyteDelayCount .ibd State.endByte with ⟨h0, h⟩ | ⟨h0, h⟩ <;> rw [h]
    · exact (he (s.storeByte.delay 0) hb).trans (and_iff_left h0).symm
    · exact iff_of_false (by simp [hb, State.storeByte]) (fun e => h0 e.2)
  case ibd =>
    rcases State.waitTick_cases s State.endByte with ⟨h1, h⟩ | ⟨h1, h⟩ <;> rw [h]
    · exact (he _ hb).trans (and_iff_left h1).symm
    · exact iff_of_false (by simp [hb]) (fun e => h1 e.2)
  case b5 =>
    rcases State.enterWait_cases s.sampleBit s.halfPeriodWait .b6 State.endBit with ⟨_, h⟩ | ⟨_, h⟩ <;> rw [h]
    · simp [hbit, hb, State.sampleBit]
    · simp [hb, State.sampleBit]
  case b6 =>
    rcases State.waitTick_cases s State.endBit with ⟨_, h⟩ | ⟨_, h⟩ <;> rw [h] <;> simp [hbit, hb]
  case a1 | b2 | a4 =>
    simp only [State.enterWait]
    split <;> simp [hb, State.goto, State.driveBit, State.leadingEdge]
  case a2 | a5 | b3 =>
    simp only [State.waitTick]
    split <;> simp [hb, State.goto]
  all_goals simp [hb, hbit, State.goto, State.loadTick, State.sampleBit, State.leadingEdge, State.trailingEdge]

@[simp] theorem State.endByte_mode (s : State) : s.endByte.mode = s.mode := by
  unfold State.endByte; split <;> rfl

@[simp] theorem seqTick_mode (s : State) : (seqTick s).mode = s.mode := by
  apply seqTick_keeps (·.mode) <;> intros <;> first | rfl | exact State.endByte_mode _

@[simp] theorem State.endByte_modeValid (s : State) : s.endByte.modeValid = s.modeValid := by
  unfold State.endByte; split <;> rfl

@[simp] theorem seqTick_modeValid (s : State) : (seqTick s).modeValid = s.modeValid := by
  apply seqTick_keeps (·.modeValid) <;> intros <;> first | rfl | exact State.endByte_modeValid _

@[simp] theorem State.endByte_cpol (s : State) : s.endByte.cpol = s.cpol := by
  unfold State.endByte; split <;> rfl

@[simp] theorem seqTick_cpol (s : State) : (seqTick s).cpol = s.cpol := by
  apply seqTick_keeps (·.cpol) <;> intros <;> first | rfl | exact State.endByte_cpol _

@[simp] theorem State.endByte_frequency (s : State) : s.endByte.frequency = s.frequency := by
  unfold State.endByte; split <;> rfl

@[simp] theorem seqTick_frequency (s : State) : (seqTick s).frequency = s.frequency := by
  apply seqTick_keeps (·.frequency) <;> intros <;> first | rfl | exact State.endByte_frequency _

@[simp] theorem State.endByte_halfPeriodCount (s : State) : s.endByte.halfPeriodCount = s.halfPeriodCount := by
  unfold State.endByte; split <;> rfl

@[simp] theorem seqTick_halfPeriodCount (s : State) : (seqTick s).halfPeriodCount = s.halfPeriodCount := by
  apply seqTick_keeps (·.halfPeriodCount) <;> intros <;> first | rfl | exact State.endByte_halfPeriodCount _

@[simp] theorem State.endByte_interbyteDelayCount (s : State) : s.endByte.interbyteDelayCount = s.interbyteDelayCount := by
  unfold State.endByte; split <;> rfl

@[simp] theorem seqTick_interbyteDelayCount (s : State) : (seqTick s).interbyteDelayCount = s.interbyteDelayCount := by
  apply seqTick_keeps (·.interbyteDelayCount) <;> intros <;> first | rfl | exact State.endByte_interbyteDelayCount _

@[simp] theorem State.endByte_sckOe (s : State) : s.endByte.sckOe = s.sckOe := by
  unfold State.endByte; split <;> rfl

@[simp] theorem seqTick_sckOe (s : State) : (seqTick s).sckOe = s.sckOe := by
  apply seqTick_keeps (·.sckOe) <;> intros <;> first | rfl | exact State.endByte_sckOe _

@[simp] theorem State.endByte_mosiOe (s : State) : s.endByte.mosiOe = s.mosiOe := by
  unfold State.endByte; split <;> rfl

@[simp] theorem seqTick_mosiOe (s : State) : (seqTick s).mosiOe = s.mosiOe := by
  apply seqTick_keeps (·.mosiOe) <;> intros <;> first | rfl | exact State.endByte_mosiOe _

@[simp] theorem State.endByte_base (s : State) : s.endByte.base = s.base := by
  unfold State.endByte; split <;> rfl

@[simp] theorem seqTick_base (s : State) : (seqTick s).base = s.base := by
  apply seqTick_keeps (·.base) <;> intros <;> first | rfl | exact State.endByte_base _

@[simp] theorem State.endByte_len (s : State) : s.endByte.len = s.len := by
  unfold State.endByte; split <;> rfl

@[simp] theorem seqTick_len (s : State) : (seqTick s).len = s.len := by
  apply seqTick_keeps (·.len) <;> intros <;> first | rfl | exact State.endByte_len _

@[simp] theorem State.endByte_config (s : State) : s.endByte.config = s.config := by
  unfold State.endByte; split <;> rfl

@[simp] theorem seqTick_config (s : State) : (seqTick s).config = s.config := by
  apply seqTick_keeps (·.config) <;> intros <;> first | rfl | exact State.endByte_config _

@[simp] theorem State.endByte_hasReset (s : State) : s.endByte.hasReset = s.hasReset := by
  unfold State.endByte; split <;> rfl

@[simp] theorem seqTick_hasReset (s : State) : (seqTick s).hasReset = s.hasReset := by
  apply seqTick_keeps (·.hasReset) <;> intros <;> first | rfl | exact State.endByte_hasReset _

@[simp] theorem State.endByte_rstInput (s : State) : s.endByte.rstInput = s.rstInput := by
  unfold State.endByte; split <;> rfl

@[simp] theorem seqTick_rstInput (s : State) : (seqTick s).rstInput = s.rstInput := by
  apply seqTick_keeps (·.rstInput) <;> intros <;> first | rfl | exact State.endByte_rstInput _

@[simp] theorem State.endByte_hostInput (s : State) : s.endByte.hostInput = s.hostInput := by
  unfold State.endByte; split <;> rfl

@[simp] theorem seqTick_hostInput (s : State) : (seqTick s).hostInput = s.hostInput := by
  apply seqTick_keeps (·.hostInput) <;> intros <;> first | rfl | exact State.endByte_hostInput _

/-- A tick only appends to the trace. -/
theorem seqTick_trace (s : State) : ∃ es, (seqTick s).trace = s.trace ++ es := by
  have hw : ∀ (s : State) (n : Count) (q : Seq) (done : State → State), (∀ t, ∃ es, (done t).trace = t.trace ++ es) →
      ∃ es, (s.enterWait n q done).trace = s.trace ++ es := by
    intro s n q done hd
    rcases State.enterWait_cases s n q done with ⟨_, h⟩ | ⟨_, h⟩ <;> rw [h]
    · obtain ⟨es, he⟩ := hd (s.delay 0)
      exact ⟨[.wait 0] ++ es, by rw [he]; simp⟩
    · exact ⟨[.wait n.toNat], rfl⟩
  have ht : ∀ (s : State) (done : State → State), (∀ t, ∃ es, (done t).trace = t.trace ++ es) →
      ∃ es, (s.waitTick done).trace = s.trace ++ es := by
    intro s done hd
    rcases State.waitTick_cases s done with ⟨_, h⟩ | ⟨_, h⟩ <;> rw [h]
    · exact hd s
    · exact ⟨[], by simp⟩
  have hg : ∀ q (t : State), ∃ es, (t.goto q).trace = t.trace ++ es := fun q t => ⟨[], by simp⟩
  have hb : ∀ t : State, ∃ es, t.endBit.trace = t.trace ++ es := by
    intro t; refine ⟨[], ?_⟩; unfold State.endBit; split <;> simp
  have he : ∀ t : State, ∃ es, t.endByte.trace = t.trace ++ es := by
    intro t
    unfold State.endByte
    split
    · exact ⟨[.rsp .ok], rfl⟩
    · exact ⟨[], by simp⟩
  unfold seqTick
  split
  · exact ⟨[], by simp⟩
  · exact ⟨_, rfl⟩
  · obtain ⟨es, h⟩ := hw s.driveBit s.halfPeriodWait .a2 _ (hg .a3)
    exact ⟨[.mosiW s.txShift.msb] ++ es, by rw [h]; simp [State.driveBit]⟩
  · exact ht s _ (hg .a3)
  · exact ⟨_, rfl⟩
  · obtain ⟨es, h⟩ := hw s.leadingEdge s.halfPeriodWait .a5 _ (hg .a6)
    exact ⟨[.sckW (!s.cpol)] ++ es, by rw [h]; simp [State.leadingEdge]⟩
  · exact ht s _ (hg .a6)
  · obtain ⟨es, h⟩ := hb s.trailingEdge
    exact ⟨[.sckW s.cpol] ++ es, by rw [h]; simp [State.trailingEdge]⟩
  · exact ⟨_, rfl⟩
  · obtain ⟨es, h⟩ := hw s.driveBit s.halfPeriodWait .b3 _ (hg .b4)
    exact ⟨[.mosiW s.txShift.msb] ++ es, by rw [h]; simp [State.driveBit]⟩
  · exact ht s _ (hg .b4)
  · exact ⟨_, rfl⟩
  · obtain ⟨es, h⟩ := hw s.sampleBit s.halfPeriodWait .b6 _ hb
    exact ⟨[.misoR s.misoLevel] ++ es, by rw [h]; simp [State.sampleBit]⟩
  · exact ht s _ hb
  · obtain ⟨es, h⟩ := hw s.storeByte s.interbyteDelayCount .ibd _ he
    exact ⟨[.memW s.flightAddress s.rxAcc] ++ es, by rw [h]; simp [State.storeByte]⟩
  · exact ht s _ he

/-- Only STORE changes the buffer memory. -/
theorem seqTick_mem (s : State) :
    (seqTick s).mem = if s.seq = .store then s.mem.write s.flightAddress.toNat s.rxAcc else s.mem := by
  have hw : ∀ (s : State) (n : Count) (q : Seq) (done : State → State), (∀ t, (done t).mem = t.mem) →
      (s.enterWait n q done).mem = s.mem := by
    intro s n q done hd
    rcases State.enterWait_cases s n q done with ⟨_, h⟩ | ⟨_, h⟩ <;> rw [h]
    · rw [hd]; rfl
    · rfl
  have ht : ∀ (s : State) (done : State → State), (∀ t, (done t).mem = t.mem) → (s.waitTick done).mem = s.mem := by
    intro s done hd
    rcases State.waitTick_cases s done with ⟨_, h⟩ | ⟨_, h⟩ <;> rw [h]
    exact hd s
  have hb : ∀ t : State, t.endBit.mem = t.mem := by intro t; unfold State.endBit; split <;> rfl
  have he : ∀ t : State, t.endByte.mem = t.mem := by intro t; unfold State.endByte; split <;> rfl
  unfold seqTick
  split <;> rename_i hq <;> simp only [hq, if_true, if_false, reduceCtorEq]
  · rfl
  · exact hw _ _ _ _ (fun _ => rfl)
  · exact ht _ _ (fun _ => rfl)
  · rfl
  · exact hw _ _ _ _ (fun _ => rfl)
  · exact ht _ _ (fun _ => rfl)
  · exact hb _
  · rfl
  · exact hw _ _ _ _ (fun _ => rfl)
  · exact ht _ _ (fun _ => rfl)
  · rfl
  · exact hw _ _ _ _ hb
  · exact ht _ _ hb
  · exact hw _ _ _ _ he
  · exact ht _ _ he

/-- With no input to come there is no reset (70 R140). -/
theorem noReset_of_no_input (k : Nat) {s : State} (hr : s.rstInput = []) (hh : s.hostInput = []) : NoReset k s := by
  have key : ∀ j (s t : State), s.rstInput = [] → s.hostInput = [] → RunsTo j s t →
      t.rstInput = [] ∧ t.hostInput = [] := by
    intro j
    induction j with
    | zero =>
      intro s t hr hh h
      rw [← runsTo_unique (runsTo_zero s) h]
      exact ⟨hr, hh⟩
    | succ j ih =>
      intro s t hr hh h
      obtain ⟨u, hs, hu⟩ := runsTo_succ_iff.mp h
      refine ih u t ?_ ?_ hu <;> rcases step_cases hs with ⟨h1, _⟩ | ⟨_, _, ⟨_, _, rfl⟩ | ⟨_, ⟨w, r, hi, _⟩ | ⟨a, v, r, hi, _⟩ | ⟨_, _, rfl⟩⟩⟩ <;>
        simp_all [State.rstAsserted, passTick]
  intro j t _ h
  obtain ⟨h1, h2⟩ := key j s t hr hh h
  simp [State.rstAsserted, h1, h2]

end Sys2Proof.Machine
end

