-- ==== Sys2Proof/Laws/Transfer.lean ====
section
/-! SUPPORT. What the bit, the byte and the buffer do at the transaction level, field by field (42 R81 to R93). -/

namespace Sys2Proof.Machine

/-! The levels still to be read -/

theorem State.misoAt_zero (s : State) : s.misoAt 0 = s.misoLevel := by
  unfold State.misoAt State.misoLevel
  cases s.misoInput <;> simp

theorem State.misoAt_congr {s t : State} (hm : t.misoInput = s.misoInput) (hd : t.draws = s.draws) (k : Nat) :
    t.misoAt k = s.misoAt k := by
  simp [State.misoAt, hm, hd]

theorem State.misoLevel_congr {s t : State} (hm : t.misoInput = s.misoInput) (hd : t.draws = s.draws) :
    t.misoLevel = s.misoLevel := by
  simp [State.misoLevel, hm, hd]

/-- A read uses up one level. -/
theorem State.misoAt_succ {s t : State} (hm : t.misoInput = s.misoInput.tail)
    (hd : t.draws = if s.misoInput = [] then s.draws + 1 else s.draws) (k : Nat) :
    t.misoAt k = s.misoAt (k + 1) := by
  unfold State.misoAt
  rw [hm, hd]
  cases h : s.misoInput with
  | nil => simp; congr 1; omega
  | cons v rest => simp

/-! One bit -/

/-- The six events of a bit (42 R81, R82). -/
def bitEvents (mode : BitVec 2) (cpol : Level) (h : Nat) (b r : Level) : List Event :=
  if driveFirst mode then [.mosiW b, .wait h, .misoR r, .sckW (!cpol), .wait h, .sckW cpol]
  else [.sckW (!cpol), .mosiW b, .wait h, .sckW cpol, .misoR r, .wait h]

/-- The state after a bit that sends `b`. -/
def afterBit (b : Level) (s : State) : State :=
  { s with
    sck       := s.cpol
    mosi      := some b
    misoInput := s.misoInput.tail
    draws     := if s.misoInput = [] then s.draws + 1 else s.draws
    trace     := s.trace ++ bitEvents s.mode s.cpol s.halfPeriodTicks b s.misoLevel }

theorem transferBit_eq (b : Level) (s : State) : transferBit b s = (s.misoLevel, afterBit b s) := by
  unfold transferBit
  split
  · rename_i h
    simp [transferBitDriveFirst, afterBit, bitEvents, h, State.misoLevel, State.pinWriteSck, State.pinWriteMosi,
      State.pinReadMiso, State.delay]
  · rename_i h
    simp [transferBitClockFirst, afterBit, bitEvents, h, State.misoLevel, State.pinWriteSck, State.pinWriteMosi,
      State.pinReadMiso, State.delay]

theorem afterBit_misoAt (b : Level) (s : State) (k : Nat) : (afterBit b s).misoAt k = s.misoAt (k + 1) :=
  State.misoAt_succ rfl rfl k

/-! Eight bits -/

/-- The state after the first bit of the loop of TransferByte (42 R84). -/
def afterLoopBit (s : State) : State :=
  { afterBit s.txShift.msb s with rxAcc := shiftIn s.rxAcc s.misoLevel, txShift := shiftOut s.txShift }

@[simp] theorem transferBits_zero (s : State) : transferBits 0 s = s := rfl

theorem transferBits_succ (n : Nat) (s : State) : transferBits (n + 1) s = transferBits n (afterLoopBit s) := by
  simp only [transferBits, transferBit_eq]; rfl

theorem afterLoopBit_misoAt (s : State) (k : Nat) : (afterLoopBit s).misoAt k = s.misoAt (k + 1) :=
  State.misoAt_succ rfl rfl k

/-- The bits still to be sent, most significant first, over `n` bits. -/
def sentBits : Nat → Byte → List Level
  | 0, _ => []
  | n + 1, t => t.msb :: sentBits n (shiftOut t)

theorem transferBits_rxAcc (n : Nat) (s : State) :
    (transferBits n s).rxAcc = ((List.range n).map s.misoAt).foldl shiftIn s.rxAcc := by
  induction n generalizing s with
  | zero => rfl
  | succ n ih =>
    rw [transferBits_succ, ih, List.range_succ_eq_map]
    simp only [List.map_cons, List.map_map, List.foldl_cons, State.misoAt_zero]
    congr 1
    exact List.map_congr_left fun k _ => afterLoopBit_misoAt s k

theorem transferBits_txShift (n : Nat) (s : State) : (transferBits n s).txShift = shiftOut^[n] s.txShift := by
  induction n generalizing s with
  | zero => rfl
  | succ n ih => rw [transferBits_succ, ih]; rfl

theorem transferBits_misoAt (n : Nat) (s : State) (k : Nat) : (transferBits n s).misoAt k = s.misoAt (k + n) := by
  induction n generalizing s with
  | zero => rfl
  | succ n ih => rw [transferBits_succ, ih, afterLoopBit_misoAt]; congr 1

/-- The events of `n` bits of the loop. -/
def loopEvents : Nat → State → List Event
  | 0, _ => []
  | n + 1, s =>
    bitEvents s.mode s.cpol s.halfPeriodTicks s.txShift.msb s.misoLevel ++ loopEvents n (afterLoopBit s)

theorem transferBits_trace (n : Nat) (s : State) : (transferBits n s).trace = s.trace ++ loopEvents n s := by
  induction n generalizing s with
  | zero => simp [loopEvents]
  | succ n ih => rw [transferBits_succ, ih]; simp [loopEvents, afterLoopBit, afterBit]

theorem transferBits_sck (n : Nat) (s : State) : (transferBits (n + 1) s).sck = s.cpol := by
  induction n generalizing s with
  | zero => rw [transferBits_succ]; rfl
  | succ n ih => rw [transferBits_succ, ih]; rfl

@[simp] theorem transferBits_lifecycle (n : Nat) (s : State) : (transferBits n s).lifecycle = s.lifecycle := by
  induction n generalizing s with
  | zero => rfl
  | succ n ih => rw [transferBits_succ, ih]; rfl

@[simp] theorem transferBits_mode (n : Nat) (s : State) : (transferBits n s).mode = s.mode := by
  induction n generalizing s with
  | zero => rfl
  | succ n ih => rw [transferBits_succ, ih]; rfl

@[simp] theorem transferBits_modeValid (n : Nat) (s : State) : (transferBits n s).modeValid = s.modeValid := by
  induction n generalizing s with
  | zero => rfl
  | succ n ih => rw [transferBits_succ, ih]; rfl

@[simp] theorem transferBits_cpol (n : Nat) (s : State) : (transferBits n s).cpol = s.cpol := by
  induction n generalizing s with
  | zero => rfl
  | succ n ih => rw [transferBits_succ, ih]; rfl

@[simp] theorem transferBits_frequency (n : Nat) (s : State) : (transferBits n s).frequency = s.frequency := by
  induction n generalizing s with
  | zero => rfl
  | succ n ih => rw [transferBits_succ, ih]; rfl

@[simp] theorem transferBits_halfPeriodCount (n : Nat) (s : State) : (transferBits n s).halfPeriodCount = s.halfPeriodCount := by
  induction n generalizing s with
  | zero => rfl
  | succ n ih => rw [transferBits_succ, ih]; rfl

@[simp] theorem transferBits_interbyteDelayCount (n : Nat) (s : State) : (transferBits n s).interbyteDelayCount = s.interbyteDelayCount := by
  induction n generalizing s with
  | zero => rfl
  | succ n ih => rw [transferBits_succ, ih]; rfl

@[simp] theorem transferBits_lastStatus (n : Nat) (s : State) : (transferBits n s).lastStatus = s.lastStatus := by
  induction n generalizing s with
  | zero => rfl
  | succ n ih => rw [transferBits_succ, ih]; rfl

@[simp] theorem transferBits_sckOe (n : Nat) (s : State) : (transferBits n s).sckOe = s.sckOe := by
  induction n generalizing s with
  | zero => rfl
  | succ n ih => rw [transferBits_succ, ih]; rfl

@[simp] theorem transferBits_mosiOe (n : Nat) (s : State) : (transferBits n s).mosiOe = s.mosiOe := by
  induction n generalizing s with
  | zero => rfl
  | succ n ih => rw [transferBits_succ, ih]; rfl

@[simp] theorem transferBits_base (n : Nat) (s : State) : (transferBits n s).base = s.base := by
  induction n generalizing s with
  | zero => rfl
  | succ n ih => rw [transferBits_succ, ih]; rfl

@[simp] theorem transferBits_len (n : Nat) (s : State) : (transferBits n s).len = s.len := by
  induction n generalizing s with
  | zero => rfl
  | succ n ih => rw [transferBits_succ, ih]; rfl

@[simp] theorem transferBits_byteIdx (n : Nat) (s : State) : (transferBits n s).byteIdx = s.byteIdx := by
  induction n generalizing s with
  | zero => rfl
  | succ n ih => rw [transferBits_succ, ih]; rfl

@[simp] theorem transferBits_bitCnt (n : Nat) (s : State) : (transferBits n s).bitCnt = s.bitCnt := by
  induction n generalizing s with
  | zero => rfl
  | succ n ih => rw [transferBits_succ, ih]; rfl

@[simp] theorem transferBits_seq (n : Nat) (s : State) : (transferBits n s).seq = s.seq := by
  induction n generalizing s with
  | zero => rfl
  | succ n ih => rw [transferBits_succ, ih]; rfl

@[simp] theorem transferBits_dlyCnt (n : Nat) (s : State) : (transferBits n s).dlyCnt = s.dlyCnt := by
  induction n generalizing s with
  | zero => rfl
  | succ n ih => rw [transferBits_succ, ih]; rfl

@[simp] theorem transferBits_rspValid (n : Nat) (s : State) : (transferBits n s).rspValid = s.rspValid := by
  induction n generalizing s with
  | zero => rfl
  | succ n ih => rw [transferBits_succ, ih]; rfl

@[simp] theorem transferBits_config (n : Nat) (s : State) : (transferBits n s).config = s.config := by
  induction n generalizing s with
  | zero => rfl
  | succ n ih => rw [transferBits_succ, ih]; rfl

@[simp] theorem transferBits_hasReset (n : Nat) (s : State) : (transferBits n s).hasReset = s.hasReset := by
  induction n generalizing s with
  | zero => rfl
  | succ n ih => rw [transferBits_succ, ih]; rfl

@[simp] theorem transferBits_rstInput (n : Nat) (s : State) : (transferBits n s).rstInput = s.rstInput := by
  induction n generalizing s with
  | zero => rfl
  | succ n ih => rw [transferBits_succ, ih]; rfl

@[simp] theorem transferBits_hostInput (n : Nat) (s : State) : (transferBits n s).hostInput = s.hostInput := by
  induction n generalizing s with
  | zero => rfl
  | succ n ih => rw [transferBits_succ, ih]; rfl

@[simp] theorem transferBits_mem (n : Nat) (s : State) : (transferBits n s).mem = s.mem := by
  induction n generalizing s with
  | zero => rfl
  | succ n ih => rw [transferBits_succ, ih]; rfl

/-! A byte and the buffer -/

theorem transferByte_fst (o : Byte) (s : State) : (transferByte o s).1 = byteOfBits ((List.range 8).map s.misoAt) :=
  transferBits_rxAcc 8 { s with txShift := o, rxAcc := 0 }

theorem transferByte_snd (o : Byte) (s : State) :
    (transferByte o s).2 = transferBits 8 { s with txShift := o, rxAcc := 0 } := rfl

/-- The byte received in the next eight reads. -/
def receivedByte (s : State) : Byte := byteOfBits ((List.range 8).map s.misoAt)

theorem transferAt_mem (a : Word) (s : State) : (transferAt a s).mem = s.mem.write a.toNat (receivedByte s) := by
  simp only [transferAt, State.delay_mem, State.memWrite_mem, transferByte_snd, transferBits_mem, State.memRead_mem,
    transferByte_fst]
  rfl

theorem transferAt_misoAt (a : Word) (s : State) (k : Nat) : (transferAt a s).misoAt k = s.misoAt (k + 8) := by
  have h : (transferAt a s).misoAt k = (transferBits 8 { s.memRead a with txShift := s.byteAt a, rxAcc := 0 }).misoAt k := by
    apply State.misoAt_congr <;>
      simp only [transferAt, State.delay_misoInput, State.delay_draws, State.memWrite_misoInput, State.memWrite_draws,
        transferByte_snd]
  rw [h, transferBits_misoAt]
  exact State.misoAt_congr rfl rfl _

theorem transferAt_sck (a : Word) (s : State) : (transferAt a s).sck = s.cpol := by
  simp only [transferAt, State.delay_sck, State.memWrite_sck, transferByte_snd, transferBits_sck, State.memRead_cpol]

@[simp] theorem transferAt_lifecycle (a : Word) (s : State) : (transferAt a s).lifecycle = s.lifecycle := by
  simp [transferAt, transferByte_snd]

@[simp] theorem transferAt_mode (a : Word) (s : State) : (transferAt a s).mode = s.mode := by
  simp [transferAt, transferByte_snd]

@[simp] theorem transferAt_modeValid (a : Word) (s : State) : (transferAt a s).modeValid = s.modeValid := by
  simp [transferAt, transferByte_snd]

@[simp] theorem transferAt_cpol (a : Word) (s : State) : (transferAt a s).cpol = s.cpol := by
  simp [transferAt, transferByte_snd]

@[simp] theorem transferAt_frequency (a : Word) (s : State) : (transferAt a s).frequency = s.frequency := by
  simp [transferAt, transferByte_snd]

@[simp] theorem transferAt_halfPeriodCount (a : Word) (s : State) : (transferAt a s).halfPeriodCount = s.halfPeriodCount := by
  simp [transferAt, transferByte_snd]

@[simp] theorem transferAt_interbyteDelayCount (a : Word) (s : State) : (transferAt a s).interbyteDelayCount = s.interbyteDelayCount := by
  simp [transferAt, transferByte_snd]

@[simp] theorem transferAt_lastStatus (a : Word) (s : State) : (transferAt a s).lastStatus = s.lastStatus := by
  simp [transferAt, transferByte_snd]

@[simp] theorem transferAt_sckOe (a : Word) (s : State) : (transferAt a s).sckOe = s.sckOe := by
  simp [transferAt, transferByte_snd]

@[simp] theorem transferAt_mosiOe (a : Word) (s : State) : (transferAt a s).mosiOe = s.mosiOe := by
  simp [transferAt, transferByte_snd]

@[simp] theorem transferAt_base (a : Word) (s : State) : (transferAt a s).base = s.base := by
  simp [transferAt, transferByte_snd]

@[simp] theorem transferAt_len (a : Word) (s : State) : (transferAt a s).len = s.len := by
  simp [transferAt, transferByte_snd]

@[simp] theorem transferAt_byteIdx (a : Word) (s : State) : (transferAt a s).byteIdx = s.byteIdx := by
  simp [transferAt, transferByte_snd]

@[simp] theorem transferAt_bitCnt (a : Word) (s : State) : (transferAt a s).bitCnt = s.bitCnt := by
  simp [transferAt, transferByte_snd]

@[simp] theorem transferAt_seq (a : Word) (s : State) : (transferAt a s).seq = s.seq := by
  simp [transferAt, transferByte_snd]

@[simp] theorem transferAt_dlyCnt (a : Word) (s : State) : (transferAt a s).dlyCnt = s.dlyCnt := by
  simp [transferAt, transferByte_snd]

@[simp] theorem transferAt_rspValid (a : Word) (s : State) : (transferAt a s).rspValid = s.rspValid := by
  simp [transferAt, transferByte_snd]

@[simp] theorem transferAt_config (a : Word) (s : State) : (transferAt a s).config = s.config := by
  simp [transferAt, transferByte_snd]

@[simp] theorem transferAt_hasReset (a : Word) (s : State) : (transferAt a s).hasReset = s.hasReset := by
  simp [transferAt, transferByte_snd]

@[simp] theorem transferAt_rstInput (a : Word) (s : State) : (transferAt a s).rstInput = s.rstInput := by
  simp [transferAt, transferByte_snd]

@[simp] theorem transferAt_hostInput (a : Word) (s : State) : (transferAt a s).hostInput = s.hostInput := by
  simp [transferAt, transferByte_snd]

@[simp] theorem transferBuffer_zero (a : Word) (s : State) : transferBuffer 0 a s = s := rfl

theorem transferBuffer_succ (n : Nat) (a : Word) (s : State) :
    transferBuffer (n + 1) a s = transferBuffer n (a + 1) (transferAt a s) := rfl

theorem transferBuffer_sck (n : Nat) (a : Word) (s : State) (h : s.sck = s.cpol) :
    (transferBuffer n a s).sck = s.cpol := by
  induction n generalizing a s with
  | zero => exact h
  | succ n ih => rw [transferBuffer_succ, ih _ _ (by simp [transferAt_sck]), transferAt_cpol]

@[simp] theorem transferBuffer_lifecycle (n : Nat) (a : Word) (s : State) : (transferBuffer n a s).lifecycle = s.lifecycle := by
  induction n generalizing a s with
  | zero => rfl
  | succ n ih => rw [transferBuffer_succ, ih, transferAt_lifecycle]

@[simp] theorem transferBuffer_mode (n : Nat) (a : Word) (s : State) : (transferBuffer n a s).mode = s.mode := by
  induction n generalizing a s with
  | zero => rfl
  | succ n ih => rw [transferBuffer_succ, ih, transferAt_mode]

@[simp] theorem transferBuffer_modeValid (n : Nat) (a : Word) (s : State) : (transferBuffer n a s).modeValid = s.modeValid := by
  induction n generalizing a s with
  | zero => rfl
  | succ n ih => rw [transferBuffer_succ, ih, transferAt_modeValid]

@[simp] theorem transferBuffer_cpol (n : Nat) (a : Word) (s : State) : (transferBuffer n a s).cpol = s.cpol := by
  induction n generalizing a s with
  | zero => rfl
  | succ n ih => rw [transferBuffer_succ, ih, transferAt_cpol]

@[simp] theorem transferBuffer_frequency (n : Nat) (a : Word) (s : State) : (transferBuffer n a s).frequency = s.frequency := by
  induction n generalizing a s with
  | zero => rfl
  | succ n ih => rw [transferBuffer_succ, ih, transferAt_frequency]

@[simp] theorem transferBuffer_halfPeriodCount (n : Nat) (a : Word) (s : State) : (transferBuffer n a s).halfPeriodCount = s.halfPeriodCount := by
  induction n generalizing a s with
  | zero => rfl
  | succ n ih => rw [transferBuffer_succ, ih, transferAt_halfPeriodCount]

@[simp] theorem transferBuffer_interbyteDelayCount (n : Nat) (a : Word) (s : State) : (transferBuffer n a s).interbyteDelayCount = s.interbyteDelayCount := by
  induction n generalizing a s with
  | zero => rfl
  | succ n ih => rw [transferBuffer_succ, ih, transferAt_interbyteDelayCount]

@[simp] theorem transferBuffer_lastStatus (n : Nat) (a : Word) (s : State) : (transferBuffer n a s).lastStatus = s.lastStatus := by
  induction n generalizing a s with
  | zero => rfl
  | succ n ih => rw [transferBuffer_succ, ih, transferAt_lastStatus]

@[simp] theorem transferBuffer_sckOe (n : Nat) (a : Word) (s : State) : (transferBuffer n a s).sckOe = s.sckOe := by
  induction n generalizing a s with
  | zero => rfl
  | succ n ih => rw [transferBuffer_succ, ih, transferAt_sckOe]

@[simp] theorem transferBuffer_mosiOe (n : Nat) (a : Word) (s : State) : (transferBuffer n a s).mosiOe = s.mosiOe := by
  induction n generalizing a s with
  | zero => rfl
  | succ n ih => rw [transferBuffer_succ, ih, transferAt_mosiOe]

@[simp] theorem transferBuffer_base (n : Nat) (a : Word) (s : State) : (transferBuffer n a s).base = s.base := by
  induction n generalizing a s with
  | zero => rfl
  | succ n ih => rw [transferBuffer_succ, ih, transferAt_base]

@[simp] theorem transferBuffer_len (n : Nat) (a : Word) (s : State) : (transferBuffer n a s).len = s.len := by
  induction n generalizing a s with
  | zero => rfl
  | succ n ih => rw [transferBuffer_succ, ih, transferAt_len]

@[simp] theorem transferBuffer_byteIdx (n : Nat) (a : Word) (s : State) : (transferBuffer n a s).byteIdx = s.byteIdx := by
  induction n generalizing a s with
  | zero => rfl
  | succ n ih => rw [transferBuffer_succ, ih, transferAt_byteIdx]

@[simp] theorem transferBuffer_bitCnt (n : Nat) (a : Word) (s : State) : (transferBuffer n a s).bitCnt = s.bitCnt := by
  induction n generalizing a s with
  | zero => rfl
  | succ n ih => rw [transferBuffer_succ, ih, transferAt_bitCnt]

@[simp] theorem transferBuffer_seq (n : Nat) (a : Word) (s : State) : (transferBuffer n a s).seq = s.seq := by
  induction n generalizing a s with
  | zero => rfl
  | succ n ih => rw [transferBuffer_succ, ih, transferAt_seq]

@[simp] theorem transferBuffer_dlyCnt (n : Nat) (a : Word) (s : State) : (transferBuffer n a s).dlyCnt = s.dlyCnt := by
  induction n generalizing a s with
  | zero => rfl
  | succ n ih => rw [transferBuffer_succ, ih, transferAt_dlyCnt]

@[simp] theorem transferBuffer_rspValid (n : Nat) (a : Word) (s : State) : (transferBuffer n a s).rspValid = s.rspValid := by
  induction n generalizing a s with
  | zero => rfl
  | succ n ih => rw [transferBuffer_succ, ih, transferAt_rspValid]

@[simp] theorem transferBuffer_config (n : Nat) (a : Word) (s : State) : (transferBuffer n a s).config = s.config := by
  induction n generalizing a s with
  | zero => rfl
  | succ n ih => rw [transferBuffer_succ, ih, transferAt_config]

@[simp] theorem transferBuffer_hasReset (n : Nat) (a : Word) (s : State) : (transferBuffer n a s).hasReset = s.hasReset := by
  induction n generalizing a s with
  | zero => rfl
  | succ n ih => rw [transferBuffer_succ, ih, transferAt_hasReset]

@[simp] theorem transferBuffer_rstInput (n : Nat) (a : Word) (s : State) : (transferBuffer n a s).rstInput = s.rstInput := by
  induction n generalizing a s with
  | zero => rfl
  | succ n ih => rw [transferBuffer_succ, ih, transferAt_rstInput]

@[simp] theorem transferBuffer_hostInput (n : Nat) (a : Word) (s : State) : (transferBuffer n a s).hostInput = s.hostInput := by
  induction n generalizing a s with
  | zero => rfl
  | succ n ih => rw [transferBuffer_succ, ih, transferAt_hostInput]

end Sys2Proof.Machine
end

