-- ==== Sys2Proof/Laws/Events.lean ====
section
/-! SUPPORT. The events of a bit, a byte and a buffer, what they carry, and the bytes a buffer holds afterwards. -/

namespace Sys2Proof.Machine

@[simp] theorem mosiLevels_append (a b : List Event) : mosiLevels (a ++ b) = mosiLevels a ++ mosiLevels b := by
  simp [mosiLevels]
@[simp] theorem misoLevels_append (a b : List Event) : misoLevels (a ++ b) = misoLevels a ++ misoLevels b := by
  simp [misoLevels]
@[simp] theorem sckLevels_append (a b : List Event) : sckLevels (a ++ b) = sckLevels a ++ sckLevels b := by
  simp [sckLevels]

theorem bitEvents_mosi (m c h b r) : mosiLevels (bitEvents m c h b r) = [b] := by unfold bitEvents; split <;> rfl

theorem bitEvents_miso (m c h b r) : misoLevels (bitEvents m c h b r) = [r] := by unfold bitEvents; split <;> rfl

theorem bitEvents_sck (m c h b r) : sckLevels (bitEvents m c h b r) = [!c, c] := by unfold bitEvents; split <;> rfl

theorem bitEvents_responses (m c h b r) : responses (bitEvents m c h b r) = [] := by unfold bitEvents; split <;> rfl

theorem bitEvents_length (m c h b r) : (bitEvents m c h b r).length = 6 := by unfold bitEvents; split <;> rfl

theorem loopEvents_mosi (n s) : mosiLevels (loopEvents n s) = sentBits n s.txShift := by
  induction n generalizing s with
  | zero => rfl
  | succ n ih => simp [loopEvents, sentBits, bitEvents_mosi, ih]; rfl

theorem loopEvents_miso (n s) : misoLevels (loopEvents n s) = (List.range n).map s.misoAt := by
  induction n generalizing s with
  | zero => rfl
  | succ n ih =>
    simp only [loopEvents, misoLevels_append, bitEvents_miso, ih, List.range_succ_eq_map, List.map_cons, List.map_map,
      State.misoAt_zero]
    simp; intro a _; exact afterLoopBit_misoAt s a

theorem loopEvents_sck (n s) : sckLevels (loopEvents n s) = (List.replicate n [!s.cpol, s.cpol]).flatten := by
  induction n generalizing s with
  | zero => rfl
  | succ n ih => simp [loopEvents, bitEvents_sck, ih, List.replicate_succ]; rfl

theorem loopEvents_responses (n s) : responses (loopEvents n s) = [] := by
  induction n generalizing s with
  | zero => rfl
  | succ n ih => simp [loopEvents, responses_append, bitEvents_responses, ih]

theorem loopEvents_length (n s) : (loopEvents n s).length = 6 * n := by
  induction n generalizing s with
  | zero => rfl
  | succ n ih => simp [loopEvents, bitEvents_length, ih]; omega

theorem loopEvents_no_memW (n s) : ∀ b x, Event.memW b x ∉ loopEvents n s := by
  induction n generalizing s with
  | zero => simp [loopEvents]
  | succ n ih =>
    intro b x
    simp [loopEvents, ih]
    unfold bitEvents; split <;> simp

theorem sentBits_eight : ∀ o : Byte, sentBits 8 o = bitsMsbFirst o := by decide

theorem byteOfBits_getLsbD : ∀ a b c d e f g h : Level, ∀ k < 8,
    (byteOfBits [a, b, c, d, e, f, g, h]).getLsbD (7 - k) = [a, b, c, d, e, f, g, h].getD k false := by decide

theorem byteOfBits_range_getLsbD (f : Nat → Level) (k : Nat) (hk : k < 8) :
    (byteOfBits ((List.range 8).map f)).getLsbD (7-k) = f k := by
  have := byteOfBits_getLsbD (f 0) (f 1) (f 2) (f 3) (f 4) (f 5) (f 6) (f 7) k hk
  have h2 : (List.range 8).map f = [f 0, f 1, f 2, f 3, f 4, f 5, f 6, f 7] := rfl
  rw [h2, this]
  interval_cases k <;> rfl

theorem transferBits_mosi (n s) : (transferBits (n + 1) s).mosi = some ((shiftOut^[n] s.txShift).msb) := by
  induction n generalizing s with
  | zero => rw [transferBits_succ]; rfl
  | succ n ih => rw [transferBits_succ, ih]; rfl

/-- The 51 events of a byte of the buffer (42 R92). -/
def byteEvents (a : Word) (s : State) : List Event :=
  [.memR a (s.byteAt a)] ++ loopEvents 8 { s.memRead a with txShift := s.byteAt a, rxAcc := 0 } ++
    [.memW a (receivedByte s), .wait s.interbyteTicks]

theorem transferAt_trace (a s) : (transferAt a s).trace = s.trace ++ byteEvents a s := by
  simp [transferAt, transferByte_snd, transferBits_trace, byteEvents, transferByte_fst, State.interbyteTicks]
  rfl

/-- The events of `n` bytes of the buffer. -/
def bufferEvents : Nat → Word → State → List Event
 | 0, _, _ => []
 | n + 1, a, s => byteEvents a s ++ bufferEvents n (a + 1) (transferAt a s)

theorem transferBuffer_trace (n a s) : (transferBuffer n a s).trace = s.trace ++ bufferEvents n a s := by
  induction n generalizing a s with
  | zero => simp [bufferEvents]
  | succ n ih => rw [transferBuffer_succ, ih, transferAt_trace]; simp [bufferEvents]

theorem byteEvents_length (a s) : (byteEvents a s).length = 51 := by simp [byteEvents, loopEvents_length]

theorem byteEvents_mosi (a s) : mosiLevels (byteEvents a s) = bitsMsbFirst (s.byteAt a) := by
  simp only [byteEvents, mosiLevels_append, loopEvents_mosi, sentBits_eight]; simp [mosiLevels]

theorem byteEvents_sck (a s) : sckLevels (byteEvents a s) = (List.replicate 8 [!s.cpol, s.cpol]).flatten := by
  simp only [byteEvents, sckLevels_append, loopEvents_sck]; simp [sckLevels]

theorem byteEvents_miso (a s) : misoLevels (byteEvents a s) = (List.range 8).map s.misoAt := by
  simp only [byteEvents, misoLevels_append, loopEvents_miso]
  simp [misoLevels]
  intro k _
  exact State.misoAt_congr rfl rfl _

theorem byteEvents_responses (a s) : responses (byteEvents a s) = [] := by
  simp only [byteEvents, responses_append, loopEvents_responses]; simp [responses]

theorem bufferEvents_length (n a s) : (bufferEvents n a s).length = 51 * n := by
  induction n generalizing a s with
  | zero => rfl
  | succ n ih => simp [bufferEvents, byteEvents_length, ih]; omega

theorem bufferEvents_counts (n a s) :
    (sckLevels (bufferEvents n a s)).length = 16 * n ∧ (mosiLevels (bufferEvents n a s)).length = 8 * n ∧
      (misoLevels (bufferEvents n a s)).length = 8 * n ∧ responses (bufferEvents n a s) = [] := by
  induction n generalizing a s with
  | zero => simp [bufferEvents, sckLevels, mosiLevels, misoLevels, responses]
  | succ n ih =>
    obtain ⟨h1,h2,h3,h4⟩ := ih (a + 1) (transferAt a s)
    refine ⟨?_,?_,?_,?_⟩
    · rw [bufferEvents, sckLevels_append, List.length_append, h1, byteEvents_sck]; simp; omega
    · rw [bufferEvents, mosiLevels_append, List.length_append, h2, byteEvents_mosi]; simp [bitsMsbFirst]; omega
    · rw [bufferEvents, misoLevels_append, List.length_append, h3, byteEvents_miso]; simp; omega
    · rw [bufferEvents, responses_append, h4, byteEvents_responses]; rfl

theorem toNat_add_of_fits {a : Word} {n i : Nat} (h : a.toNat + n ≤ 2 ^ 32) (hi : i < n) :
    (a + BitVec.ofNat 32 i).toNat = a.toNat + i := by
  rw [BitVec.toNat_add, BitVec.toNat_ofNat, Nat.mod_eq_of_lt (a := i) (by omega), Nat.mod_eq_of_lt]; omega

theorem transferAt_byteAt_other (a b : Word) (s) (h : b ≠ a) : (transferAt a s).byteAt b = s.byteAt b := by
  simp only [State.byteAt, transferAt_mem]
  exact Memory.read_write_of_ne _ (fun e => h (BitVec.eq_of_toNat_eq e))

theorem transferBuffer_wf (n a s) (h : s.mem.wf = true) : (transferBuffer n a s).mem.wf = true := by
  induction n generalizing a s with
  | zero => exact h
  | succ n ih => rw [transferBuffer_succ]; exact ih _ _ (by rw [transferAt_mem]; exact Memory.write_wf h _ _)

theorem toNat_succ_of_fits {a : Word} {n : Nat} (h : a.toNat + (n + 1) ≤ 2 ^ 32) (hn : 0 < n) :
    (a + 1).toNat = a.toNat + 1 := by
  have := toNat_add_of_fits (i := 1) h (by omega)
  simpa using this

theorem transferBuffer_byteAt_outside (n : Nat) (a : Word) (s) (h : a.toNat + n ≤ 2 ^ 32) (b : Word)
    (hb : b.toNat < a.toNat ∨ a.toNat + n ≤ b.toNat) :
   (transferBuffer n a s).byteAt b = s.byteAt b := by
  induction n generalizing a s with
  | zero => rfl
  | succ n ih =>
    rw [transferBuffer_succ]
    rcases Nat.eq_zero_or_pos n with rfl | hn
    · exact transferAt_byteAt_other a b s (by rintro rfl; omega)
    · rw [ih (a + 1) _ (by rw [toNat_succ_of_fits h hn]; omega) (by rw [toNat_succ_of_fits h hn]; omega)]
      exact transferAt_byteAt_other a b s (by rintro rfl; omega)

theorem add_ofNat_succ (a : Word) (i : Nat) : a + BitVec.ofNat 32 (i + 1) = a + 1 + BitVec.ofNat 32 i := by
  apply BitVec.eq_of_toNat_eq; simp [BitVec.toNat_add]; omega

theorem transferBuffer_byteAt_inside (n : Nat) (a : Word) (s) (h : a.toNat + n ≤ 2 ^ 32) (hw : s.mem.wf = true)
    (i : Nat) (hi : i < n) :
    (transferBuffer n a s).byteAt (a + BitVec.ofNat 32 i) =
      byteOfBits ((List.range 8).map fun k => s.misoAt (8 * i + k)) := by
  induction n generalizing a s i with
  | zero => omega
  | succ n ih =>
    rw [transferBuffer_succ]
    have hw' : (transferAt a s).mem.wf = true := by rw [transferAt_mem]; exact Memory.write_wf hw _ _
    cases i with
    | zero =>
      have hs : (transferAt a s).byteAt a = byteOfBits ((List.range 8).map fun k => s.misoAt (8 * 0 + k)) := by
        simp only [State.byteAt, transferAt_mem]
        rw [Memory.read_write_same hw]; simp [receivedByte]
      rcases Nat.eq_zero_or_pos n with rfl | hn
      · simpa using hs
      · rw [show a + BitVec.ofNat 32 0 = a by simp]
        rw [transferBuffer_byteAt_outside _ _ _ (by rw [toNat_succ_of_fits h hn]; omega) _
          (by rw [toNat_succ_of_fits h hn]; omega)]
        exact hs
    | succ i =>
      rw [add_ofNat_succ, ih (a + 1) _ (by rw [toNat_succ_of_fits h (by omega)]; omega) hw' i (by omega)]
      congr 1
      apply List.map_congr_left; intro k _
      rw [transferAt_misoAt]; congr 1; omega

theorem bufferEvents_mosi (n : Nat) (a : Word) (s) (h : a.toNat + n ≤ 2 ^ 32) :
    mosiLevels (bufferEvents n a s) =
      (List.range n).flatMap fun i => bitsMsbFirst (s.byteAt (a + BitVec.ofNat 32 i)) := by
  induction n generalizing a s with
  | zero => rfl
  | succ n ih =>
    simp only [bufferEvents, mosiLevels_append, byteEvents_mosi, List.range_succ_eq_map, List.flatMap_cons,
      List.flatMap_map]
    congr 1
    · simp
    · rcases Nat.eq_zero_or_pos n with rfl | hn
      · rfl
      rw [ih (a + 1) _ (by rw [toNat_succ_of_fits h hn]; omega)]
      apply List.flatMap_congr; intro i hi
      simp at hi
      have h1 := toNat_succ_of_fits h hn
      have h2 := toNat_add_of_fits (a := a+1) (n := n) (i := i) (by omega) hi
      rw [Nat.succ_eq_add_one, add_ofNat_succ, transferAt_byteAt_other]
      intro e; rw [e] at h2; omega

theorem memoryAccesses_append (a b : List Event) : memoryAccesses (a ++ b) = memoryAccesses a ++ memoryAccesses b := by
  simp [memoryAccesses]

/-- The bits of a byte do not touch the buffer memory. -/
theorem loopEvents_memoryAccesses (n : Nat) (s : State) : memoryAccesses (loopEvents n s) = [] := by
  induction n generalizing s with
  | zero => rfl
  | succ n ih =>
    rw [loopEvents, memoryAccesses_append, ih]
    unfold bitEvents
    split <;> rfl

theorem byteEvents_memoryAccesses (a : Word) (s : State) :
    memoryAccesses (byteEvents a s) = [(false, a), (true, a)] := by
  rw [byteEvents, memoryAccesses_append, memoryAccesses_append, loopEvents_memoryAccesses]
  rfl

/-- The accesses of a buffer: a read and then a write of each byte, upward (20 R50). -/
theorem bufferEvents_memoryAccesses (n : Nat) (a : Word) (s : State) :
    memoryAccesses (bufferEvents n a s) =
      (List.range n).flatMap fun i => [(false, a + BitVec.ofNat 32 i), (true, a + BitVec.ofNat 32 i)] := by
  induction n generalizing a s with
  | zero => rfl
  | succ n ih =>
    rw [bufferEvents, memoryAccesses_append, byteEvents_memoryAccesses, ih, List.range_succ_eq_map, List.flatMap_cons,
      List.flatMap_map]
    simp only [Nat.succ_eq_add_one, add_ofNat_succ]
    simp

end Sys2Proof.Machine
end

