-- ==== Sys2Proof/Laws/PerInstr.lean ====
section
/-! SUPPORT. Per-instruction facts about the encodings (30 R56, R58, R59). -/

namespace Sys2Proof

/-- The `op` of each row of the opcode map, in the order of its table (30 R59, R60). -/
def opNumber : Instr → Nat
  | .setfreq _ => 0x1
  | .setmode _ => 0x2
  | .setdelay _ => 0x3
  | .write _ _ => 0x4
  | .destroy => 0x5
  | .reserved0 => 0x0
  | .reserved6 => 0x6
  | .reserved7 => 0x7
  | .reserved8 => 0x8
  | .reserved9 => 0x9
  | .reservedA => 0xA
  | .reservedB => 0xB
  | .reservedC => 0xC
  | .reservedD => 0xD
  | .reservedE => 0xE
  | .reservedF => 0xF

/-- The word the encoder writes for `i` has the row's `op`, and every bit the row does not read is 0 (30 R58, R59). -/
def Laws.Encoding.Statement (i : Instr) : Prop :=
  (opField (encode i)).toNat = opNumber i ∧ encode i &&& bitsRead i = encode i

theorem Laws.Encoding.fields (op : BitVec 4) (a b : Word) (ma mb : Word) (ha : a &&& ma = a) (hb : b &&& mb = b) :
    (opField (packFields op a b)).toNat = op.toNat ∧
      packFields op a b &&& packFields 0xF#4 ma mb = packFields op a b := by
  refine ⟨by rw [opField_packFields], ?_⟩
  rw [packFields_and, ha, hb]
  congr 1
  exact BitVec.and_allOnes (x := op)

theorem Laws.Encoding.setfreq (hz : Word) : Laws.Encoding.Statement (.setfreq hz) :=
  Laws.Encoding.fields 0x1#4 hz 0 _ _ BitVec.and_allOnes rfl

theorem Laws.Encoding.setmode (m : Word) : Laws.Encoding.Statement (.setmode m) :=
  Laws.Encoding.fields 0x2#4 m 0 _ _ BitVec.and_allOnes rfl

theorem Laws.Encoding.setdelay (us : Word) : Laws.Encoding.Statement (.setdelay us) :=
  Laws.Encoding.fields 0x3#4 us 0 _ _ BitVec.and_allOnes rfl

theorem Laws.Encoding.write (base len : Word) : Laws.Encoding.Statement (.write base len) :=
  Laws.Encoding.fields 0x4#4 base len _ _ BitVec.and_allOnes BitVec.and_allOnes

theorem Laws.Encoding.destroy : Laws.Encoding.Statement (.destroy) :=
  Laws.Encoding.fields 0x5#4 0 0 _ _ rfl rfl

theorem Laws.Encoding.reserved0 : Laws.Encoding.Statement (.reserved0) :=
  Laws.Encoding.fields 0x0#4 0 0 _ _ rfl rfl

theorem Laws.Encoding.reserved6 : Laws.Encoding.Statement (.reserved6) :=
  Laws.Encoding.fields 0x6#4 0 0 _ _ rfl rfl

theorem Laws.Encoding.reserved7 : Laws.Encoding.Statement (.reserved7) :=
  Laws.Encoding.fields 0x7#4 0 0 _ _ rfl rfl

theorem Laws.Encoding.reserved8 : Laws.Encoding.Statement (.reserved8) :=
  Laws.Encoding.fields 0x8#4 0 0 _ _ rfl rfl

theorem Laws.Encoding.reserved9 : Laws.Encoding.Statement (.reserved9) :=
  Laws.Encoding.fields 0x9#4 0 0 _ _ rfl rfl

theorem Laws.Encoding.reservedA : Laws.Encoding.Statement (.reservedA) :=
  Laws.Encoding.fields 0xA#4 0 0 _ _ rfl rfl

theorem Laws.Encoding.reservedB : Laws.Encoding.Statement (.reservedB) :=
  Laws.Encoding.fields 0xB#4 0 0 _ _ rfl rfl

theorem Laws.Encoding.reservedC : Laws.Encoding.Statement (.reservedC) :=
  Laws.Encoding.fields 0xC#4 0 0 _ _ rfl rfl

theorem Laws.Encoding.reservedD : Laws.Encoding.Statement (.reservedD) :=
  Laws.Encoding.fields 0xD#4 0 0 _ _ rfl rfl

theorem Laws.Encoding.reservedE : Laws.Encoding.Statement (.reservedE) :=
  Laws.Encoding.fields 0xE#4 0 0 _ _ rfl rfl

theorem Laws.Encoding.reservedF : Laws.Encoding.Statement (.reservedF) :=
  Laws.Encoding.fields 0xF#4 0 0 _ _ rfl rfl

end Sys2Proof
end

