-- ==== Sys2Proof/Laws/Refinement.lean ====
section
/-! SUPPORT. The ticks of a WRITE carry out the bit, the byte and the buffer of the transaction level (44 R114). -/

namespace Sys2Proof.Machine

/-- `s` in a tick with these inputs still to come and no response presented. -/
def State.timed (s : State) (rst : List Level) (host : List HostMove) : State :=
  { s with rstInput := rst, hostInput := host, rspValid := false }

/-- Whatever the inputs, `k` ticks without a reset lead from `s` to `f` of `t`, and the block is BUSY in each of them. -/
def Reaches (k : Nat) (s : State) (f : State → State) (t : State) : Prop :=
  ∀ rst host, NoReset k (s.timed rst host) → ∃ rst' host', BusyRun k (s.timed rst host) (f (t.timed rst' host'))

theorem Reaches.refl (s : State) : Reaches 0 s id s := fun rst host _ => ⟨rst, host, busyRun_zero _⟩

theorem Reaches.trans {j k : Nat} {s t u : State} {f : State → State} (h1 : Reaches j s id t) (h2 : Reaches k t f u) :
    Reaches (j + k) s f u := by
  intro rst host hn
  obtain ⟨r, h, b1⟩ := h1 rst host (hn.mono (Nat.le_add_right j k))
  obtain ⟨r', h', b2⟩ := h2 r h (hn.later b1.1)
  exact ⟨r', h', b1.trans b2⟩

/-- A follow-up that does not look at the inputs is part of the state reached. -/
theorem Reaches.apply {k : Nat} {s t : State} {f : State → State} (h : Reaches k s f t)
    (hf : ∀ rst host, f (t.timed rst host) = (f t).timed rst host) : Reaches k s id (f t) := by
  intro rst host hn
  obtain ⟨r, m, b⟩ := h rst host hn
  exact ⟨r, m, by rw [hf] at b; exact b⟩

theorem reaches_tick {s t : State} {f : State → State} (h0 : s.hasReset = true) (hb : s.lifecycle = .busy)
    (hq : s.seq ≠ .idle) (h : ∀ rst host, seqTick (s.timed rst host) = f (t.timed rst host)) : Reaches 1 s f t := by
  intro rst host hn
  have hr : (s.timed rst host).rstAsserted = false := NoReset.now (k := 0) hn
  refine ⟨rst.tail, passTick host, ?_⟩
  rw [← h]
  exact busyRun_tick hr h0 hb hq

/-- A wait step that has `n + 1` ticks left. -/
theorem reaches_wait (n : Nat) {s : State} (f : State → State) (h0 : s.hasReset = true) (hb : s.lifecycle = .busy)
    (hq : s.seq ≠ .idle) (hd : s.dlyCnt.toNat = n + 1) (h : ∀ t : State, t.seq = s.seq → seqTick t = t.waitTick f) :
    Reaches (n + 1) s f { s with dlyCnt := 1 } := by
  induction n generalizing s with
  | zero =>
    have h1 : s.dlyCnt = 1 := BitVec.eq_of_toNat_eq (by simp [hd])
    apply reaches_tick h0 hb hq
    intro rst host
    rw [h (s.timed rst host) rfl, State.waitTick, if_pos (show (s.timed rst host).dlyCnt = 1 from h1), ← h1]
  | succ n ih =>
    have h1 : s.dlyCnt ≠ 1 := by intro e; rw [e] at hd; simp at hd
    have h2 : (s.dlyCnt - 1).toNat = n + 1 := by
      rw [BitVec.toNat_sub]
      have := s.dlyCnt.isLt
      simp
      omega
    rw [Nat.add_comm (n + 1) 1]
    refine Reaches.trans (t := { s with dlyCnt := s.dlyCnt - 1 }) ?_
      (ih (s := { s with dlyCnt := s.dlyCnt - 1 }) h0 hb hq h2 h)
    apply reaches_tick h0 hb hq
    intro rst host
    rw [h (s.timed rst host) rfl, State.waitTick, if_neg (show ¬ (s.timed rst host).dlyCnt = 1 from h1)]
    rfl

/-- An act step that enters a wait step of `n` ticks: one tick, and the wait. -/
theorem reaches_enterWait {s t : State} {n : Count} {q : Seq} (f : State → State) (h0 : s.hasReset = true)
    (hb : s.lifecycle = .busy) (hq : s.seq ≠ .idle) (ht0 : t.hasReset = true) (htb : t.lifecycle = .busy)
    (hqq : q ≠ .idle) (h : ∀ rst host, seqTick (s.timed rst host) = (t.timed rst host).enterWait n q f)
    (hw : ∀ u : State, u.seq = q → seqTick u = u.waitTick f) :
    ∃ q' d, Reaches (1 + n.toNat) s f { t.delay n.toNat with seq := q', dlyCnt := d } := by
  by_cases hn : n = 0
  · subst hn
    refine ⟨t.seq, t.dlyCnt, ?_⟩
    apply reaches_tick h0 hb hq
    intro rst host
    rw [h, State.enterWait, if_pos rfl]
    rfl
  · refine ⟨q, 1, ?_⟩
    have hm : n.toNat ≠ 0 := fun e => hn (BitVec.eq_of_toNat_eq e)
    obtain ⟨m, hm⟩ := Nat.exists_eq_succ_of_ne_zero hm
    refine Reaches.trans (t := { t.delay n.toNat with seq := q, dlyCnt := n }) ?_ ?_
    · apply reaches_tick h0 hb hq
      intro rst host
      rw [h, State.enterWait, if_neg hn]
      rfl
    · rw [hm]
      exact reaches_wait m (s := { t.delay (m + 1) with seq := q, dlyCnt := n }) f ht0 htb hqq hm hw

theorem State.endBit_timed (s : State) (rst : List Level) (host : List HostMove) :
    (s.timed rst host).endBit = s.endBit.timed rst host := by
  unfold State.endBit
  by_cases h : s.bitCnt = 7
  · rw [if_pos (show (s.timed rst host).bitCnt = 7 from h), if_pos h]; rfl
  · rw [if_neg (show ¬ (s.timed rst host).bitCnt = 7 from h), if_neg h]; rfl

theorem State.halfPeriodWait_toNat (s : State) : s.halfPeriodWait.toNat = s.halfPeriodTicks := by
  have := s.halfPeriodCount.isLt
  simp [State.halfPeriodWait, State.halfPeriodTicks]
  omega

/-- What a bit changes, in one update. -/
def State.inBit (s : State) (sck : Level) (mosi : Option Level) (miso : List Level × Nat) (trace : List Event)
    (shift : Byte × Byte) (q : Seq) (d : Count) : State :=
  { s with
    sck := sck, mosi := mosi, misoInput := miso.1, draws := miso.2, trace := trace
    txShift := shift.1, rxAcc := shift.2, seq := q, dlyCnt := d }

theorem inBit_endBit_seq (s : State) (sck mosi miso trace shift) (q q' : Seq) (d : Count) :
    (s.inBit sck mosi miso trace shift q d).endBit = (s.inBit sck mosi miso trace shift q' d).endBit := rfl

theorem afterLoopBit_inBit (s : State) (d : Count) :
    ({ afterLoopBit s with dlyCnt := d } : State) =
      s.inBit s.cpol (some s.txShift.msb)
        (s.misoInput.tail, if s.misoInput = [] then s.draws + 1 else s.draws)
        (s.trace ++ bitEvents s.mode s.cpol s.halfPeriodTicks s.txShift.msb s.misoLevel)
        (shiftOut s.txShift, shiftIn s.rxAcc s.misoLevel) s.seq d := rfl

section acts
variable (s : State) (sck : Level) (mosi : Option Level) (miso : List Level × Nat) (trace : List Event)
  (shift : Byte × Byte) (q : Seq) (d : Count) (rst : List Level) (host : List HostMove)

theorem driveBit_inBit : ((s.inBit sck mosi miso trace shift q d).timed rst host).driveBit =
    (s.inBit sck (some shift.1.msb) miso (trace ++ [.mosiW shift.1.msb]) (shiftOut shift.1, shift.2) q d).timed
      rst host := rfl

theorem sampleBit_inBit : ((s.inBit sck mosi (s.misoInput, s.draws) trace shift q d).timed rst host).sampleBit =
    (s.inBit sck mosi (s.misoInput.tail, if s.misoInput = [] then s.draws + 1 else s.draws)
      (trace ++ [.misoR s.misoLevel]) (shift.1, shiftIn shift.2 s.misoLevel) q d).timed rst host := rfl

theorem leadingEdge_inBit : ((s.inBit sck mosi miso trace shift q d).timed rst host).leadingEdge =
    (s.inBit (!s.cpol) mosi miso (trace ++ [.sckW (!s.cpol)]) shift q d).timed rst host := rfl

theorem trailingEdge_inBit : ((s.inBit sck mosi miso trace shift q d).timed rst host).trailingEdge =
    (s.inBit s.cpol mosi miso (trace ++ [.sckW s.cpol]) shift q d).timed rst host := rfl

end acts

variable {s : State}

theorem reaches_bit_enter {sck : Level} {mosi : Option Level} {miso : List Level × Nat} {trace : List Event}
    {shift : Byte × Byte} {q qn : Seq} {d : Count} {sck' : Level} {mosi' : Option Level} {miso' : List Level × Nat}
    {trace' : List Event} {shift' : Byte × Byte} (act f : State → State) (h0 : s.hasReset = true)
    (hb : s.lifecycle = .busy) (hq : q ≠ .idle) (hqq : qn ≠ .idle)
    (h : ∀ u : State, u.seq = q → seqTick u = (act u).enterWait u.halfPeriodWait qn f)
    (hact : ∀ rst host, act ((s.inBit sck mosi miso trace shift q d).timed rst host) =
      (s.inBit sck' mosi' miso' trace' shift' q d).timed rst host)
    (hw : ∀ u : State, u.seq = qn → seqTick u = u.waitTick f) :
    ∃ q'' d', Reaches (1 + s.halfPeriodTicks) (s.inBit sck mosi miso trace shift q d) f
      (s.inBit sck' mosi' miso' (trace' ++ [.wait s.halfPeriodTicks]) shift' q'' d') := by
  obtain ⟨q2, d2, r⟩ := reaches_enterWait (s := s.inBit sck mosi miso trace shift q d)
    (t := s.inBit sck' mosi' miso' trace' shift' q d) (n := s.halfPeriodWait) f h0 hb hq h0 hb hqq
    (fun rst host => by rw [h _ rfl, hact]; rfl) hw
  rw [s.halfPeriodWait_toNat] at r
  exact ⟨q2, d2, r⟩

theorem reaches_bit_act {sck : Level} {mosi : Option Level} {miso : List Level × Nat} {trace : List Event}
    {shift : Byte × Byte} {q : Seq} {d : Count} {sck' : Level} {mosi' : Option Level} {miso' : List Level × Nat}
    {trace' : List Event} {shift' : Byte × Byte} (act f : State → State) (h0 : s.hasReset = true)
    (hb : s.lifecycle = .busy) (hq : q ≠ .idle)
    (h : ∀ u : State, u.seq = q → seqTick u = f (act u))
    (hact : ∀ rst host, act ((s.inBit sck mosi miso trace shift q d).timed rst host) =
      (s.inBit sck' mosi' miso' trace' shift' q d).timed rst host) :
    Reaches 1 (s.inBit sck mosi miso trace shift q d) f (s.inBit sck' mosi' miso' trace' shift' q d) :=
  reaches_tick h0 hb hq (fun rst host => by rw [h _ rfl, hact])

theorem State.inBit_self (s : State) :
    s = s.inBit s.sck s.mosi (s.misoInput, s.draws) s.trace (s.txShift, s.rxAcc) s.seq s.dlyCnt := rfl

theorem Reaches.goto {k : Nat} {t : State} {q : Seq} (h : Reaches k s (fun t => t.goto q) t) :
    Reaches k s id (t.goto q) := h.apply (fun _ _ => rfl)

/-- One bit, from its first step to the step after it (44 R107 to R109). -/
theorem reaches_bit (h0 : s.hasReset = true) (hb : s.lifecycle = .busy) (hq : s.seq = firstBitStep s.mode) :
    ∃ d, Reaches (bitTicks s) s id ({ afterLoopBit s with dlyCnt := d } : State).endBit := by
  unfold bitTicks
  have hself := s.inBit_self
  by_cases hd : driveFirst s.mode = true
  · rw [hq, firstBitStep, if_pos hd] at hself
    obtain ⟨q1, d1, r1⟩ := reaches_bit_enter (s := s) (sck := s.sck) (mosi := s.mosi) (miso := (s.misoInput, s.draws))
      (trace := s.trace) (shift := (s.txShift, s.rxAcc)) (q := .a1) (qn := .a2) (d := s.dlyCnt)
      State.driveBit (fun t => t.goto .a3) h0 hb (by simp) (by simp)
      (fun u hu => by simp only [seqTick, hu]) (driveBit_inBit s _ _ _ _ _ _ _) (fun u hu => by simp only [seqTick, hu])
    have r2 := reaches_bit_act (s := s) (sck := s.sck) (mosi := some s.txShift.msb) (miso := (s.misoInput, s.draws))
      (trace := s.trace ++ [.mosiW s.txShift.msb] ++ [.wait s.halfPeriodTicks])
      (shift := (shiftOut s.txShift, s.rxAcc)) (q := .a3) (d := d1)
      State.sampleBit (fun t => t.goto .a4) h0 hb (by simp) (fun u hu => by simp only [seqTick, hu]) (sampleBit_inBit s _ _ _ _ _ _)
    obtain ⟨q3, d3, r3⟩ := reaches_bit_enter (s := s) (sck := s.sck) (mosi := some s.txShift.msb)
      (miso := (s.misoInput.tail, if s.misoInput = [] then s.draws + 1 else s.draws))
      (trace := s.trace ++ [.mosiW s.txShift.msb] ++ [.wait s.halfPeriodTicks] ++ [.misoR s.misoLevel])
      (shift := (shiftOut s.txShift, shiftIn s.rxAcc s.misoLevel)) (q := .a4) (qn := .a5) (d := d1)
      State.leadingEdge (fun t => t.goto .a6) h0 hb (by simp) (by simp)
      (fun u hu => by simp only [seqTick, hu]) (leadingEdge_inBit s _ _ _ _ _ _ _) (fun u hu => by simp only [seqTick, hu])
    have r4 := reaches_bit_act (s := s) (sck := !s.cpol) (mosi := some s.txShift.msb)
      (miso := (s.misoInput.tail, if s.misoInput = [] then s.draws + 1 else s.draws))
      (trace := s.trace ++ [.mosiW s.txShift.msb] ++ [.wait s.halfPeriodTicks] ++ [.misoR s.misoLevel] ++
        [.sckW (!s.cpol)] ++ [.wait s.halfPeriodTicks])
      (shift := (shiftOut s.txShift, shiftIn s.rxAcc s.misoLevel)) (q := .a6) (d := d3)
      State.trailingEdge State.endBit h0 hb (by simp) (fun u hu => by simp only [seqTick, hu]) (trailingEdge_inBit s _ _ _ _ _ _ _)
    have r := r1.goto.trans (r2.goto.trans (r3.goto.trans (r4.apply (State.endBit_timed _))))
    refine ⟨d3, ?_⟩
    rw [← hself] at r
    rw [afterLoopBit_inBit, inBit_endBit_seq _ _ _ _ _ _ s.seq .a6, show 4 + 2 * s.halfPeriodTicks =
      (1 + s.halfPeriodTicks) + (1 + ((1 + s.halfPeriodTicks) + 1)) by omega]
    simpa only [bitEvents, hd, if_true, List.append_assoc, List.cons_append, List.nil_append] using r
  · simp only [Bool.not_eq_true] at hd
    rw [hq, firstBitStep, hd] at hself
    have r0 := reaches_bit_act (s := s) (sck := s.sck) (mosi := s.mosi) (miso := (s.misoInput, s.draws))
      (trace := s.trace) (shift := (s.txShift, s.rxAcc)) (q := .b1) (d := s.dlyCnt)
      State.leadingEdge (fun t => t.goto .b2) h0 hb (by simp) (fun u hu => by simp only [seqTick, hu]) (leadingEdge_inBit s _ _ _ _ _ _ _)
    obtain ⟨q1, d1, r1⟩ := reaches_bit_enter (s := s) (sck := !s.cpol) (mosi := s.mosi) (miso := (s.misoInput, s.draws))
      (trace := s.trace ++ [.sckW (!s.cpol)]) (shift := (s.txShift, s.rxAcc)) (q := .b2) (qn := .b3) (d := s.dlyCnt)
      State.driveBit (fun t => t.goto .b4) h0 hb (by simp) (by simp)
      (fun u hu => by simp only [seqTick, hu]) (driveBit_inBit s _ _ _ _ _ _ _) (fun u hu => by simp only [seqTick, hu])
    have r2 := reaches_bit_act (s := s) (sck := !s.cpol) (mosi := some s.txShift.msb) (miso := (s.misoInput, s.draws))
      (trace := s.trace ++ [.sckW (!s.cpol)] ++ [.mosiW s.txShift.msb] ++ [.wait s.halfPeriodTicks])
      (shift := (shiftOut s.txShift, s.rxAcc)) (q := .b4) (d := d1)
      State.trailingEdge (fun t => t.goto .b5) h0 hb (by simp) (fun u hu => by simp only [seqTick, hu]) (trailingEdge_inBit s _ _ _ _ _ _ _)
    obtain ⟨q3, d3, r3⟩ := reaches_bit_enter (s := s) (sck := s.cpol) (mosi := some s.txShift.msb)
      (miso := (s.misoInput, s.draws))
      (trace := s.trace ++ [.sckW (!s.cpol)] ++ [.mosiW s.txShift.msb] ++ [.wait s.halfPeriodTicks] ++ [.sckW s.cpol])
      (shift := (shiftOut s.txShift, s.rxAcc)) (q := .b5) (qn := .b6) (d := d1)
      State.sampleBit State.endBit h0 hb (by simp) (by simp)
      (fun u hu => by simp only [seqTick, hu]) (sampleBit_inBit s _ _ _ _ _ _) (fun u hu => by simp only [seqTick, hu])
    have r := r0.goto.trans (r1.goto.trans (r2.goto.trans (r3.apply (State.endBit_timed _))))
    refine ⟨d3, ?_⟩
    have e : s = s.inBit s.sck s.mosi (s.misoInput, s.draws) s.trace (s.txShift, s.rxAcc) .b1 s.dlyCnt := hself
    rw [← e] at r
    rw [afterLoopBit_inBit, inBit_endBit_seq _ _ _ _ _ _ s.seq q3, show 4 + 2 * s.halfPeriodTicks =
      1 + ((1 + s.halfPeriodTicks) + (1 + (1 + s.halfPeriodTicks))) by omega]
    simpa only [bitEvents, hd, if_false, Bool.false_eq_true, List.append_assoc, List.cons_append, List.nil_append] using r

/-- The position of the sequencer, which the transaction level does not have. -/
def State.place (s : State) (q : Seq) (i : Word) (b : BitVec 3) (d : Count) : State :=
  { s with seq := q, byteIdx := i, bitCnt := b, dlyCnt := d }

theorem afterLoopBit_place (s : State) (q i b d) : afterLoopBit (s.place q i b d) = (afterLoopBit s).place q i b d := rfl

theorem transferBits_place (n : Nat) (s : State) (q i b d) :
    transferBits n (s.place q i b d) = (transferBits n s).place q i b d := by
  induction n generalizing s with
  | zero => rfl
  | succ n ih => rw [transferBits_succ, transferBits_succ, afterLoopBit_place, ih]

/-- The state TransferByte starts from (42 R84, R86). -/
def State.beginByte (s : State) (a : Word) : State := { s.memRead a with txShift := s.byteAt a, rxAcc := 0 }

theorem beginByte_place (a : Word) (s : State) (q i b d) :
    (s.place q i b d).beginByte a = (s.beginByte a).place q i b d := rfl

theorem transferAt_eq (a : Word) (s : State) :
    transferAt a s =
      ((transferBits 8 (s.beginByte a)).memWrite a (transferBits 8 (s.beginByte a)).rxAcc).delay s.interbyteTicks :=
  rfl

theorem transferAt_place (a : Word) (s : State) (q i b d) :
    transferAt a (s.place q i b d) = (transferAt a s).place q i b d := by
  rw [transferAt_eq, transferAt_eq, beginByte_place, transferBits_place]
  rfl

theorem transferBuffer_place (n : Nat) (a : Word) (s : State) (q i b d) :
    transferBuffer n a (s.place q i b d) = (transferBuffer n a s).place q i b d := by
  induction n generalizing a s with
  | zero => rfl
  | succ n ih => rw [transferBuffer_succ, transferBuffer_succ, transferAt_place, ih]

/-- The operands a WRITE at the tick level keeps, and the transaction level does not (90 C10). -/
def State.onBuffer (s : State) (base len : Word) : State := { s with base := base, len := len }

theorem transferBits_onBuffer (n : Nat) (s : State) (base len : Word) :
    transferBits n (s.onBuffer base len) = (transferBits n s).onBuffer base len := by
  induction n generalizing s with
  | zero => rfl
  | succ n ih =>
    rw [transferBits_succ, transferBits_succ, ← ih]
    rfl

theorem transferAt_onBuffer (a : Word) (s : State) (base len : Word) :
    transferAt a (s.onBuffer base len) = (transferAt a s).onBuffer base len := by
  rw [transferAt_eq, transferAt_eq, show (s.onBuffer base len).beginByte a = (s.beginByte a).onBuffer base len from rfl,
    transferBits_onBuffer]
  rfl

theorem transferBuffer_onBuffer (n : Nat) (a : Word) (s : State) (base len : Word) :
    transferBuffer n a (s.onBuffer base len) = (transferBuffer n a s).onBuffer base len := by
  induction n generalizing a s with
  | zero => rfl
  | succ n ih => rw [transferBuffer_succ, transferBuffer_succ, transferAt_onBuffer, ih]

/-- The bits of a byte that are left, to STORE. -/
theorem reaches_bits (n : Nat) (h0 : s.hasReset = true) (hb : s.lifecycle = .busy) (hq : s.seq = firstBitStep s.mode)
    (hn : s.bitCnt.toNat + n = 7) :
    ∃ d, Reaches ((n + 1) * bitTicks s) s id ((transferBits (n + 1) s).place .store s.byteIdx 7 d) := by
  induction n generalizing s with
  | zero =>
    obtain ⟨d, r⟩ := reaches_bit h0 hb hq
    have h7 : s.bitCnt = 7 := BitVec.eq_of_toNat_eq (by simpa using hn)
    refine ⟨d, ?_⟩
    rw [State.endBit, if_pos (show ({ afterLoopBit s with dlyCnt := d } : State).bitCnt = 7 from h7)] at r
    rw [Nat.zero_add, Nat.one_mul, transferBits_succ, transferBits_zero, ← h7]
    exact r
  | succ n ih =>
    obtain ⟨d, r⟩ := reaches_bit h0 hb hq
    have h7 : s.bitCnt ≠ 7 := by
      intro e
      rw [e] at hn
      simp at hn
    rw [State.endBit, if_neg (show ¬ ({ afterLoopBit s with dlyCnt := d } : State).bitCnt = 7 from h7)] at r
    have hb1 : (s.bitCnt + 1).toNat + n = 7 := by
      rw [BitVec.toNat_add]
      have := s.bitCnt.isLt
      simp
      omega
    obtain ⟨d', r'⟩ := ih (s := (afterLoopBit s).place (firstBitStep s.mode) s.byteIdx (s.bitCnt + 1) d) h0 hb rfl hb1
    refine ⟨d', ?_⟩
    rw [transferBits_place] at r'
    rw [transferBits_succ, show (n + 1 + 1) * bitTicks s = bitTicks s + (n + 1) * bitTicks s by ring]
    exact r.trans r'

/-- STORE and the inter-byte wait, to the end of the byte (44 R110). -/
theorem reaches_store (h0 : s.hasReset = true) (hb : s.lifecycle = .busy) (hq : s.seq = .store) :
    ∃ q d, Reaches (1 + s.interbyteTicks) s State.endByte
      (((s.memWrite s.flightAddress s.rxAcc).delay s.interbyteTicks).place q s.byteIdx s.bitCnt d) := by
  obtain ⟨q, d, r⟩ := reaches_enterWait (t := s.memWrite s.flightAddress s.rxAcc) (n := s.interbyteDelayCount)
    (q := .ibd) State.endByte h0 hb (by simp [hq]) h0 hb (by simp)
    (fun rst host => by simp only [seqTick, show (s.timed rst host).seq = .store from hq]; rfl)
    (fun u hu => by simp only [seqTick, hu])
  exact ⟨q, d, r⟩

/-- LOAD (44 R106). -/
theorem reaches_load (h0 : s.hasReset = true) (hb : s.lifecycle = .busy) (hq : s.seq = .load) :
    Reaches 1 s id ((s.beginByte s.flightAddress).place (firstBitStep s.mode) s.byteIdx 0 s.dlyCnt) :=
  reaches_tick h0 hb (by simp [hq]) (fun rst host => by
    simp only [seqTick, show (s.timed rst host).seq = .load from hq]
    rfl)

theorem place_place (s : State) (q q' i i' b b' d d') : (s.place q i b d).place q' i' b' d' = s.place q' i' b' d' := rfl

theorem store_place (s : State) (q i b d) (a : Word) (v : Byte) (n : Nat) (q' i' b' d') :
    (((s.place q i b d).memWrite a v).delay n).place q' i' b' d' = ((s.memWrite a v).delay n).place q' i' b' d' := rfl

/-- One byte, from LOAD to the end of the byte (44 R106 to R111). -/
theorem reaches_byte (h0 : s.hasReset = true) (hb : s.lifecycle = .busy) (hq : s.seq = .load) :
    ∃ q d, Reaches (byteTicks s) s State.endByte ((transferAt s.flightAddress s).place q s.byteIdx 7 d) := by
  have r1 := reaches_load h0 hb hq
  obtain ⟨d2, r2⟩ := reaches_bits 7 (s := (s.beginByte s.flightAddress).place (firstBitStep s.mode) s.byteIdx 0 s.dlyCnt)
    h0 hb rfl rfl
  rw [transferBits_place, place_place] at r2
  have e0 := transferBits_hasReset 8 (s.beginByte s.flightAddress)
  have e1 := transferBits_lifecycle 8 (s.beginByte s.flightAddress)
  have e2 := transferBits_base 8 (s.beginByte s.flightAddress)
  have e3 := transferBits_interbyteDelayCount 8 (s.beginByte s.flightAddress)
  rw [transferAt_eq]
  replace r2 : Reaches (8 * bitTicks s) ((s.beginByte s.flightAddress).place (firstBitStep s.mode) s.byteIdx 0 s.dlyCnt) id
    ((transferBits 8 (s.beginByte s.flightAddress)).place .store s.byteIdx 7 d2) := r2
  generalize transferBits 8 (s.beginByte s.flightAddress) = u at *
  obtain ⟨q3, d3, r3⟩ := reaches_store (s := u.place .store s.byteIdx 7 d2) (e0.trans h0) (e1.trans hb) rfl
  have ea : (u.place .store s.byteIdx 7 d2).flightAddress = s.flightAddress := congrArg (· + s.byteIdx) e2
  have ed : (u.place .store s.byteIdx 7 d2).interbyteTicks = s.interbyteTicks := congrArg BitVec.toNat e3
  rw [ea, ed, store_place] at r3
  refine ⟨q3, d3, ?_⟩
  rw [show byteTicks s = 1 + (8 * bitTicks s + (1 + s.interbyteTicks)) by unfold byteTicks bitTicks; ring]
  exact r1.trans (r2.trans r3)

theorem State.endByte_last {s : State} (h : s.byteIdx + 1 = s.len) : s.endByte = s.completeWrite := if_pos h

theorem State.endByte_more {s : State} (h : s.byteIdx + 1 ≠ s.len) :
    s.endByte = s.place .load (s.byteIdx + 1) s.bitCnt s.dlyCnt := if_neg h

/-- The bytes of a buffer that are left, to the completion (44 R106 to R112). -/
theorem reaches_buffer (n : Nat) (h0 : s.hasReset = true) (hb : s.lifecycle = .busy) (hq : s.seq = .load)
    (hn : s.byteIdx.toNat + (n + 1) = s.len.toNat) :
    ∃ i b d, Reaches ((n + 1) * byteTicks s) s State.completeWrite
      ((transferBuffer (n + 1) s.flightAddress s).place .idle i b d) := by
  induction n generalizing s with
  | zero =>
    obtain ⟨q, d, r⟩ := reaches_byte h0 hb hq
    refine ⟨s.byteIdx, 7, d, ?_⟩
    rw [Nat.zero_add, Nat.one_mul, transferBuffer_succ, transferBuffer_zero]
    have el := transferAt_len s.flightAddress s
    generalize transferAt s.flightAddress s = u at *
    intro rst host hr
    obtain ⟨r', h', br⟩ := r rst host hr
    refine ⟨r', h', ?_⟩
    rw [State.endByte_last (s := (u.place q s.byteIdx 7 d).timed r' h')
      (BitVec.eq_of_toNat_eq (by
        show (s.byteIdx + 1).toNat = u.len.toNat
        rw [el, ← hn, BitVec.toNat_add]
        have := s.len.isLt
        simp
        omega))] at br
    exact br
  | succ n ih =>
    obtain ⟨q, d, r⟩ := reaches_byte h0 hb hq
    have el := transferAt_len s.flightAddress s
    have e0 := transferAt_hasReset s.flightAddress s
    have e1 := transferAt_lifecycle s.flightAddress s
    have e2 := transferAt_base s.flightAddress s
    have e3 : byteTicks (transferAt s.flightAddress s) = byteTicks s := by
      simp only [byteTicks, State.halfPeriodTicks, State.interbyteTicks, transferAt_halfPeriodCount,
        transferAt_interbyteDelayCount]
    have hlt := s.len.isLt
    have hi : (s.byteIdx + 1).toNat = s.byteIdx.toNat + 1 := by
      rw [BitVec.toNat_add]
      simp
      omega
    rw [transferBuffer_succ]
    generalize transferAt s.flightAddress s = u at *
    have hne : ∀ r h, ((u.place q s.byteIdx 7 d).timed r h).byteIdx + 1 ≠ ((u.place q s.byteIdx 7 d).timed r h).len := by
      intro r h e
      have := congrArg BitVec.toNat (show s.byteIdx + 1 = u.len from e)
      rw [hi, el] at this
      omega
    obtain ⟨i, b, d', r'⟩ := ih (s := u.place .load (s.byteIdx + 1) 7 d) (e0.trans h0) (e1.trans hb) rfl
      (by show (s.byteIdx + 1).toNat + (n + 1) = u.len.toNat
          rw [hi, el]
          omega)
    have ea : (u.place .load (s.byteIdx + 1) 7 d).flightAddress = s.flightAddress + 1 := by
      show u.base + (s.byteIdx + 1) = s.base + s.byteIdx + 1
      rw [e2, BitVec.add_assoc]
    have eb : byteTicks (u.place .load (s.byteIdx + 1) 7 d) = byteTicks s := e3
    rw [ea, eb, transferBuffer_place, place_place] at r'
    refine ⟨i, b, d', ?_⟩
    rw [show (n + 1 + 1) * byteTicks s = byteTicks s + (n + 1) * byteTicks s by ring]
    refine Reaches.trans ?_ r'
    intro rst host hr
    obtain ⟨r1, h1, br⟩ := r rst host hr
    refine ⟨r1, h1, ?_⟩
    rw [State.endByte_more (hne r1 h1)] at br
    exact br

/-- A step does not look at the response presented. -/
theorem step_rspValid (s : State) (v : Bool) : step { s with rspValid := v } = step s := rfl

theorem runsTo_rspValid (k : Nat) (s u : State) (v : Bool) :
    RunsTo (k + 1) { s with rspValid := v } u ↔ RunsTo (k + 1) s u := by
  rw [runsTo_succ_iff, runsTo_succ_iff, step_rspValid]

/-- A run that `Reaches` gives, from the state itself. -/
theorem Reaches.run {k : Nat} {t : State} {f : State → State} (h : Reaches (k + 1) s f t)
    (hb : s.lifecycle = .busy) (hn : NoReset (k + 1) s) : ∃ rst host, BusyRun (k + 1) s (f (t.timed rst host)) := by
  have hn' : NoReset (k + 1) (s.timed s.rstInput s.hostInput) := by
    intro j u hj hu
    cases j with
    | zero =>
      rw [← runsTo_unique (runsTo_zero _) hu]
      exact hn 0 s hj rfl
    | succ j => exact hn (j + 1) u hj ((runsTo_rspValid j s u false).mp hu)
  obtain ⟨r, m, h1, h2⟩ := h s.rstInput s.hostInput hn'
  refine ⟨r, m, (runsTo_rspValid k s _ false).mp h1, fun j u hj hu => ?_⟩
  cases j with
  | zero =>
    rw [← runsTo_unique (runsTo_zero s) hu]
    exact hb
  | succ j => exact h2 (j + 1) u hj ((runsTo_rspValid j s u false).mpr hu)

/-- Until it has completed, a running WRITE responds nothing (30 R61, 60 R127). -/
theorem BusyRun.responses {k : Nat} {t : State} (h : BusyRun k s t) (hn : NoReset k s) {j : Nat} {u : State} (hj : j < k)
    (hu : RunsTo j s u) : responses u.trace = responses s.trace := by
  induction j generalizing u with
  | zero => rw [runsTo_unique (runsTo_zero s) hu]
  | succ j ih =>
    obtain ⟨v, hv, h1⟩ := runsTo_add.mp hu
    obtain ⟨u', hs, h2⟩ := runsTo_succ_iff.mp h1
    obtain rfl := runsTo_unique (runsTo_zero u') h2
    have hr := hn j v (by omega) hv
    rcases step_cases hs with ⟨hr', _⟩ | ⟨_, _, ⟨_, _, rfl⟩ | ⟨hb', _⟩⟩
    · simp [hr] at hr'
    · rcases seqTick_completes v.nextInputs with ⟨_, _, _, g⟩ | ⟨g, _⟩
      · rw [g]
        exact ih (u := v) (by omega) hv
      · have hub := h.2 (j + 1) _ hj hu
        rw [g] at hub
        simp at hub
    · exact absurd (h.2 j v (by omega) hv) hb'

end Sys2Proof.Machine
end

