-- ==== Sys2Proof/Tests/Slice0.lean ====
section
/-! SUPPORT. Tests on fixed values, taken from the spec's test vectors and encodings, and a witness for the hypotheses of every
obligation that has some. -/

namespace Sys2Proof.Tests

open Sys2Proof Sys2Proof.Machine

/-! ## The states the tests start from -/

/-- After a reset of a block with `LPS = 10_000_000` (the vectors' convention), with `MEM[0x100] = 0xA5`. -/
def start : State :=
  { State.reset with
    config := ⟨10000000, 1000, 0⟩, frequency := 1000, halfPeriodCount := 5000, interbyteDelayCount := 0
    mem := [(0x100, 0xA5)] }

/-- `start` after DESTROY. -/
def gone : State := { start with lifecycle := .released, sckOe := false, mosiOe := false }

/-- `start` after a SETMODE out of range. -/
def invalid : State := { start with modeValid := false }

/-- A block in mode `m` with the half-period count `h`, in the step `q` of the WRITE of one byte at 0x100. -/
def inFlight (m : BitVec 2) (h : Word) (q : Seq) : State :=
  { start with
    lifecycle := .busy, mode := m, cpol := cpolOf m, halfPeriodCount := h, base := 0x100, len := 1, seq := q
    sck := if q.clockActive then !cpolOf m else cpolOf m, dlyCnt := 1, txShift := 0xA5, rxAcc := 0x5A, trace := []
    misoInput := [true] }

/-- `start` with the bits of 0xA5 to come on MISO. -/
def looped : State :=
  { start with trace := [], misoInput := [true, false, true, false, false, true, false, true] }

/-- `start` with a DESTROY on the command port. -/
def destroying : State := { start with hostInput := [.cmd 0x50000000000000000#68, .idle] }

/-- The state a command ends in. -/
def after (i : Instr) (s : State) : Option State :=
  match exec i s with
  | .next t => some t
  | _       => none

/-- The state a tick ends in. -/
def tick (s : State) : Option State :=
  match step s with
  | .next t => some t
  | _       => none

/-! ## WellFormed refuses an ill-formed line, check by check (30 R62) -/

theorem test_wellFormed_setfreq : (AsmLine.setfreq 0x100000000).wellFormed = false := by decide
theorem test_wellFormed_setmode : (AsmLine.setmode 0x100000000).wellFormed = false := by decide
theorem test_wellFormed_setdelay : (AsmLine.setdelay 0x100000000).wellFormed = false := by decide
theorem test_wellFormed_write_base : (AsmLine.write 0x100000000 1).wellFormed = false := by decide
theorem test_wellFormed_write_len : (AsmLine.write 1 0x100000000).wellFormed = false := by decide
theorem test_wellFormed_cmd : (AsmLine.cmd 0x100000000000000000).wellFormed = false := by decide
theorem test_wellFormed_mem_address : (AsmLine.mem 0x100000000 1).wellFormed = false := by decide
theorem test_wellFormed_mem_value : (AsmLine.mem 1 0x100).wellFormed = false := by decide
theorem test_wellFormed_configure_mode : (AsmLine.configure 0x100000000 1 1).wellFormed = false := by decide
theorem test_wellFormed_configure_frequency : (AsmLine.configure 1 0x100000000 1).wellFormed = false := by decide
theorem test_wellFormed_configure_delay : (AsmLine.configure 1 1 0x100000000).wellFormed = false := by decide
theorem test_wellFormed_transfer_base : (AsmLine.transfer 0x100000000 1).wellFormed = false := by decide
theorem test_wellFormed_transfer_len : (AsmLine.transfer 1 0x100000000).wellFormed = false := by decide

theorem test_wellFormed_largest :
    [AsmLine.setfreq 0xFFFFFFFF, .setmode 4, .write 0xFFFFFFFF 0xFFFFFFFF, .destroy, .reset, .create,
      .cmd 0xFFFFFFFFFFFFFFFFF, .mem 0xFFFFFFFF 0xFF].all AsmLine.wellFormed = true := by decide

/-! ## Source text (30 R62, R63; the words are those of 30 R64) -/

theorem test_parse_write :
    parseLine "WRITE 0x100, 1   ; in-place, one byte".toList = some (.write 0x100 1) := by decide

theorem test_parse_mem : parseLine "MEM[0x100] = 0xA5".toList = some (.mem 0x100 0xA5) := by decide

theorem test_parse_cmd : parseLine ".cmd 0x9_00000000_00000000".toList = some (.cmd 0x90000000000000000) := by decide

theorem test_parse_out_of_range : parseLine "SETFREQ 0x100000000".toList = none := by decide

theorem test_assemble_setfreq : hostMoves [.setfreq 1000000] = [.cmd 0x1000F424000000000#68] := by decide

theorem test_assemble_configure :
    hostMoves [.configure 3 1000000 10] =
      [.cmd 0x20000000300000000#68, .cmd 0x1000F424000000000#68, .cmd 0x30000000A00000000#68] := by decide

/-! ## Decoding words written out from the encodings of 30 R56, R59 and R60: op, arg0, arg1 -/

theorem test_decode_setfreq :
    decode (0b0001 * 2 ^ 64 + 0b00000000000011110100001001000000 * 2 ^ 32 + 0b00000000000000000000000000000000) =
      .ok (.setfreq 1000000) := by decide

theorem test_decode_setmode :
    decode (0b0010 * 2 ^ 64 + 0b00000000000000000000000000000011 * 2 ^ 32 + 0b00000000000000000000000000000000) =
      .ok (.setmode 3) := by decide

theorem test_decode_setdelay :
    decode (0b0011 * 2 ^ 64 + 0b00000000000000000000000000001010 * 2 ^ 32 + 0b00000000000000000000000000000000) =
      .ok (.setdelay 10) := by decide

theorem test_decode_write :
    decode (0b0100 * 2 ^ 64 + 0b00000000000000000010000000000000 * 2 ^ 32 + 0b00000000000000000000000011111111) =
      .ok (.write 0x2000 255) := by decide

theorem test_decode_destroy : decode 0x50000000000000000 = .ok .destroy := by decide
theorem test_decode_reserved0 : decode 0x00000000000000000 = .ok .reserved0 := by decide
theorem test_decode_reserved6 : decode 0x60000000000000000 = .ok .reserved6 := by decide
theorem test_decode_reserved7 : decode 0x70000000000000000 = .ok .reserved7 := by decide
theorem test_decode_reserved8 : decode 0x80000000000000000 = .ok .reserved8 := by decide
theorem test_decode_reserved9 : decode 0x90000000000000000 = .ok .reserved9 := by decide
theorem test_decode_reservedA : decode 0xA0000000000000000 = .ok .reservedA := by decide
theorem test_decode_reservedB : decode 0xB0000000000000000 = .ok .reservedB := by decide
theorem test_decode_reservedC : decode 0xC0000000000000000 = .ok .reservedC := by decide
theorem test_decode_reservedD : decode 0xD0000000000000000 = .ok .reservedD := by decide
theorem test_decode_reservedE : decode 0xE0000000000000000 = .ok .reservedE := by decide
theorem test_decode_reservedF : decode 0xFFFFFFFFFFFFFFFFF = .ok .reservedF := by decide

/-- V24 -/
theorem test_decode_ignored_bits :
    decode 0x200000002DEADBEEF = .ok (.setmode 2) ∧ decode 0x5123456789ABCDEF0 = .ok .destroy := by decide

theorem test_decode_too_wide : decode 0x100000000000000000 = .error .widerThanCommandWord := by decide

theorem test_decodeTableWord : decodeTableWord 68 0x40000010000000001 = some (.write 0x100 1) := by decide

theorem test_withFetchWord :
    (tick (start.withFetchWord 68 0x20000000300000000)).map (fun t => (t.mode, t.trace)) =
      some (3, [.sckW true, .rsp .ok]) := by decide

/-! ## SETFREQ and SETDELAY (V10, V11, V12) -/

theorem test_setfreq_tie :
    (after (.setfreq 2000000) start).map (fun t => (t.frequency, t.halfPeriodCount)) = some (2000000, 3) := by decide

theorem test_setfreq_zero :
    (after (.setfreq 0) start).map (fun t => (t.frequency, t.halfPeriodCount)) = some (0, 1) := by decide

theorem test_setdelay_above_32_bits :
    (after (.setdelay 0xFFFFFFFF) start).map (fun t => t.interbyteDelayCount) = some 42949672950 := by decide

theorem test_setdelay_tie :
    (after (.setdelay 1) { start with config := ⟨1500000, 1000, 0⟩ }).map (fun t => t.interbyteDelayCount) =
      some 2 := by decide

theorem test_halfPeriod_largest : halfPeriod 4294967295 1 = 2147483648 := by decide
theorem test_interByte_largest : interByte 4294967295 4294967295 = 18446744065120 := by decide

/-! ## SETMODE (V13) and the modes (V14) -/

theorem test_setmode_three :
    (after (.setmode 3) start).map (fun t => (t.mode, t.cpol, t.modeValid, t.sck)) = some (3, true, true, true) := by
  decide

theorem test_setmode_four :
    (after (.setmode 4) { start with trace := [] }).map (fun t => (t.mode, t.cpol, t.modeValid, t.sck, t.trace)) =
      some (0, false, false, false, [.rsp .invalidMode]) := by decide

theorem test_cpha : [0#2, 1#2, 2#2, 3#2].map cphaOf = [true, false, true, false] := by decide

/-! ## WRITE (V15, V16, V18) -/

theorem test_write_past_the_end :
    (after (.write 0xFFFFFFFF 2) { start with trace := [] }).map (fun t => (t.lifecycle, t.trace)) =
      some (.ready, [.rsp .invalidArgument]) := by decide

theorem test_write_to_the_end :
    (after (.write 0xFFFFFFFF 1) start).map (fun t => (t.lifecycle, t.seq, t.base, t.len)) =
      some (.busy, .load, 0xFFFFFFFF, 1) := by decide

theorem test_bit_mode1 :
    let s : State := { start with mode := 1, halfPeriodCount := 5, trace := [], misoInput := [true] }
    ((transferBit false s).1, (transferBit false s).2.trace) =
      (true, [.sckW true, .mosiW false, .wait 5, .sckW false, .misoR true, .wait 5]) := by decide

theorem test_byte_first_read_is_bit_seven :
    (transferByte 0x3C { start with misoInput := [true, false, false, false, false, false, false, true] }).1 = 0x81 := by
  decide

/-! ## DESTROY (V22) and the reserved ops (V23) -/

theorem test_destroy :
    (after .destroy { start with trace := [] }).map (fun t => (t.lifecycle, t.sckOe, t.mosiOe, t.trace)) =
      some (.released, false, false, [.rel .sck, .rel .mosi, .rel .miso, .rsp .ok]) := by decide

theorem test_released_reserved_op :
    (after .reserved0 { gone with trace := [] }).map (fun t => t.trace) = some [.rsp .released] := by decide

theorem test_reserved_ops :
    ∀ i ∈ reservedCommands,
      (after i { start with trace := [] }).map (fun t => (t.trace, t.lastStatus)) =
        some ([.rsp .invalidArgument], .invalidArgument) := by decide

/-! ## One tick of a WRITE (V1, V17, P2) and of a reset (V21) -/

theorem test_tick_load :
    (tick (inFlight 0 5 .load)).map (fun t => (t.seq, t.txShift, t.rxAcc, t.trace)) =
      some (.a1, 0xA5, 0, [.memR 0x100 0xA5]) := by decide

theorem test_tick_clock_first :
    (tick (inFlight 3 3 .b1)).map (fun t => (t.seq, t.sck, t.mosi)) = some (.b2, false, none) := by decide

theorem test_tick_store :
    (tick (inFlight 0 5 .store)).map (fun t => (t.lifecycle, t.seq, t.mem, t.trace)) =
      some (.ready, .idle, [(0x100, 0x5A)], [.memW 0x100 0x5A, .wait 0, .rsp .ok]) := by decide

theorem test_tick_reset_aborts :
    (tick { inFlight 0 1 .store with rstInput := [true] }).map
        (fun t => (t.lifecycle, t.sck, t.mem, t.rspValid)) =
      some (.ready, false, [(0x100, 0xA5)], false) := by decide

/-! ## The state after reset (10 R36) -/

theorem test_reset_memory : State.reset.mem.wf = true := by decide

theorem test_reset_pins : (outputs State.reset).sck = some false ∧ (outputs State.reset).mosi = none := by decide

/-! ## The ports (10 R21, R37; 60 R121) -/

theorem test_lifecycle_codes : [Lifecycle.ready, .busy, .released].map Lifecycle.code = [0, 1, 2] := by decide

theorem test_status_codes :
    [Status.ok, .invalidMode, .invalidArgument, .released].map Status.code = [0, 1, 2, 3] := by decide

/-- After SETMODE 3 at `LPS = 10_000_000` (V13): every output of the observation port. -/
theorem test_observe_setmode_three :
    (after (.setmode 3) start).map observe =
      some ⟨0, 3, true, true, false, 1000, 5000, 0, 0, false⟩ := by decide

theorem test_observe_released :
    (after .reserved0 gone).map (fun t => ((observe t).lifecycle, (observe t).lastStatus, (outputs t).rspStatus)) =
      some (2, 3, some 3) := by decide

/-! ## Witnesses: encoding and calibration -/

theorem witness_SourceLineGivesItsCommand :
    (AsmLine.setfreq 0xFFFFFFFF).wellFormed = true ∧ (AsmLine.setmode 0xFFFFFFFF).wellFormed = true ∧
      (AsmLine.setdelay 0xFFFFFFFF).wellFormed = true ∧ (AsmLine.write 0xFFFFFFFF 0xFFFFFFFF).wellFormed = true ∧
      (AsmLine.cmd 0xFFFFFFFFFFFFFFFFF).wellFormed = true := by decide

theorem witness_HalfPeriodRoundsHalfUp :
    (1 ≤ 1 ∧ 1 < 2 ^ 32 ∧ 0 < 2 ^ 32) ∧ (1 ≤ 4294967295 ∧ 4294967295 < 2 ^ 32 ∧ 1 < 2 ^ 32 ∧ 1 ≠ 0) := by decide

theorem witness_InterByteRoundsHalfUp :
    (1 ≤ 1 ∧ 1 < 2 ^ 32 ∧ 0 < 2 ^ 32) ∧ (1 ≤ 4294967295 ∧ 4294967295 < 2 ^ 32) := by decide

theorem witness_CountsDependOnOperandAndLps :
    start.lifecycle = .ready ∧ invalid.lifecycle = .ready ∧ start.config.loopsPerSecond = invalid.config.loopsPerSecond ∧
      exec (.setfreq 3000000) start = .next (setfreqEffect 3000000 start) ∧
      exec (.setfreq 3000000) invalid = .next (setfreqEffect 3000000 invalid) ∧
      exec (.setfreq 3000000) (setfreqEffect 3000000 start) =
        .next (setfreqEffect 3000000 (setfreqEffect 3000000 start)) ∧
      exec (.setdelay 10) start = .next (setdelayEffect 10 start) ∧
      exec (.setdelay 10) invalid = .next (setdelayEffect 10 invalid) :=
  ⟨rfl, rfl, rfl, rfl, rfl, rfl, rfl, rfl⟩

/-! ## Witnesses: the commands -/

theorem witness_SetfreqStoresFrequencyAndCount : start.lifecycle = .ready := rfl
theorem witness_SetdelayStoresCount : start.lifecycle = .ready := rfl
theorem witness_DestroyReleasesTheLines : start.lifecycle = .ready := rfl

theorem witness_SetmodeSelectsOrRefuses :
    start.lifecycle = .ready ∧ (3 : Word).toNat ≤ 3 ∧ 3 < (4 : Word).toNat := by decide

theorem witness_SckIdlesAtCpolAfterSetmode :
    start.lifecycle = .ready ∧ start.sckOe = true ∧ (3 : Word).toNat ≤ 3 := by decide

theorem witness_ReservedOpsAnswerInvalidArgument :
    Instr.reserved0 ∈ reservedCommands ∧ Instr.reservedF ∈ reservedCommands ∧
      decodeWord 0x60000000000000000#68 ∈ reservedCommands ∧ decodeWord 0x50000000000000000#68 ∉ reservedCommands ∧
      start.lifecycle = .ready ∧ gone.lifecycle = .released := by decide

theorem witness_ReleasedAnswersReleased :
    gone.lifecycle = .released ∧ step gone = .next gone.nextInputs ∧ gone.rstAsserted = false := ⟨rfl, rfl, rfl⟩

theorem witness_WriteChecksInOrder :
    gone.lifecycle = .released ∧ (invalid.lifecycle = .ready ∧ invalid.modeValid = false) ∧
      (start.lifecycle = .ready ∧ start.modeValid = true ∧ 2 ^ 32 < (2 : Word).toNat + (0xFFFFFFFF : Word).toNat) := by
  decide

theorem witness_EmptyWriteOnlyResponds :
    (start.lifecycle = .ready ∧ start.modeValid = true) ∧ (invalid.lifecycle = .ready ∧ invalid.modeValid = false) := by
  decide

/-- A range one byte too long; a WRITE at the last address that accesses it; and below, the last byte of a buffer in flight. -/
theorem witness_WriteRangeNeverWraps :
    (start.lifecycle = .ready ∧ start.modeValid = true ∧ 2 ^ 32 < (2 : Word).toNat + (0xFFFFFFFF : Word).toNat) ∧
      (false, 0xFFFFFFFF) ∈ memoryAccesses (transact (.write 0xFFFFFFFF 1) looped).trace ∧
      (true, 0xFFFFFFFF) ∈ memoryAccesses (transact (.write 0xFFFFFFFF 1) looped).trace := by decide

theorem witness_WriteStartsTheSequencer :
    start.lifecycle = .ready ∧ start.modeValid = true ∧ (0xFFFFFFFF : Word).toNat + (1 : Word).toNat ≤ 2 ^ 32 ∧
      (1 : Word) ≠ 0 := by decide

/-! ## Witnesses: frames and errors -/

theorem witness_CountSettersFrame :
    exec (.setfreq 1) start = .next (setfreqEffect 1 start) ∧ exec (.setdelay 1) start = .next (setdelayEffect 1 start) ∧
      exec .reserved9 start = .next (reservedEffect start) ∧ Instr.reserved9 ∈ reservedCommands :=
  ⟨rfl, rfl, rfl, by decide⟩

theorem witness_SetmodeFrame :
    exec (.setmode 3) start = .next (setmodeEffect 3 start) ∧ exec (.setmode 4) start = .next (setmodeEffect 4 start) ∧
      3 < (4 : Word).toNat :=
  ⟨rfl, rfl, by decide⟩

theorem witness_DestroyFrame : exec .destroy start = .next (destroyEffect start) := rfl

theorem witness_WriteAcceptFrame :
    exec (.write 0xFFFFFFFF 1) start = .next (writeAccept 0xFFFFFFFF 1 start) ∧
      exec (.write 0xFFFFFFFF 2) start = .next (writeAccept 0xFFFFFFFF 2 start) := ⟨rfl, rfl⟩

theorem witness_ErrorCausesExactly :
    (start.lifecycle ≠ .busy ∧ exec (.setmode 4) start = .next (answered { start with modeValid := false } .invalidMode)) ∧
      (invalid.lifecycle ≠ .busy ∧ exec (.write 0 0) invalid = .next (answered invalid .invalidMode)) ∧
      (start.lifecycle ≠ .busy ∧ exec .reserved0 start = .next (answered start .invalidArgument)) ∧
      (start.lifecycle ≠ .busy ∧ exec (.write 0xFFFFFFFF 2) start = .next (answered start .invalidArgument)) ∧
      (gone.lifecycle ≠ .busy ∧ exec .destroy gone = .next (answered gone .released)) :=
  ⟨⟨by decide, rfl⟩, ⟨by decide, rfl⟩, ⟨by decide, rfl⟩, ⟨by decide, rfl⟩, ⟨by decide, rfl⟩⟩

/-- A SETMODE out of range that clears `mode_valid`; one in RELEASED, and a reserved op, that do not. -/
theorem witness_ErrorsChangeOnlyTheStatus :
    (exec (.setmode 4) start = .next (setmodeEffect 4 start) ∧
      responses (setmodeEffect 4 start).trace = responses start.trace ++ [.invalidMode] ∧ 3 < (4 : Word).toNat ∧
      Status.invalidMode ≠ .released ∧ start.modeValid = true ∧ (setmodeEffect 4 start).modeValid = false) ∧
      (exec (.setmode 4) gone = .next (setmodeEffect 4 gone) ∧
        responses (setmodeEffect 4 gone).trace = responses gone.trace ++ [.released]) ∧
      (exec .reserved0 start = .next (reservedEffect start) ∧
        responses (reservedEffect start).trace = responses start.trace ++ [.invalidArgument]) :=
  ⟨⟨rfl, by decide, by decide, by decide, rfl, by decide⟩, ⟨rfl, by decide⟩, ⟨rfl, by decide⟩⟩

/-! ## Witnesses: transfers -/

theorem witness_BitEventsInOrder :
    ((inFlight 0 5 .a1).mode = 0 ∨ (inFlight 0 5 .a1).mode = 2) ∧
      ((inFlight 2 5 .a1).mode = 0 ∨ (inFlight 2 5 .a1).mode = 2) ∧
      ((inFlight 1 5 .b1).mode = 1 ∨ (inFlight 1 5 .b1).mode = 3) ∧
      ((inFlight 3 5 .b1).mode = 1 ∨ (inFlight 3 5 .b1).mode = 3) := by decide

/-- The boundary of the range: the buffer that ends at the last address, and an address below it. -/
theorem witness_WriteExchangesTheBuffer :
    start.lifecycle = .ready ∧ start.modeValid = true ∧ start.mem.wf = true ∧
      (0xFFFFFFFF : Word).toNat + (1 : Word).toNat ≤ 2 ^ 32 ∧ 0 < (1 : Word).toNat ∧ 7 < 8 ∧
      (0xFFFFFFFE : Word).toNat < (0xFFFFFFFF : Word).toNat := by decide

/-- A loopback bit, a loopback byte and a loopback WRITE of no byte and of one byte. -/
theorem witness_LoopbackReturnsWhatIsSent :
    loopback looped.mosi (transferBit true looped).2.trace = true ∧
      loopback looped.mosi (transferByte 0xA5 looped).2.trace = true ∧ looped.mem.wf = true ∧ looped.trace = [] ∧
      loopback looped.mosi (transact (.write 0x100 1) looped).trace = true ∧
      loopback looped.mosi (transact (.write 0x100 0) looped).trace = true := by decide

theorem witness_EventCounts :
    start.lifecycle = .ready ∧ start.modeValid = true ∧ (1 : Word).toNat + (0xFFFFFFFF : Word).toNat ≤ 2 ^ 32 := by decide

theorem witness_MemoryAccessesInAddressOrder :
    start.lifecycle = .ready ∧ start.modeValid = true ∧ (0xFFFFFFFE : Word).toNat + (2 : Word).toNat ≤ 2 ^ 32 := by decide

theorem witness_TrailingDelayFollowsEveryByte :
    start.lifecycle = .ready ∧ start.modeValid = true ∧ (0xFFFFFFFF : Word).toNat + (1 : Word).toNat ≤ 2 ^ 32 ∧
      (1 : Word) ≠ 0 := by decide

/-! ## Witnesses: the machine -/

theorem witness_StepRunsTheDecodedCommand :
    (destroying.hasReset = true ∧ destroying.lifecycle ≠ .busy ∧ destroying.rstAsserted = false ∧
      destroying.hostInput = .cmd 0x50000000000000000#68 :: [.idle]) ∧
      (start.hasReset = true ∧ start.lifecycle ≠ .busy ∧ decodeTableWord 68 0x50000000000000000 = some .destroy) := by
  decide

theorem witness_HeldCommandWaitsForReady :
    (cmdReady destroying = true ∧ (tick destroying).isSome = true) ∧
      ∃ b : State, b = { inFlight 0 5 .a3 with hostInput := [.cmd 0x50000000000000000#68] } ∧
        cmdReady b = false ∧ (tick b).isSome = true := by
  refine ⟨by decide, _, rfl, by decide⟩

/-- A command that completes, a WRITE that completes and one that goes on, and a tick with nothing. -/
theorem witness_ResponseLastsOneTick :
    ((tick { start with hostInput := [.cmd 0x50000000000000000#68] }).map (fun t => t.rspValid) = some true) ∧
      ((tick (inFlight 0 5 .store)).map (fun t => t.rspValid) = some true) ∧
      ((tick (inFlight 0 5 .a3)).map (fun t => t.rspValid) = some false) ∧
      ((tick start).map (fun t => t.rspValid) = some false) := by decide

/-- A reset of a released block; RELEASED with nothing to do; BUSY at the end of the last byte (STORE with no delay, IBD), at
the end of a byte before it, and in STORE with a delay to come; READY with a WRITE and with a DESTROY. -/
theorem witness_LifecycleTransitions :
    (let s : State := { gone with rstInput := [true] };
      s.rstAsserted = true ∧ (tick s).isSome = true) ∧
      (gone.rstAsserted = false ∧ gone.lifecycle = .released ∧ (tick gone).isSome = true) ∧
      ((inFlight 0 5 .store).rstAsserted = false ∧ (inFlight 0 5 .store).lifecycle = .busy ∧
        (tick (inFlight 0 5 .store)).map (fun t => t.lifecycle) = some .ready) ∧
      (tick (inFlight 0 5 .ibd)).map (fun t => t.lifecycle) = some .ready ∧
      (tick { inFlight 0 5 .ibd with len := 2 }).map (fun t => t.lifecycle) = some .busy ∧
      (tick { inFlight 0 5 .store with interbyteDelayCount := 1 }).map (fun t => t.lifecycle) = some .busy ∧
      (let s : State := { start with hostInput := [.cmd 0x40000010000000001#68] };
        s.rstAsserted = false ∧ s.lifecycle = .ready ∧ (tick s).map (fun t => t.lifecycle) = some .busy) ∧
      (destroying.rstAsserted = false ∧ destroying.lifecycle = .ready ∧
        (tick destroying).map (fun t => t.lifecycle) = some .released) := by decide

/-- A SETMODE that changes mode, cpol and SCK, a DESTROY that changes the enables, and a tick of a WRITE that changes MOSI. -/
theorem witness_OnlyItsWritersChangeAField :
    (let s : State := { start with hostInput := [.cmd 0x20000000300000000#68] };
      s.rstAsserted = false ∧
        (tick s).map (fun t => (t.mode ≠ s.mode ∧ t.cpol ≠ s.cpol ∧ t.sck ≠ s.sck : Bool)) = some true) ∧
      (destroying.rstAsserted = false ∧
        (tick destroying).map (fun t => (t.sckOe, t.lifecycle)) = some (false, .released)) ∧
      ((inFlight 0 5 .a1).rstAsserted = false ∧ (tick (inFlight 0 5 .a1)).map (fun t => t.mosi) = some (some true)) := by
  decide

theorem witness_ResetGivesTheResetState :
    ({ start with hasReset := false, rstInput := [true] } : State).rstAsserted = true ∧
      ({ start with hostInput := [.reset] } : State).rstAsserted = true := by decide

theorem witness_ResetAbortsWriteSilently :
    let s : State := { inFlight 2 5 .a6 with rstInput := [true] }
    s.lifecycle = .busy ∧ s.rstAsserted = true := by decide

/-- The invariant holds of a state that is not the reset state: a WRITE in mode 3 in the middle of a bit. -/
theorem inv_inFlight : Inv { inFlight 3 5000 .b3 with dlyCnt := 5000 } where
  hasReset   := rfl
  memory     := rfl
  parameters := by decide
  cpol       := rfl
  halfPeriod := by decide
  interbyte  := ⟨0, by decide⟩
  enables    := by decide
  busy       := by decide
  busyMode   := by decide
  clock      := by decide
  family     := rfl
  position   := by decide
  waiting    := by decide
  responded  := by decide
  presented  := by decide

theorem witness_StepStopsExactly :
    ({ start with hasReset := false } : State).rstAsserted = false ∧
      Inv { inFlight 3 5000 .b3 with dlyCnt := 5000 } := ⟨rfl, inv_inFlight⟩

/-- The premises of the clause about `mem_addr`: the last byte of a buffer in LOAD, in a state of the invariant. -/
theorem witness_WriteRangeNeverWraps_flight :
    Inv (inFlight 0 5000 .load) ∧ (outputs (inFlight 0 5000 .load)).memAddr = some 0x100 ∧
      (inFlight 0 5000 .load).byteIdx + 1 = (inFlight 0 5000 .load).len :=
  ⟨{ hasReset := rfl, memory := rfl, parameters := by decide, cpol := rfl, halfPeriod := by decide
     interbyte := ⟨0, by decide⟩, enables := by decide, busy := by decide, busyMode := by decide, clock := by decide
     family := rfl, position := by decide, waiting := by decide, responded := by decide, presented := by decide },
    by decide, by decide⟩

theorem witness_StepKeepsInvariant :
    Inv { inFlight 3 5000 .b3 with dlyCnt := 5000 } ∧
      (tick { inFlight 3 5000 .b3 with dlyCnt := 5000 }).isSome = true := ⟨inv_inFlight, by decide⟩

/-- The two ways a byte changes. -/
theorem witness_MemoryChangesOnlyByStores :
    ((tick (inFlight 0 5 .store)).map (fun t => t.byteAt 0x100) = some 0x5A ∧ (inFlight 0 5 .store).byteAt 0x100 = 0xA5 ∧
      (inFlight 0 5 .store).mem.wf = true) ∧
      ((tick { start with hostInput := [.poke 0xFFFFFFFF 0x11] }).map (fun t => t.byteAt 0xFFFFFFFF) = some 0x11 ∧
        start.byteAt 0xFFFFFFFF = 0) := by decide

theorem witness_BusyTickFrame :
    (inFlight 0 5 .store).lifecycle = .busy ∧ (inFlight 0 5 .store).rstAsserted = false ∧
      (tick (inFlight 0 5 .store)).isSome = true := by decide

theorem witness_WaitTickOnlyCounts :
    let s : State := { inFlight 0 5 .a2 with dlyCnt := 2 }
    s.lifecycle = .busy ∧ s.hasReset = true ∧ s.rstAsserted = false ∧ s.rspValid = false ∧ s.seq.isWait = true ∧
      s.dlyCnt ≠ 1 := by decide

theorem witness_LoadTick :
    (inFlight 1 5 .load).lifecycle = .busy ∧ (inFlight 1 5 .load).hasReset = true ∧
      (inFlight 1 5 .load).rstAsserted = false ∧ (inFlight 1 5 .load).seq = .load := by decide

theorem witness_DriveFirstSteps :
    ∀ q ∈ [Seq.a1, .a2, .a3, .a4, .a5, .a6], (inFlight 2 5 q).lifecycle = .busy ∧ (inFlight 2 5 q).hasReset = true ∧
      (inFlight 2 5 q).rstAsserted = false ∧ (inFlight 2 5 q).halfPeriodCount ≠ 0 ∧
      driveFirst (inFlight 2 5 q).mode = true ∧ (inFlight 2 5 q).seq = q ∧ (inFlight 2 5 q).dlyCnt = 1 := by decide

theorem witness_ClockFirstSteps :
    ∀ q ∈ [Seq.b1, .b2, .b3, .b4, .b5, .b6], (inFlight 3 5 q).lifecycle = .busy ∧ (inFlight 3 5 q).hasReset = true ∧
      (inFlight 3 5 q).rstAsserted = false ∧ (inFlight 3 5 q).halfPeriodCount ≠ 0 ∧
      driveFirst (inFlight 3 5 q).mode = false ∧ (inFlight 3 5 q).seq = q ∧ (inFlight 3 5 q).dlyCnt = 1 := by decide

/-- STORE with and without a delay, the end of the wait, the last byte and one before it. -/
theorem witness_StoreAndByteEnd :
    (let s : State := { inFlight 0 5 .store with interbyteDelayCount := 1 };
      s.lifecycle = .busy ∧ s.hasReset = true ∧ s.rstAsserted = false ∧ s.seq = .store ∧ s.mem.wf = true ∧
        s.interbyteDelayCount ≠ 0) ∧
      ((inFlight 0 5 .store).interbyteDelayCount = 0 ∧
        (inFlight 0 5 .store).byteIdx + 1 = (inFlight 0 5 .store).len) ∧
      (let s : State := { inFlight 0 5 .ibd with len := 2 };
        s.seq = .ibd ∧ s.dlyCnt = 1 ∧ s.byteIdx + 1 ≠ s.len) := by decide

theorem witness_DriveFirstBitTiming :
    (inFlight 0 5 .a1).lifecycle = .busy ∧ (inFlight 0 5 .a1).hasReset = true ∧ (inFlight 0 5 .a1).seq = .a1 ∧
      driveFirst (inFlight 0 5 .a1).mode = true ∧ (inFlight 0 5 .a1).sck = (inFlight 0 5 .a1).cpol ∧
      (inFlight 0 5 .a1).halfPeriodCount ≠ 0 ∧
      NoReset (2 * (inFlight 0 5 .a1).halfPeriodTicks + 4) (inFlight 0 5 .a1) :=
  ⟨rfl, rfl, rfl, by decide, rfl, by decide, noReset_of_no_input _ rfl rfl⟩

theorem witness_ClockFirstBitTiming :
    (inFlight 3 5 .b1).lifecycle = .busy ∧ (inFlight 3 5 .b1).hasReset = true ∧ (inFlight 3 5 .b1).seq = .b1 ∧
      driveFirst (inFlight 3 5 .b1).mode = false ∧ (inFlight 3 5 .b1).sck = (inFlight 3 5 .b1).cpol ∧
      (inFlight 3 5 .b1).halfPeriodCount ≠ 0 ∧
      NoReset (2 * (inFlight 3 5 .b1).halfPeriodTicks + 4) (inFlight 3 5 .b1) :=
  ⟨rfl, rfl, rfl, by decide, rfl, by decide, noReset_of_no_input _ rfl rfl⟩

/-- A command that completes at once, and a WRITE that runs. -/
theorem witness_TicksRefineTransactions :
    (start.hasReset = true ∧ start.lifecycle ≠ .busy ∧ start.seq = .idle) ∧
      (exec (.write 0x100 1) start = .next (writeAccept 0x100 1 start) ∧
        0 < ticksAfterAccept (.write 0x100 1) start ∧
        NoReset (ticksAfterAccept (.write 0x100 1) start) (writeAccept 0x100 1 start)) :=
  ⟨⟨rfl, by decide, rfl⟩, rfl, by decide, noReset_of_no_input _ rfl rfl⟩

theorem witness_WriteCompletesWithReceivedBytes :
    (start.hasReset = true ∧ start.lifecycle = .ready ∧ start.seq = .idle ∧ start.modeValid = true ∧
      start.mem.wf = true ∧ (0xFFFFFFFF : Word).toNat + (1 : Word).toNat ≤ 2 ^ 32 ∧ (1 : Word) ≠ 0) ∧
      exec (.write 0xFFFFFFFF 1) start = .next (writeAccept 0xFFFFFFFF 1 start) ∧
      ∀ k, NoReset k (writeAccept 0xFFFFFFFF 1 start) :=
  ⟨⟨rfl, rfl, rfl, rfl, rfl, by decide, by decide⟩, rfl, fun k => noReset_of_no_input k rfl rfl⟩

/-- A response of each kind, and a tick with none. -/
theorem witness_ResponsePortCarriesTheStatusNumber :
    (tick destroying).map (fun t => (outputs t).rspStatus) = some (some 0) ∧
      (tick { start with hostInput := [.cmd 0x20000000400000000#68] }).map (fun t => (outputs t).rspStatus) =
        some (some 1) ∧
      (tick { start with hostInput := [.cmd 0x00000000000000000#68] }).map (fun t => (outputs t).rspStatus) =
        some (some 2) ∧
      (tick { gone with hostInput := [.cmd 0x50000000000000000#68] }).map (fun t => (outputs t).rspStatus) =
        some (some 3) ∧
      (tick start).map (fun t => (outputs t).rspStatus) = some none := by decide

end Sys2Proof.Tests
end

namespace Sys2Proof.Machine

/-! ## The invariant

`Inv` is kept in two halves: a block that is not BUSY has the sequencer idle, so the clauses about the WRITE in flight say
nothing (`Inv.of_idle`); a running WRITE is followed through the acts of one tick by `State.Running`, the part of `Inv` that
does not speak of the sequencer's step. -/

theorem cpolOf_zero : cpolOf 0 = false := by decide

/-- The invariant of a block that is not BUSY: what it says of a running WRITE holds of itself. -/
theorem Inv.of_idle {s : State} (hasReset : s.hasReset = true) (memory : s.mem.wf = true)
    (parameters : s.config.inRange) (cpol : s.cpol = cpolOf s.mode)
    (halfPeriod : s.halfPeriodCount.toNat = Machine.halfPeriod s.config.loopsPerSecond.toNat s.frequency.toNat)
    (interbyte : ∃ us : Word, s.interbyteDelayCount.toNat = interByte s.config.loopsPerSecond.toNat us.toNat)
    (enables : s.sckOe = decide (s.lifecycle ≠ .released) ∧ s.mosiOe = decide (s.lifecycle ≠ .released))
    (notBusy : s.lifecycle ≠ .busy) (idle : s.seq = .idle) (clock : s.lifecycle ≠ .released → s.sck = s.cpol)
    (responded : (responses s.trace).length ≤ 1)
    (presented : s.rspValid = true → s.trace.getLast? = some (.rsp s.lastStatus)) : Inv s where
  hasReset   := hasReset
  memory     := memory
  parameters := parameters
  cpol       := cpol
  halfPeriod := halfPeriod
  interbyte  := interbyte
  enables    := enables
  busy       := iff_of_false notBusy (not_not_intro idle)
  busyMode   := fun hb => absurd hb notBusy
  clock      := by rw [idle]; exact clock
  family     := by rw [idle]; rfl
  position   := fun hb => absurd hb notBusy
  waiting    := by rw [idle]; exact nofun
  responded  := by rw [if_neg notBusy]; exact responded
  presented  := presented

theorem Inv.seq_idle {s : State} (h : Inv s) (hb : s.lifecycle ≠ .busy) : s.seq = .idle :=
  Decidable.not_not.mp (mt h.busy.mpr hb)

/-- The inputs of a tick pass, and with them the response presented in it (44 R104). -/
theorem Inv.nextInputs {s : State} (h : Inv s) : Inv s.nextInputs :=
  { h with presented := nofun }

/-- A reset tick gives the invariant whatever it starts from, but for what no reset touches (70 R141, R143). -/
theorem create_inv {s : State} (hm : s.mem.wf = true) (hp : s.config.inRange) : Inv (create s) :=
  .of_idle rfl hm hp cpolOf_zero.symm (halfPeriodFor_toNat _ _) ⟨_, interbyteFor_toNat _ _⟩ ⟨rfl, rfl⟩ nofun rfl
    (fun _ => rfl) (Nat.zero_le 1) nofun

/-- Settles O57: every clause is the value 10 R36 gives its register. -/
theorem invariantHoldsAtReset : Obligations.InvariantHoldsAtReset :=
  Inv.of_idle rfl rfl implementation_inRange cpolOf_zero.symm (halfPeriodFor_toNat _ _) ⟨_, interbyteFor_toNat _ _⟩
    ⟨rfl, rfl⟩ nofun rfl (fun _ => rfl) (Nat.zero_le 1) nofun

/-! ### The accept tick -/

/-- A command begins a new trace (44 R103). -/
theorem Inv.accepted {s : State} (h : Inv s) (hb : s.lifecycle ≠ .busy) (rest : List HostMove) :
    Inv (s.accepted rest) :=
  { h with
    responded := by rw [if_neg (show (s.accepted rest).lifecycle ≠ .busy from hb)]; exact Nat.zero_le 1
    presented := nofun }

/-- A command that has not responded yet may respond, and completes with it (30 R61). -/
theorem Inv.answered {s : State} (h : Inv s) (hb : s.lifecycle ≠ .busy) (ht : responses s.trace = []) (st : Status) :
    Inv (answered s st) :=
  { h with
    responded := by
      rw [if_neg (show (Machine.answered s st).lifecycle ≠ .busy from hb)]
      show (responses (s.trace ++ [.rsp st])).length ≤ 1
      rw [responses_append, ht]
      exact le_refl 1
    presented := fun _ => List.getLast?_concat }

section
variable {s : State} (h : Inv s) (hb : s.lifecycle ≠ .busy)
include h hb

theorem Inv.not_isWait : ¬ s.seq.isWait = true := by rw [h.seq_idle hb]; nofun

theorem Inv.setfreq (hz : Word) : Inv { s with frequency := hz, halfPeriodCount := halfPeriodFor s.config hz } :=
  { h with halfPeriod := halfPeriodFor_toNat _ _, waiting := fun hw => absurd hw (h.not_isWait hb) }

theorem Inv.setdelay (us : Word) : Inv { s with interbyteDelayCount := interbyteFor s.config us } :=
  { h with interbyte := ⟨us, interbyteFor_toNat _ _⟩, waiting := fun hw => absurd hw (h.not_isWait hb) }

/-- `mode_valid` may be cleared where no WRITE runs (41 R78). -/
theorem Inv.clear_modeValid : Inv { s with modeValid := false } :=
  { h with busyMode := fun hb' => absurd hb' hb }

variable (hr : responses s.trace = [])
include hr

/-- A legal SETMODE moves SCK to the new idle level with `cpol` (41 R78). -/
theorem Inv.setmode (mode : BitVec 2) (hv : s.rspValid = false) :
    Inv { s with
      mode := mode, cpol := cpolOf mode, modeValid := true, sck := cpolOf mode
      trace := s.trace ++ [.sckW (cpolOf mode)] } :=
  .of_idle h.hasReset h.memory h.parameters rfl h.halfPeriod h.interbyte h.enables hb (h.seq_idle hb) (fun _ => rfl)
    (by rw [responses_append, hr]; exact Nat.zero_le 1) (by simp [hv])

/-- DESTROY drops both enables, and SCK is free from then on (43 R95). -/
theorem Inv.destroy (hv : s.rspValid = false) :
    Inv { s with
      sckOe := false, mosiOe := false, lifecycle := .released
      trace := s.trace ++ [.rel .sck, .rel .mosi, .rel .miso] } :=
  .of_idle h.hasReset h.memory h.parameters h.cpol h.halfPeriod h.interbyte ⟨rfl, rfl⟩ nofun (h.seq_idle hb)
    (absurd rfl) (by rw [responses_append, hr]; exact Nat.zero_le 1) (by simp [hv])

/-- A WRITE that starts has its first byte inside a buffer that does not wrap, and SCK idle before LOAD (44 R105). -/
theorem Inv.write_starts {base len : Word} (hw : writeAnswer base len s = none) :
    Inv { s with lifecycle := .busy, base := base, len := len, byteIdx := 0, seq := .load } := by
  obtain ⟨hlive, hvalid, hfits, hlen⟩ := writeAnswer_none.mp hw
  have hsck := h.clock hlive
  rw [h.seq_idle hb] at hsck
  exact
    { h with
      enables   := by simpa [hlive] using h.enables
      busy      := iff_of_true rfl nofun
      busyMode  := fun _ => hvalid
      clock     := fun _ => hsck
      family    := rfl
      position  := fun _ => ⟨by bv_omega, hfits⟩
      waiting   := nofun
      responded := hr }

/-- The accept tick keeps the invariant, by everything a command can do in it. -/
theorem Inv.exec {i : Instr} {t : State} (hv : s.rspValid = false) (hx : exec i s = .next t) : Inv t := by
  have hsckW (v : Level) : responses (s.trace ++ [.sckW v]) = [] := by rw [responses_append, hr]; rfl
  have hrel : responses (s.trace ++ [.rel .sck, .rel .mosi, .rel .miso]) = [] := by rw [responses_append, hr]; rfl
  rcases exec_cases hx with ⟨st, rfl, -⟩ | ⟨hz, -, -, rfl⟩ | ⟨us, -, -, rfl⟩ | ⟨m, -, -, -, rfl⟩ | ⟨m, -, -, -, rfl⟩ |
    ⟨-, -, rfl⟩ | ⟨base, len, -, hw, rfl⟩
  · exact h.answered hb hr st
  · exact (h.setfreq hb hz).answered hb hr _
  · exact (h.setdelay hb us).answered hb hr _
  · exact (h.setmode hb hr _ hv).answered hb (hsckW _) _
  · exact (h.clear_modeValid hb).answered hb hr _
  · exact (h.destroy hb hr hv).answered nofun hrel _
  · exact h.write_starts hb hr hw

end

/-! ### A tick of a running WRITE -/

/-- What holds of a running WRITE between the acts of a tick, whatever step comes next; `active` says whether SCK is at the
active level (42 R93). -/
structure State.Running (s : State) (active : Bool) : Prop where
  hasReset   : s.hasReset = true
  memory     : s.mem.wf = true
  parameters : s.config.inRange
  cpol       : s.cpol = cpolOf s.mode
  halfPeriod : s.halfPeriodCount.toNat = Machine.halfPeriod s.config.loopsPerSecond.toNat s.frequency.toNat
  interbyte  : ∃ us : Word, s.interbyteDelayCount.toNat = interByte s.config.loopsPerSecond.toNat us.toNat
  enables    : s.sckOe = true ∧ s.mosiOe = true
  busy       : s.lifecycle = .busy
  modeValid  : s.modeValid = true
  sck        : s.sck = if active then !s.cpol else s.cpol
  position   : s.byteIdx.toNat < s.len.toNat ∧ s.base.toNat + s.len.toNat ≤ 2 ^ 32
  silent     : responses s.trace = []
  rspValid   : s.rspValid = false

theorem Inv.running {s : State} (h : Inv s) (hb : s.lifecycle = .busy) (hv : s.rspValid = false) :
    s.Running s.seq.clockActive :=
  { h with
    enables   := by simpa [hb] using h.enables
    busy      := hb
    modeValid := h.busyMode hb
    sck       := h.clock (by rw [hb]; nofun)
    position  := h.position hb
    silent    := by simpa [hb] using h.responded
    rspValid  := hv }

theorem firstBitStep_enters (mode : BitVec 2) :
    firstBitStep mode ≠ .idle ∧ (firstBitStep mode).clockActive = false ∧
      (firstBitStep mode).ofFamily mode = true ∧ (firstBitStep mode).isWait = false := by
  unfold firstBitStep
  split
  · exact ⟨nofun, rfl, ‹_›, rfl⟩
  · exact ⟨nofun, rfl, by simp_all [Seq.ofFamily], rfl⟩

namespace State.Running

variable {s : State} {active : Bool}

/-! Each act of a tick. -/

theorem append {es : List Event} (h : s.Running active) (he : responses es = []) :
    responses (s.trace ++ es) = [] := by rw [responses_append, h.silent, he]; rfl

theorem delay (h : s.Running active) (n : Nat) : (s.delay n).Running active :=
  { h with silent := h.append rfl }

theorem driveBit (h : s.Running active) : s.driveBit.Running active :=
  { h with silent := h.append rfl }

theorem sampleBit (h : s.Running active) : s.sampleBit.Running active :=
  { h with silent := h.append rfl }

theorem storeByte (h : s.Running active) : s.storeByte.Running active :=
  { h with memory := Memory.write_wf h.memory _ _, silent := h.append rfl }

theorem leadingEdge (h : s.Running active) : s.leadingEdge.Running true :=
  { h with sck := rfl, silent := h.append rfl }

theorem trailingEdge (h : s.Running active) : s.trailingEdge.Running false :=
  { h with sck := rfl, silent := h.append rfl }

/-! The ends of a tick: each gives the invariant again. -/

/-- The sequencer may enter any step of the mode's family that agrees with the level of SCK; a wait step with its count. -/
theorem inv (h : s.Running active) (hq : s.seq ≠ .idle) (hc : s.seq.clockActive = active)
    (hf : s.seq.ofFamily s.mode = true)
    (hw : s.seq.isWait = true → 1 ≤ s.dlyCnt.toNat ∧ s.dlyCnt.toNat ≤ s.waitLength) : Inv s :=
  { h with
    enables   := by simpa [h.busy] using h.enables
    busy      := iff_of_true h.busy hq
    busyMode  := fun _ => h.modeValid
    clock     := fun _ => by rw [hc]; exact h.sck
    family    := hf
    position  := fun _ => h.position
    waiting   := hw
    responded := by rw [if_pos h.busy]; exact h.silent
    presented := by simp [h.rspValid] }

theorem inv_goto (h : s.Running active) {q : Seq} (hq : q ≠ .idle) (hc : q.clockActive = active)
    (hf : q.ofFamily s.mode = true) (hw : q.isWait = false) : Inv (s.goto q) :=
  inv (s := s.goto q) { h with } hq hc hf (by simp [hw])

/-- A wait step is entered with its whole length (44 R102). -/
theorem inv_enterWait (h : s.Running active) {n : Count} {q : Seq} {done : State → State} (hq : q ≠ .idle)
    (hc : q.clockActive = active) (hf : q.ofFamily s.mode = true) (hn : n.toNat = (s.goto q).waitLength)
    (hdone : Inv (done (s.delay 0))) : Inv (s.enterWait n q done) := by
  rcases s.enterWait_cases n q done with ⟨-, he⟩ | ⟨hn0, he⟩ <;> rw [he]
  · exact hdone
  · exact inv (s := { s.delay n.toNat with seq := q, dlyCnt := n }) { h.delay n.toNat with } hq hc hf
      fun _ => ⟨by bv_omega, hn.le⟩

/-- The next bit of the byte, or STORE (44 R109). -/
theorem inv_endBit (h : s.Running false) : Inv s.endBit := by
  obtain ⟨hq, hc, hf, hw⟩ := firstBitStep_enters s.mode
  unfold State.endBit
  split
  · exact h.inv_goto nofun rfl rfl rfl
  · exact inv_goto (s := { s with bitCnt := s.bitCnt + 1 }) { h with } hq hc hf hw

/-- The WRITE responds once, and the block is READY with SCK idle (44 R112). -/
theorem inv_completeWrite (h : s.Running false) : Inv s.completeWrite :=
  .of_idle h.hasReset h.memory h.parameters h.cpol h.halfPeriod h.interbyte h.enables nofun rfl (fun _ => h.sck)
    (by rw [State.completeWrite, State.respond_trace, responses_append, h.silent]; exact le_refl 1)
    (fun _ => List.getLast?_concat)

/-- The next byte of the buffer is inside it, or the WRITE completes (44 R111). -/
theorem inv_endByte (h : s.Running false) : Inv s.endByte := by
  by_cases hl : s.byteIdx + 1 = s.len
  · rw [State.endByte_last hl]
    exact h.inv_completeWrite
  · rw [State.endByte_more hl]
    obtain ⟨hi, hfits⟩ := h.position
    have hnext : (s.byteIdx + 1).toNat < s.len.toNat := by bv_omega
    exact inv_goto (s := { s with byteIdx := s.byteIdx + 1 }) { h with position := ⟨hnext, hfits⟩ } nofun rfl rfl rfl

end State.Running

/-- A wait step that goes on counts down within its length (44 R102). -/
theorem Inv.waitTick {s : State} (h : Inv s) (hw : s.seq.isWait = true) {done : State → State} (hdone : Inv (done s)) :
    Inv (s.waitTick done) := by
  rcases s.waitTick_cases done with ⟨-, he⟩ | ⟨hd, he⟩ <;> rw [he]
  · exact hdone
  · obtain ⟨h1, h2⟩ := h.waiting hw
    have hcount : 1 ≤ (s.dlyCnt - 1).toNat ∧ (s.dlyCnt - 1).toNat ≤ s.waitLength := by bv_omega
    exact { h with waiting := fun _ => hcount }

/-- One tick of a running WRITE: its acts leave it running with SCK as the step it enters wants it (42 R93, 44 R106 to R112). -/
theorem Inv.seqTick {s : State} (h : Inv s) (hb : s.lifecycle = .busy) (hv : s.rspValid = false) : Inv (seqTick s) := by
  have hrun := h.running hb hv
  have hfam := h.family
  have hwait := h.waitTick
  have hH := s.halfPeriodWait_toNat
  unfold Machine.seqTick
  cases hq : s.seq <;> rw [hq] at hrun hfam hwait
  case idle => exact absurd hq (h.busy.mp hb)
  case load =>
    obtain ⟨hstep, hc, hf, hw⟩ := firstBitStep_enters s.mode
    exact State.Running.inv_goto (s := s.loadTick) { hrun with silent := hrun.append rfl } hstep hc hf hw
  case a1 | b2 =>
    exact hrun.driveBit.inv_enterWait nofun rfl hfam hH ((hrun.driveBit.delay 0).inv_goto nofun rfl hfam rfl)
  case a2 | a5 | b3 => exact hwait rfl (hrun.inv_goto nofun rfl hfam rfl)
  case a3 => exact hrun.sampleBit.inv_goto nofun rfl hfam rfl
  case a4 =>
    exact hrun.leadingEdge.inv_enterWait nofun rfl hfam hH ((hrun.leadingEdge.delay 0).inv_goto nofun rfl hfam rfl)
  case a6 => exact hrun.trailingEdge.inv_endBit
  case b1 => exact hrun.leadingEdge.inv_goto nofun rfl hfam rfl
  case b4 => exact hrun.trailingEdge.inv_goto nofun rfl hfam rfl
  case b5 => exact hrun.sampleBit.inv_enterWait nofun rfl hfam hH (hrun.sampleBit.delay 0).inv_endBit
  case b6 => exact hwait rfl hrun.inv_endBit
  case store => exact hrun.storeByte.inv_enterWait nofun rfl rfl rfl (hrun.storeByte.delay 0).inv_endByte
  case ibd => exact hwait rfl hrun.inv_endByte

/-- Settles O58, by the cases of a step: a reset tick, a tick of the running WRITE, an accepted command, a store of the host, and a
tick in which the block does nothing. -/
theorem stepKeepsInvariant : Obligations.StepKeepsInvariant := by
  intro s t h hs
  rcases step_cases hs with ⟨-, rfl⟩ | ⟨-, -, ⟨hb, -, rfl⟩ | ⟨hb, ⟨w, rest, -, hx⟩ | ⟨a, v, rest, -, rfl⟩ | ⟨-, -, rfl⟩⟩⟩
  · exact create_inv h.memory h.parameters
  · exact h.nextInputs.seqTick hb rfl
  · exact (h.accepted hb rest).exec hb rfl rfl hx
  · exact { h.nextInputs with memory := Memory.write_wf h.memory a v }
  · exact h.nextInputs

/-! ## Frames -/

/-- A command that writes counts and responds leaves all else alone. The counts are variables here, so that no proof compares
a computed count with a register. -/
theorem answered_counts_frame (s : State) (frequency halfPeriodCount : Word) (interbyteDelayCount : Count) (st : Status)
    {t : State} (ht : t = answered
      { s with
        frequency := frequency, halfPeriodCount := halfPeriodCount, interbyteDelayCount := interbyteDelayCount } st) :
    SamePins s t ∧ SameOperation s t ∧ SameInputs s t ∧ SameMemory s t ∧ t.lifecycle = s.lifecycle ∧ t.mode = s.mode ∧
    t.modeValid = s.modeValid ∧ t.cpol = s.cpol ∧ t.config = s.config ∧ t.frequency = frequency ∧
    t.halfPeriodCount = halfPeriodCount ∧ t.interbyteDelayCount = interbyteDelayCount := by
  subst ht
  simp [SamePins, SameOperation, SameInputs, SameMemory, State.byteAt, answered]

/-- Settles O21: SETFREQ and SETDELAY write their own count, a reserved op only responds. -/
theorem countSettersFrame : Obligations.CountSettersFrame := by
  intro i s t hi hx
  rcases exec_cases hx with ⟨st, ht, -⟩ | ⟨hz, rfl, -, ht⟩ | ⟨us, rfl, -, ht⟩ | ⟨m, rfl, -⟩ | ⟨m, rfl, -⟩ | ⟨rfl, -⟩ |
    ⟨base, len, rfl, -⟩
  case inl =>
    have hframe := answered_counts_frame s s.frequency s.halfPeriodCount s.interbyteDelayCount st ht
    tauto
  case inr.inl =>
    have hframe := answered_counts_frame s hz (halfPeriodFor s.config hz) s.interbyteDelayCount .ok ht
    tauto
  case inr.inr.inl =>
    have hframe := answered_counts_frame s s.frequency s.halfPeriodCount (interbyteFor s.config us) .ok ht
    tauto
  all_goals exact absurd hi (by simp [reservedCommands])

/-- Settles O22, by what SETMODE does in RELEASED, with a legal and with an illegal operand (41 R78). -/
theorem setmodeFrame : Obligations.SetmodeFrame := by
  intro m s t hx
  obtain rfl : setmodeEffect m s = t := Host.Outcome.next.inj hx
  by_cases hr : s.lifecycle = .released
  · rw [setmodeEffect_released hr]
    simp [SameOperation, SameInputs, SameMemory, State.byteAt, answered]
  · by_cases hm : m.toNat ≤ 3
    · rw [setmodeEffect_legal hr hm]
      simp [SameOperation, SameInputs, SameMemory, State.byteAt, answered, hm]
    · rw [setmodeEffect_illegal hr (by omega)]
      simp [SameOperation, SameInputs, SameMemory, State.byteAt, answered]

/-- Settles O23, by what DESTROY does in RELEASED and elsewhere (43 R95). -/
theorem destroyFrame : Obligations.DestroyFrame := by
  intro s t hx
  obtain rfl : destroyEffect s = t := Host.Outcome.next.inj hx
  by_cases hr : s.lifecycle = .released
  · rw [destroyEffect_released hr]
    simp [SameConfiguration, SameOperation, SameInputs, SameMemory, State.byteAt, answered]
  · rw [destroyEffect_live hr]
    simp [SameConfiguration, SameOperation, SameInputs, SameMemory, State.byteAt, answered]

/-- Only a STORE changes a byte, and only the one in flight (44 R110). -/
theorem seqTick_byteAt (s : State) {a : Word} (ha : s.seq ≠ .store ∨ a ≠ s.flightAddress) :
    (seqTick s).byteAt a = s.byteAt a := by
  unfold State.byteAt
  rw [seqTick_mem]
  split
  · have hne : a ≠ s.flightAddress := ha.resolve_left (not_not_intro ‹_›)
    exact Memory.read_write_of_ne _ (mt BitVec.eq_of_toNat_eq hne)
  · rfl

theorem seqTick_lastStatus_of_busy {s : State} (hb : (seqTick s).lifecycle = .busy) :
    (seqTick s).lastStatus = s.lastStatus := by
  rcases seqTick_completes s with ⟨-, -, hl, -⟩ | ⟨hready, -⟩
  · exact hl
  · exact absurd (hb.symm.trans hready) nofun

/-- Settles O47: the step is a tick of the sequencer, whose frame it has. -/
theorem busyTickFrame : Obligations.BusyTickFrame := by
  intro s t hb hr hs
  rcases step_cases hs with ⟨hr', -⟩ | ⟨-, -, ⟨-, -, rfl⟩ | ⟨hb', -⟩⟩
  · exact absurd hr' (by simp [hr])
  · have hlast := seqTick_lastStatus_of_busy (s := s.nextInputs)
    have hbyte (a : Word) := seqTick_byteAt s.nextInputs (a := a)
    have htrace := seqTick_trace s.nextInputs
    exact ⟨by simp [SameConfiguration], by simp, by simp, by simp, by simp, by simp, hlast, hbyte, htrace⟩
  · exact absurd hb hb'

/-- Settles O42: a tick of a running WRITE has the sequencer's frame, an accepted command the frame of its row, and any other
tick changes inputs and memory only. -/
theorem onlyItsWritersChangeAField : Obligations.OnlyItsWritersChangeAField := by
  intro s t hs hr accepts
  rcases step_cases hs with ⟨hr', -⟩ | ⟨-, -, ⟨hb, -, rfl⟩ | ⟨hb, ⟨w, rest, hw, hx⟩ | ⟨a, v, rest, -, rfl⟩ | ⟨-, -, rfl⟩⟩⟩
  · exact absurd hr' (by simp [hr])
  · simp [hb]
  · have hacc : accepts (decodeWord w) := ⟨hb, w, rest, hw, rfl⟩
    have hsome : ∃ i, accepts i := ⟨_, hacc⟩
    clear_value accepts
    generalize decodeWord w = i at hacc hx
    cases i with
    | setmode m =>
      have hwriter : ∃ m, accepts (.setmode m) := ⟨m, hacc⟩
      have hlegal (h : ¬ 3 < m.toNat) : ∃ m, accepts (.setmode m) ∧ m.toNat ≤ 3 := ⟨m, hacc, not_lt.mp h⟩
      have hframe := setmodeFrame m _ t hx
      simp only [State.accepted, SameOperation] at hframe
      by_cases hm : 3 < m.toNat
      · simp [hframe, hm, SameOperation, hsome, hwriter]
      · simp [hframe, SameOperation, hsome, hwriter, hlegal hm]
    | destroy =>
      have hframe := destroyFrame _ t hx
      simp only [State.accepted, SameOperation, SameConfiguration] at hframe
      simp [hframe, SameOperation, hsome, hacc]
    | write base len =>
      have hwriter : ∃ base len, accepts (.write base len) := ⟨base, len, hacc⟩
      rcases exec_cases hx with ⟨st, rfl, -⟩ | ⟨_, h, -⟩ | ⟨_, h, -⟩ | ⟨_, h, -⟩ | ⟨_, h, -⟩ | ⟨h, -⟩ | ⟨_, _, -, -, rfl⟩
      · simp [answered, State.accepted, SameOperation, hsome]
      iterate 5 nomatch h
      · simp [State.accepted, hwriter]
    | setfreq hz =>
      have hwriter : ∃ hz, accepts (.setfreq hz) := ⟨hz, hacc⟩
      have hframe := countSettersFrame _ _ t (.inl ⟨hz, rfl⟩) hx
      simp only [State.accepted, SameOperation, SamePins] at hframe
      simp [hframe, SameOperation, hsome, hwriter]
    | setdelay us =>
      have hwriter : ∃ us, accepts (.setdelay us) := ⟨us, hacc⟩
      have hframe := countSettersFrame _ _ t (.inr (.inl ⟨us, rfl⟩)) hx
      simp only [State.accepted, SameOperation, SamePins] at hframe
      simp [hframe, SameOperation, hsome, hwriter]
    | _ =>
      have hframe := countSettersFrame _ _ t (.inr (.inr (by simp [reservedCommands]))) hx
      simp only [State.accepted, SameOperation, SamePins] at hframe
      simp [hframe, SameOperation, hsome]
  · simp [SameOperation]
  · simp [SameOperation]

/-! ## The observation port -/

/-- `cpha` is 1 exactly in modes 0 and 2 (10 R25). -/
theorem cphaOf_iff : ∀ mode : BitVec 2, cphaOf mode = true ↔ mode = 0 ∨ mode = 2 := by decide

/-- Each lifecycle has its own number (10 R21). -/
theorem Lifecycle.code_iff (l : Lifecycle) :
    (l.code.toNat = 0 ↔ l = .ready) ∧ (l.code.toNat = 1 ↔ l = .busy) ∧ (l.code.toNat = 2 ↔ l = .released) := by
  cases l <;> decide

/-- Each status has its own number (60 R121). -/
theorem Status.code_iff (st : Status) :
    (st.code.toNat = 0 ↔ st = .ok) ∧ (st.code.toNat = 1 ↔ st = .invalidMode) ∧
      (st.code.toNat = 2 ↔ st = .invalidArgument) ∧ (st.code.toNat = 3 ↔ st = .released) := by
  cases st <;> decide

/-- Settles O59, by the numbers of the two codes and of `cpha`; each other output is its register. -/
theorem observationPortShowsTheRegisters : Obligations.ObservationPortShowsTheRegisters := by
  intro s
  obtain ⟨hready, hbusy, hreleased⟩ := s.lifecycle.code_iff
  obtain ⟨hok, hinvalidMode, hinvalidArgument, hrefused⟩ := s.lastStatus.code_iff
  exact ⟨hready, hbusy, hreleased, hok, hinvalidMode, hinvalidArgument, hrefused, rfl, rfl, rfl, cphaOf_iff s.mode,
    rfl, rfl, rfl, decide_eq_true_iff⟩

end Sys2Proof.Machine

namespace Sys2Proof.Machine

/-! ## The buffer memory

The memory is looked at from both levels: a tick shows on `mem_addr` the address of the byte in flight alone and stores there
alone; a transaction's accesses are those of the buffer of a WRITE that starts. -/

/-- The block shows an address in LOAD and in STORE only, that of the byte in flight (44 R106, R110). -/
theorem memAddr_eq_some_iff {s : State} {a : Word} :
    (outputs s).memAddr = some a ↔ s.lifecycle = .busy ∧ (s.seq = .load ∨ s.seq = .store) ∧ s.flightAddress = a := by
  simp [outputs, memRe, memWe, ← and_or_left, and_assoc]

/-- The address of the byte in flight does not wrap (20 R48). -/
theorem Inv.flightAddress_toNat {s : State} (h : Inv s) (hb : s.lifecycle = .busy) :
    s.flightAddress.toNat = s.base.toNat + s.byteIdx.toNat := by
  obtain ⟨hlt, hfits⟩ := h.position hb
  exact BitVec.toNat_add_of_lt (by omega)

/-! ### The accesses of a transaction -/

/-- Every command but WRITE does in its accept tick all that it does (44 R103). -/
theorem exec_eq_transact {i : Instr} (hi : ∀ base len, i ≠ .write base len) (s : State) :
    exec i s = .next (transact i s) := by
  cases i with
  | write base len => exact absurd rfl (hi base len)
  | _ => rfl

/-- A command other than WRITE does not access the buffer memory. -/
theorem transact_accesses_nothing {i : Instr} (hi : ∀ base len, i ≠ .write base len) (s : State) :
    ∃ es, (transact i s).trace = s.trace ++ es ∧ memoryAccesses es = [] := by
  rcases exec_cases (exec_eq_transact hi s) with ⟨st, ht, -⟩ | ⟨hz, -, -, ht⟩ | ⟨us, -, -, ht⟩ | ⟨m, -, -, -, ht⟩ |
    ⟨m, -, -, -, ht⟩ | ⟨-, -, ht⟩ | ⟨base, len, hw, -⟩
  · exact ⟨[.rsp st], congrArg State.trace ht, rfl⟩
  · exact ⟨[.rsp .ok], congrArg State.trace ht, rfl⟩
  · exact ⟨[.rsp .ok], congrArg State.trace ht, rfl⟩
  · exact ⟨[.sckW (cpolOf (modeBits m)), .rsp .ok], by simp [ht, answered], rfl⟩
  · exact ⟨[.rsp .invalidMode], congrArg State.trace ht, rfl⟩
  · exact ⟨[.rel .sck, .rel .mosi, .rel .miso, .rsp .ok], by simp [ht, answered], rfl⟩
  · exact absurd hw (hi base len)

/-- A WRITE that is answered at once does not access the buffer memory (42 R86, R87). -/
theorem write_answered_accesses_nothing {base len : Word} {s : State} {st : Status}
    (h : writeAnswer base len s = some st) :
    ∃ es, (transact (.write base len) s).trace = s.trace ++ es ∧ memoryAccesses es = [] :=
  ⟨[.rsp st], congrArg State.trace (writeTransaction_answered h), rfl⟩

/-- A WRITE that starts reads and then writes each byte of its buffer, upward (20 R50). -/
theorem write_started_accesses_buffer {base len : Word} {s : State} (h : writeAnswer base len s = none) :
    ∃ es, (transact (.write base len) s).trace = s.trace ++ es ∧
      memoryAccesses es = (List.range len.toNat).flatMap fun i =>
        [(false, base + BitVec.ofNat 32 i), (true, base + BitVec.ofNat 32 i)] := by
  refine ⟨bufferEvents len.toNat base { s with lifecycle := .busy } ++ [.rsp .ok], ?_, ?_⟩
  · rw [transact, writeTransaction_started h]
    simp [answered, transferBuffer_trace]
  · rw [memoryAccesses_append, bufferEvents_memoryAccesses]
    exact List.append_nil _

/-- Settles O34: a WRITE of no bytes is answered at once, any other starts. -/
theorem memoryAccessesInAddressOrder : Obligations.MemoryAccessesInAddressOrder := by
  intro base len s hready hmode hfits
  by_cases hlen : len = 0
  · subst hlen
    exact write_answered_accesses_nothing (st := .ok) (by simp [writeAnswer, hready, hmode, rangeFits, base.isLt.le])
  · exact write_started_accesses_buffer (writeAnswer_none.mpr ⟨by simp [hready], hmode, hfits, hlen⟩)

/-- The addresses a command accesses: those of a WRITE's bytes, in a range that fits. -/
theorem transact_accesses_in_range (i : Instr) (s : State) :
    ∃ es, (transact i s).trace = s.trace ++ es ∧
      ∀ access ∈ memoryAccesses es, ∃ base len : Word, i = .write base len ∧
        ∃ k < len.toNat, access.2.toNat = base.toNat + k ∧ base.toNat + k < 2 ^ 32 := by
  by_cases hi : ∃ base len, i = .write base len
  · obtain ⟨base, len, rfl⟩ := hi
    cases hw : writeAnswer base len s with
    | some st =>
      obtain ⟨es, htrace, hnone⟩ := write_answered_accesses_nothing hw
      exact ⟨es, htrace, by simp [hnone]⟩
    | none =>
      obtain ⟨es, htrace, hacc⟩ := write_started_accesses_buffer hw
      obtain ⟨-, -, hfits, -⟩ := writeAnswer_none.mp hw
      refine ⟨es, htrace, fun access haccess => ⟨base, len, rfl, ?_⟩⟩
      rw [hacc, List.mem_flatMap] at haccess
      obtain ⟨k, hk, haccess⟩ := haccess
      have hk : k < len.toNat := List.mem_range.mp hk
      have haddr : access.2 = base + BitVec.ofNat 32 k := by
        rcases List.mem_pair.mp haccess with rfl | rfl <;> rfl
      exact ⟨k, hk, by rw [haddr, toNat_add_of_fits hfits hk], by omega⟩
  · push Not at hi
    obtain ⟨es, htrace, hnone⟩ := transact_accesses_nothing hi s
    exact ⟨es, htrace, by simp [hnone]⟩

/-- Settles O19: the range check refuses what does not fit, so neither an access of a transaction nor an address shown in a
tick wraps. -/
theorem writeRangeNeverWraps : Obligations.WriteRangeNeverWraps := by
  refine ⟨fun base len s hready hmode hwrap => ?_, transact_accesses_in_range, fun s a hinv ha => ?_⟩
  · have hrefused : writeAnswer base len s = some .invalidArgument := by
      simpa [writeAnswer, hready, hmode, rangeFits] using hwrap
    exact congrArg Host.Outcome.next (writeAccept_answered hrefused)
  · obtain ⟨hb, -, rfl⟩ := memAddr_eq_some_iff.mp ha
    obtain ⟨hlt, hfits⟩ := hinv.position hb
    exact ⟨hlt, hinv.flightAddress_toNat hb, by omega⟩

/-! ### The stores of a tick -/

/-- No command stores in its accept tick: the bytes of a WRITE are stored in the ticks after it (44 R110). -/
theorem exec_sameMemory {i : Instr} {s t : State} (h : exec i s = .next t) : SameMemory s t := by
  cases i with
  | setmode m =>
    obtain ⟨-, -, -, -, -, hmem, -⟩ := setmodeFrame m s t h
    exact hmem
  | destroy =>
    obtain ⟨-, -, -, -, -, hmem⟩ := destroyFrame s t h
    exact hmem
  | write base len =>
    obtain rfl : writeAccept base len s = t := Host.Outcome.next.inj h
    cases hw : writeAnswer base len s with
    | some st => rw [writeAccept_answered hw]; exact fun _ => rfl
    | none => rw [writeAccept_started hw]; exact fun _ => rfl
  | _ =>
    obtain ⟨-, -, -, hmem, -⟩ := countSettersFrame _ s t (by simp [reservedCommands]) h
    exact hmem

/-- STORE gives the byte in flight the value received (44 R110). -/
theorem seqTick_byteAt_flightAddress {s : State} (hq : s.seq = .store) (hm : s.mem.wf = true) :
    (seqTick s).byteAt s.flightAddress = s.rxAcc := by
  rw [State.byteAt, seqTick_mem, if_pos hq]
  exact Memory.read_write_same hm _ _

/-- A tick of the sequencer that changes a byte is a STORE of it. -/
theorem store_of_seqTick_byteAt_ne {s : State} {a : Word} (h : (seqTick s).byteAt a ≠ s.byteAt a) :
    s.seq = .store ∧ a = s.flightAddress := by
  by_contra hne
  exact h (seqTick_byteAt s (not_and_or.mp hne))

/-- Settles O46, by what a tick can be: of the four only a STORE and a store of the host write the memory. -/
theorem memoryChangesOnlyByStores : Obligations.MemoryChangesOnlyByStores := by
  intro s t hs a hne
  rcases step_cases hs with ⟨-, rfl⟩ | ⟨hr, -, ⟨hb, -, rfl⟩ | ⟨hb, hhost⟩⟩
  · exact absurd rfl hne
  · obtain ⟨hq, rfl⟩ := store_of_seqTick_byteAt_ne (s := s.nextInputs) hne
    exact ⟨hr, .inl ⟨hb, hq, rfl, memAddr_eq_some_iff.mpr ⟨hb, .inr hq, rfl⟩,
      seqTick_byteAt_flightAddress (s := s.nextInputs) hq⟩⟩
  · rcases hhost with ⟨w, rest, -, hx⟩ | ⟨b, v, rest, hmove, rfl⟩ | ⟨-, -, rfl⟩
    · exact absurd (exec_sameMemory hx a) hne
    · obtain rfl : a = b := by
        by_contra hab
        exact hne (Memory.read_write_of_ne v (mt BitVec.eq_of_toNat_eq hab))
      exact ⟨hr, .inr ⟨hb, v, rest, hmove, fun hm => Memory.read_write_same hm _ _⟩⟩
    · exact absurd rfl hne

end Sys2Proof.Machine

namespace Sys2Proof

/-! ## The encoding

The decoder inverts the encoder; the other way round the encoder gives back the bits that are read of a decoded word, so a word
means a command exactly where these bits agree. -/

theorem decodeWord_encode (i : Instr) : decodeWord (encode i) = i := by
  cases i <;> simp [encode, decodeWord, opField_packFields, arg0Field_packFields, arg1Field_packFields]

theorem decode_toNat (w : CommandWord) : decode w.toNat = .ok (decodeWord w) := by
  rw [decode, if_pos w.isLt, BitVec.ofNat_toNat, BitVec.setWidth_eq]

/-- Settles O1, by the fields the encoder packs. -/
theorem decodeOfEncodeIsTheCommand : Obligations.DecodeOfEncodeIsTheCommand := by
  intro i
  rw [decode_toNat, decodeWord_encode]

/-- Every value of `op` is the row of that number (30 R59, R60). -/
theorem opNumber_decodeWord (w : CommandWord) : opNumber (decodeWord w) = (opField w).toNat := by
  have hlt := (opField w).isLt
  unfold decodeWord
  split
  case h_16 => simp only [opNumber, imp_false] at *; omega
  all_goals exact Eq.symm ‹_›

/-- The bits a command reads depend on its `op` alone. -/
def bitsReadOfOp : Nat → CommandWord
  | 0x1 | 0x2 | 0x3 => packFields 0xF#4 0xFFFFFFFF#32 0
  | 0x4             => packFields 0xF#4 0xFFFFFFFF#32 0xFFFFFFFF#32
  | _               => packFields 0xF#4 0 0

theorem bitsRead_eq (i : Instr) : bitsRead i = bitsReadOfOp (opNumber i) := by
  cases i <;> rfl

/-- A mask of operand bits leaves `op` whole. -/
theorem and_fieldMask (w : CommandWord) (m n : Word) :
    w &&& packFields 0xF#4 m n = packFields (opField w) (arg0Field w &&& m) (arg1Field w &&& n) := by
  conv_lhs => rw [← packFields_fields w, packFields_and]
  congr 1
  exact BitVec.and_allOnes

/-- Encoding a decoded word clears the bits that were not read (30 R58). -/
theorem encode_decodeWord (w : CommandWord) : encode (decodeWord w) = w &&& bitsRead (decodeWord w) := by
  have hop : opField w = BitVec.ofNat 4 (opNumber (decodeWord w)) := by
    rw [opNumber_decodeWord, BitVec.ofNat_toNat, BitVec.setWidth_eq]
  have hall (a : Word) : a &&& 0xFFFFFFFF#32 = a := BitVec.and_allOnes
  revert hop
  unfold decodeWord
  split <;> intro hop <;> simp [encode, bitsRead, and_fieldMask, hop, opNumber, hall]

theorem opField_encode (i : Instr) : (opField (encode i)).toNat = opNumber i := by
  rw [← opNumber_decodeWord, decodeWord_encode]

/-- The bits that are read tell two commands apart: their `op` decides which bits these are, and on them the encoder is
injective. -/
theorem decodeWord_of_bitsRead_agree {i : Instr} {w : CommandWord} (h : w &&& bitsRead i = encode i) :
    decodeWord w = i := by
  have hop : opNumber (decodeWord w) = opNumber i := by
    have hfield : opField (w &&& bitsRead i) = opField w := by
      cases i <;> simp only [bitsRead, and_fieldMask, opField_packFields]
    rw [opNumber_decodeWord, ← hfield, h, opField_encode]
  have hencode : encode (decodeWord w) = encode i := by
    rw [encode_decodeWord, bitsRead_eq, hop, ← bitsRead_eq, h]
  exact Function.LeftInverse.injective decodeWord_encode hencode

/-- Settles O2: a decoded word agrees with its encoding by `encode_decodeWord`, and the bits read decide the command. -/
theorem wordMeansCommandIffBitsReadAgree : Obligations.WordMeansCommandIffBitsReadAgree := by
  intro i w
  constructor
  · rintro rfl
    exact (encode_decodeWord w).symm
  · exact decodeWord_of_bitsRead_agree

/-- A row of the opcode map, with its word written as a number (30 R56). -/
theorem decode_row {op : BitVec 4} {a b : Word} {i : Instr} (h : decodeWord (packFields op a b) = i) :
    decode (op.toNat * 2 ^ 64 + a.toNat * 2 ^ 32 + b.toNat) = .ok i := by
  rw [← packFields_toNat, decode_toNat, h]

/-- Settles O3, row by row. -/
theorem opcodeMapOnNumbers : Obligations.OpcodeMapOnNumbers := by
  intro a b
  refine ⟨decode_row (op := 0x0#4) ?_, decode_row (op := 0x1#4) ?_, decode_row (op := 0x2#4) ?_,
    decode_row (op := 0x3#4) ?_, decode_row (op := 0x4#4) ?_, decode_row (op := 0x5#4) ?_, decode_row (op := 0x6#4) ?_,
    decode_row (op := 0x7#4) ?_, decode_row (op := 0x8#4) ?_, decode_row (op := 0x9#4) ?_, decode_row (op := 0xA#4) ?_,
    decode_row (op := 0xB#4) ?_, decode_row (op := 0xC#4) ?_, decode_row (op := 0xD#4) ?_, decode_row (op := 0xE#4) ?_,
    decode_row (op := 0xF#4) ?_⟩ <;>
  simp [decodeWord, opField_packFields, arg0Field_packFields, arg1Field_packFields]

/-- Settles O4: each word is a number, which the decoder evaluates. -/
theorem exampleWordsDecode : Obligations.ExampleWordsDecode := by
  exact ⟨rfl, rfl, rfl, rfl, rfl, rfl, rfl, rfl, rfl, rfl, rfl, rfl, rfl⟩

end Sys2Proof

namespace Sys2Proof.Machine

/-! ### Source lines -/

theorem operand_toNat {n : Nat} (h : fitsOperand n = true) : (BitVec.ofNat 32 n).toNat = n :=
  (BitVec.toNat_ofNat n 32).trans (Nat.mod_eq_of_lt (of_decide_eq_true h))

theorem packFields_arg1_ignored (op : BitVec 4) (a : Word) : (packFields op a 0).toNat % 2 ^ 32 = 0 := by
  rw [← arg1Field_toNat, arg1Field_packFields]
  rfl

/-- Settles O5: a line's word is the encoding of its command, which the decoder inverts. -/
theorem sourceLineGivesItsCommand : Obligations.SourceLineGivesItsCommand := by
  refine ⟨fun hz h => ?_, fun m h => ?_, fun us h => ?_, fun base len h => ?_, ?_, fun n h => ?_, rfl, rfl,
    fun _ _ => rfl, fun _ _ _ => rfl⟩
  · exact ⟨_, _, operand_toNat h, rfl, decodeWord_encode _, packFields_arg1_ignored _ _⟩
  · exact ⟨_, _, operand_toNat h, rfl, decodeWord_encode _, packFields_arg1_ignored _ _⟩
  · exact ⟨_, _, operand_toNat h, rfl, decodeWord_encode _, packFields_arg1_ignored _ _⟩
  · obtain ⟨hbase, hlen⟩ := Bool.and_eq_true_iff.mp h
    exact ⟨_, _, _, operand_toNat hbase, operand_toNat hlen, rfl, decodeWord_encode _⟩
  · exact ⟨_, rfl, decodeWord_encode .destroy, rfl⟩
  · exact ⟨_, (BitVec.toNat_ofNat n 68).trans (Nat.mod_eq_of_lt (of_decide_eq_true h)), rfl⟩

/-! ### Reserved ops -/

theorem mem_reservedCommands_iff (i : Instr) : i ∈ reservedCommands ↔ opNumber i = 0 ∨ 6 ≤ opNumber i := by
  cases i <;> simp [reservedCommands, opNumber]

theorem exec_reserved {i : Instr} (hi : i ∈ reservedCommands) (s : State) : exec i s = .next (reservedEffect s) := by
  cases i with
  | setfreq | setmode | setdelay | write | destroy => simp [reservedCommands] at hi
  | _ => rfl

/-- Settles O15, by the `op` of a decoded word and the one effect of the reserved commands. -/
theorem reservedOpsAnswerInvalidArgument : Obligations.ReservedOpsAnswerInvalidArgument := by
  refine ⟨fun w => ?_, fun i hi s => ⟨fun hready => ?_, fun hreleased => ?_⟩⟩
  · rw [mem_reservedCommands_iff, opNumber_decodeWord]
  · rw [exec_reserved hi, reservedEffect_live (by simp [hready])]
  · rw [exec_reserved hi, reservedEffect_released hreleased]

/-! ## The command port -/

/-- Where the block is ready, a command at the head of the host's moves is accepted (30 R57, 44 R103). -/
theorem step_command {s : State} {w : CommandWord} {rest : List HostMove} (h0 : s.hasReset = true)
    (hb : s.lifecycle ≠ .busy) (hr : s.rstAsserted = false) (hw : s.hostInput = .cmd w :: rest) :
    step s = exec (decodeWord w) (s.accepted rest) := by
  simp [step, tickAction, hr, h0, hb, hw, hostTick, State.accepted]

theorem presentCommand_rstAsserted (s : State) (w : CommandWord) : (s.presentCommand w).rstAsserted = false := by
  rw [State.rstAsserted, State.presentCommand]
  cases s.rstInput <;> rfl

theorem withoutReset_tail (levels : List Level) : (withoutReset levels).tail = levels.tail := by
  cases levels <;> rfl

theorem decodeTableWord_eq_some {nbits w : Nat} {i : Instr} (h : decodeTableWord nbits w = some i) :
    decodeWord (BitVec.ofNat 68 (tableBits nbits w)) = i := by
  unfold decodeTableWord decode at h
  by_cases hw : tableBits nbits w < 2 ^ 68
  · rw [if_pos hw] at h
    exact Option.some.inj h
  · rw [if_neg hw] at h
    nomatch h

/-- Settles O38: a presented word is accepted, and `withFetchWord` presents the row's word with `rst` 0. -/
theorem stepRunsTheDecodedCommand : Obligations.StepRunsTheDecodedCommand := by
  refine ⟨fun s w rest h0 hb hr hw => step_command h0 hb hr hw, fun s nbits w i h0 hb hi => ?_⟩
  have hstep : step (s.withFetchWord nbits w) = exec i ((s.withFetchWord nbits w).accepted s.hostInput) := by
    rw [← decodeTableWord_eq_some hi]
    exact step_command h0 hb (presentCommand_rstAsserted s _) rfl
  rw [hstep, ← withoutReset_tail]
  rfl

theorem answered_hostInput (s : State) (st : Status) : (answered s st).hostInput = s.hostInput := rfl

/-- A command does not touch what the host does next. -/
theorem exec_hostInput {i : Instr} {s t : State} (h : exec i s = .next t) : t.hostInput = s.hostInput := by
  rcases exec_cases h with ⟨st, rfl, -⟩ | ⟨hz, -, -, rfl⟩ | ⟨us, -, -, rfl⟩ | ⟨m, -, -, -, rfl⟩ | ⟨m, -, -, -, rfl⟩ |
    ⟨-, -, rfl⟩ | ⟨base, len, -, -, rfl⟩
  case inr.inr.inr.inr.inr.inr => rfl
  all_goals exact answered_hostInput _ _

theorem cmdReady_iff (s : State) : cmdReady s = true ↔ s.lifecycle ≠ .busy ∧ s.rstAsserted = false := by
  simp [cmdReady]

/-- Settles O39, by what a step can be: only the accept tick takes the command, and it is the one with `cmd_ready`. -/
theorem heldCommandWaitsForReady : Obligations.HeldCommandWaitsForReady := by
  intro s t w rest hw hs
  have hpass : passTick s.hostInput = .cmd w :: rest := by rw [hw]; rfl
  refine ⟨cmdReady_iff s, ?_⟩
  rcases step_cases hs with ⟨hr, rfl⟩ | ⟨hr, -, ⟨hb, -, rfl⟩ | ⟨hb, hhost⟩⟩
  · have hheld : cmdReady s = false := by simp [cmdReady, hr]
    exact ⟨by simp [hheld], fun _ => hpass⟩
  · have hheld : cmdReady s = false := by simp [cmdReady, hb]
    exact ⟨by simp [hheld], fun _ => by rw [seqTick_hostInput]; exact hpass⟩
  · have hready : cmdReady s = true := (cmdReady_iff s).mpr ⟨hb, hr⟩
    refine ⟨fun _ => ?_, by simp [hready]⟩
    rcases hhost with ⟨w', rest', hw', hx⟩ | ⟨a, v, rest', hmove, -⟩ | ⟨hnone, -⟩
    · obtain ⟨-, rfl⟩ := List.cons.inj (hw.symm.trans hw')
      exact exec_hostInput hx
    · simp [hw] at hmove
    · exact absurd hw (hnone w rest)

/-! ## Responses -/

/-- A response presented is the last event of the trace, and `last_status` its status: the clause `presented` of `Inv`, which a
step gives from any state, one outside `Inv` too. -/
def State.Presents (s : State) : Prop := s.rspValid = true → s.trace.getLast? = some (.rsp s.lastStatus)

theorem answered_presents (s : State) (st : Status) : (answered s st).Presents := fun _ => List.getLast?_concat

/-- Every command ends in one answer, and what it does before holds no response (30 R61). -/
theorem transact_answers (i : Instr) (s : State) :
    ∃ u es st, transact i s = answered u st ∧ u.trace = s.trace ++ es ∧ responses es = [] := by
  by_cases hi : ∃ base len, i = .write base len
  · obtain ⟨base, len, rfl⟩ := hi
    cases hw : writeAnswer base len s with
    | some st => exact ⟨s, [], st, writeTransaction_answered hw, (List.append_nil _).symm, rfl⟩
    | none =>
      obtain ⟨-, -, -, hnone⟩ := bufferEvents_counts len.toNat base { s with lifecycle := .busy }
      exact ⟨_, _, .ok, writeTransaction_started hw, transferBuffer_trace _ _ _, hnone⟩
  · push Not at hi
    rcases exec_cases (exec_eq_transact hi s) with ⟨st, ht, -⟩ | ⟨hz, -, -, ht⟩ | ⟨us, -, -, ht⟩ | ⟨m, -, -, -, ht⟩ |
      ⟨m, -, -, -, ht⟩ | ⟨-, -, ht⟩ | ⟨base, len, hw, -⟩
    · exact ⟨_, [], _, ht, (List.append_nil _).symm, rfl⟩
    · exact ⟨_, [], _, ht, (List.append_nil _).symm, rfl⟩
    · exact ⟨_, [], _, ht, (List.append_nil _).symm, rfl⟩
    · exact ⟨_, _, _, ht, rfl, rfl⟩
    · exact ⟨_, [], _, ht, (List.append_nil _).symm, rfl⟩
    · exact ⟨_, _, _, ht, rfl, rfl⟩
    · exact absurd hw (hi base len)

/-- Settles O35: every command ends as `answered` does. -/
theorem everyCommandRespondsOnceAtItsEnd : Obligations.EveryCommandRespondsOnceAtItsEnd := by
  intro i s
  obtain ⟨u, es, st, hanswered, htrace, hnone⟩ := transact_answers i s
  rw [hanswered]
  exact ⟨es, st, by rw [← htrace]; rfl, hnone, rfl, rfl⟩

/-- A command that completes in its accept tick presents its response; one that starts presents none. -/
theorem exec_presents {i : Instr} {s t : State} (hv : s.rspValid = false) (h : exec i s = .next t) : t.Presents := by
  rcases exec_cases h with ⟨st, rfl, -⟩ | ⟨hz, -, -, rfl⟩ | ⟨us, -, -, rfl⟩ | ⟨m, -, -, -, rfl⟩ | ⟨m, -, -, -, rfl⟩ |
    ⟨-, -, rfl⟩ | ⟨base, len, -, -, rfl⟩
  case inr.inr.inr.inr.inr.inr => exact fun hv' => absurd (hv.symm.trans hv') nofun
  all_goals exact answered_presents _ _

theorem seqTick_presents {s : State} (hv : s.rspValid = false) : (seqTick s).Presents := by
  intro hv'
  rcases seqTick_completes s with ⟨-, hkept, -⟩ | ⟨-, -, hlast, -, -, htrace, -⟩
  · exact absurd (hv'.symm.trans (hkept.trans hv)) nofun
  · rw [htrace, hlast]

/-- A response is presented only by the completion in the step before (44 R104). -/
theorem step_presents {s t : State} (h : step s = .next t) : t.Presents := by
  rcases step_cases h with ⟨-, rfl⟩ | ⟨-, -, ⟨-, -, rfl⟩ | ⟨-, ⟨w, rest, -, hx⟩ | ⟨a, v, rest, -, rfl⟩ | ⟨-, -, rfl⟩⟩⟩
  · exact nofun
  · exact seqTick_presents rfl
  · exact exec_presents rfl hx
  · exact nofun
  · exact nofun

theorem rspStatus_eq_some_iff {s : State} {c : BitVec 2} :
    rspStatus s = some c ↔ s.rspValid = true ∧ s.lastStatus.code = c := by
  simp [rspStatus]

/-- Settles O60, by the response a step presents and the numbers of the statuses. -/
theorem responsePortCarriesTheStatusNumber : Obligations.ResponsePortCarriesTheStatusNumber := by
  intro s t hs
  refine ⟨fun c hc => ?_, ?_⟩
  · obtain ⟨hv, rfl⟩ := rspStatus_eq_some_iff.mp hc
    exact ⟨rfl, t.lastStatus, step_presents hs hv, t.lastStatus.code_iff⟩
  · simp [outputs, rspStatus]

end Sys2Proof.Machine

namespace Sys2Proof.Machine

/-! ## Calibration

Both counts are one rounding, of a quotient with an even divisor. A command that sets a count sets it to the conversion of its
operand, and the conversion reads of the state only LPS. -/

/-- A quotient with the divisor `2 * d` is rounded half up by adding `d` before the integer division (92 D6). -/
theorem floor_div_add_half (m : Nat) {d : Nat} (hd : d ≠ 0) : ⌊(m : ℚ) / (2 * d) + 1 / 2⌋₊ = (m + d) / (2 * d) := by
  have hd' : (d : ℚ) ≠ 0 := Nat.cast_ne_zero.mpr hd
  have hsum : (m : ℚ) / (2 * d) + 1 / 2 = ((m + d : Nat) : ℚ) / ((2 * d : Nat) : ℚ) := by
    push_cast
    field_simp
  rw [hsum, Nat.floor_div_eq_div]

theorem halfPeriod_zero (lps : Nat) : halfPeriod lps 0 = 1 := if_pos rfl

theorem halfPeriod_of_ne_zero (lps : Nat) {f : Nat} (hf : f ≠ 0) :
    halfPeriod lps f = max 1 ((lps + f) / (2 * f)) := if_neg hf

/-- Settles O6: off 0 the count is the rounded quotient, clamped; its range is that of `halfPeriod_pos` and `halfPeriod_le`. -/
theorem halfPeriodRoundsHalfUp : Obligations.HalfPeriodRoundsHalfUp := by
  intro lps f _ hlps _
  refine ⟨?_, halfPeriod_of_ne_zero lps, fun hf => ?_, halfPeriod_pos lps f, halfPeriod_le hlps f⟩
  · rintro rfl
    exact halfPeriod_zero lps
  · rw [halfPeriod_of_ne_zero lps hf, floor_div_add_half lps hf]

theorem interByte_zero (lps : Nat) : interByte lps 0 = 0 := by simp [interByte]

theorem interByte_eq_floor (lps us : Nat) : interByte lps us = ⌊(us : ℚ) / 1000000 * lps + 1 / 2⌋₊ := by
  have hquotient : (us : ℚ) / 1000000 * lps = ((us * lps : Nat) : ℚ) / (2 * (500000 : Nat)) := by
    push_cast
    ring
  rw [hquotient, floor_div_add_half (us * lps) (by decide)]
  rfl

/-- Two 32-bit factors have a product of 64 bits (40 R67). -/
theorem mul_lt_of_words {a b : Nat} (ha : a < 2 ^ 32) (hb : b < 2 ^ 32) : a * b < 2 ^ 64 - 2 ^ 33 + 2 := by
  have hle : a * b ≤ (2 ^ 32 - 1) * (2 ^ 32 - 1) := Nat.mul_le_mul (by omega) (by omega)
  omega

/-- Settles O7, by the same rounding with the divisor 10^6 and the size of the product. -/
theorem interByteRoundsHalfUp : Obligations.InterByteRoundsHalfUp := fun lps us _ hlps hus =>
  ⟨rfl, interByte_eq_floor lps us, interByte_lt hlps hus, mul_lt_of_words hus hlps, interByte_zero lps⟩

/-- Settles O8, by the ranges of the two conversions. -/
theorem countsFitTheirRegisters : Obligations.CountsFitTheirRegisters := fun c x =>
  ⟨halfPeriodFor_toNat c x, interbyteFor_toNat c x⟩

theorem exec_setfreq_live {s : State} (h : s.lifecycle ≠ .released) (hz : Word) :
    exec (.setfreq hz) s =
      .next (answered { s with frequency := hz, halfPeriodCount := halfPeriodFor s.config hz } .ok) :=
  congrArg Host.Outcome.next (setfreqEffect_live h hz)

theorem exec_setdelay_live {s : State} (h : s.lifecycle ≠ .released) (us : Word) :
    exec (.setdelay us) s = .next (answered { s with interbyteDelayCount := interbyteFor s.config us } .ok) :=
  congrArg Host.Outcome.next (setdelayEffect_live h us)

theorem State.not_released_of_ready {s : State} (h : s.lifecycle = .ready) : s.lifecycle ≠ .released := by simp [h]

/-- Settles O10: a ready block answers SETFREQ as any block not released does, with the count of 40 R66. -/
theorem setfreqStoresFrequencyAndCount : Obligations.SetfreqStoresFrequencyAndCount := fun hz s hready =>
  ⟨halfPeriodFor s.config hz, halfPeriodFor_toNat s.config hz, exec_setfreq_live (State.not_released_of_ready hready) hz⟩

/-- Settles O11: a ready block answers SETDELAY as any block not released does, with the count of 40 R67. -/
theorem setdelayStoresCount : Obligations.SetdelayStoresCount := fun us s hready =>
  ⟨interbyteFor s.config us, interbyteFor_toNat s.config us, exec_setdelay_live (State.not_released_of_ready hready) us⟩

theorem halfPeriodFor_congr {c c' : Config} (h : c.loopsPerSecond = c'.loopsPerSecond) (hz : Word) :
    halfPeriodFor c hz = halfPeriodFor c' hz := by
  simp only [halfPeriodFor, h]

theorem interbyteFor_congr {c c' : Config} (h : c.loopsPerSecond = c'.loopsPerSecond) (us : Word) :
    interbyteFor c us = interbyteFor c' us := by
  simp only [interbyteFor, h]

/-- What SETFREQ leaves for the next SETFREQ: the count of its operand, in a block still ready with the same LPS. -/
theorem exec_setfreq_ready {hz : Word} {s t : State} (hready : s.lifecycle = .ready)
    (h : exec (.setfreq hz) s = .next t) :
    t.halfPeriodCount = halfPeriodFor s.config hz ∧ t.lifecycle = .ready ∧ t.config = s.config := by
  rw [exec_setfreq_live (State.not_released_of_ready hready)] at h
  obtain rfl := Host.Outcome.next.inj h
  exact ⟨rfl, hready, rfl⟩

theorem exec_setdelay_ready {us : Word} {s t : State} (hready : s.lifecycle = .ready)
    (h : exec (.setdelay us) s = .next t) : t.interbyteDelayCount = interbyteFor s.config us := by
  rw [exec_setdelay_live (State.not_released_of_ready hready)] at h
  obtain rfl := Host.Outcome.next.inj h
  rfl

/-- Settles O9: each count is the conversion of the operand, which is the same for the same LPS and never 0 for SETFREQ. -/
theorem countsDependOnOperandAndLps : Obligations.CountsDependOnOperandAndLps := by
  intro x s s' t t' u hready hready' hlps
  refine ⟨fun ht ht' hu => ?_, fun ht ht' => ?_⟩
  · obtain ⟨hcount, htready, hconfig⟩ := exec_setfreq_ready hready ht
    obtain ⟨hcount', -⟩ := exec_setfreq_ready hready' ht'
    obtain ⟨hrepeat, -⟩ := exec_setfreq_ready htready hu
    refine ⟨?_, ?_, ?_⟩
    · rw [hcount, hcount', halfPeriodFor_congr hlps]
    · rw [hrepeat, hcount, hconfig]
    · rw [hcount, halfPeriodFor_toNat]
      exact halfPeriod_pos _ _
  · rw [exec_setdelay_ready hready ht, exec_setdelay_ready hready' ht', interbyteFor_congr hlps]

end Sys2Proof.Machine

namespace Sys2Proof.Machine

/-! ## The mode state machine

A legal operand is the number of the mode it selects, so `cpol`, which is the mode's high bit, is 1 from 2 on. -/

theorem cpolOf_iff : ∀ mode : BitVec 2, cpolOf mode = true ↔ mode = 2 ∨ mode = 3 := by decide

/-- The high bit of a two-bit number is 1 from 2 on (41 R75). -/
theorem cpolOf_eq_decide : ∀ mode : BitVec 2, cpolOf mode = decide (2 ≤ mode.toNat) := by decide

/-- `cpha` names the drive-first family and nothing more (41 R77). -/
theorem driveFirst_eq_cphaOf (mode : BitVec 2) : driveFirst mode = cphaOf mode := rfl

theorem mode_eq_cpolOf_append_not_cphaOf :
    ∀ mode : BitVec 2, mode = BitVec.ofBool (cpolOf mode) ++ BitVec.ofBool (!cphaOf mode) := by decide

/-- Settles O27, by the two bits of a mode; the family is `cpha`. -/
theorem modeIsCpolAndNotCpha : Obligations.ModeIsCpolAndNotCpha := by
  intro mode
  refine ⟨cpolOf_iff mode, cphaOf_iff mode, mode_eq_cpolOf_append_not_cphaOf mode, ?_⟩
  rw [driveFirst_eq_cphaOf]
  exact cphaOf_iff mode

theorem modeBits_toNat {m : Word} (hm : m.toNat ≤ 3) : (modeBits m).toNat = m.toNat := by
  rw [modeBits, BitVec.extractLsb'_toNat, Nat.shiftRight_zero]
  exact Nat.mod_eq_of_lt (by omega)

theorem cpolOf_modeBits {m : Word} (hm : m.toNat ≤ 3) : cpolOf (modeBits m) = decide (2 ≤ m.toNat) := by
  rw [cpolOf_eq_decide, modeBits_toNat hm]

theorem exec_setmode_legal {s : State} (h : s.lifecycle ≠ .released) {m : Word} (hm : m.toNat ≤ 3) :
    exec (.setmode m) s = .next (answered
      { s with
        mode := modeBits m, cpol := cpolOf (modeBits m), modeValid := true, sck := cpolOf (modeBits m),
        trace := s.trace ++ [.sckW (cpolOf (modeBits m))] } .ok) :=
  congrArg Host.Outcome.next (setmodeEffect_legal h hm)

theorem exec_setmode_illegal {s : State} (h : s.lifecycle ≠ .released) {m : Word} (hm : 3 < m.toNat) :
    exec (.setmode m) s = .next (answered { s with modeValid := false } .invalidMode) :=
  congrArg Host.Outcome.next (setmodeEffect_illegal h hm)

/-- Settles O12: a ready block answers SETMODE as any block not released does, on either side of the operand 3. -/
theorem setmodeSelectsOrRefuses : Obligations.SetmodeSelectsOrRefuses := by
  intro m s hready
  have hlive := State.not_released_of_ready hready
  refine ⟨fun hm => ⟨modeBits m, modeBits_toNat hm, ?_⟩, fun hm => exec_setmode_illegal hlive hm⟩
  rw [exec_setmode_legal hlive hm, cpolOf_modeBits hm]
  simp [answered]

theorem sckPin_of_enabled {s : State} (h : s.sckOe = true) : sckPin s = some s.sck := if_pos h

/-- Settles O13: a legal SETMODE writes the level of `cpol` to SCK, and the pin shows it where it is enabled. -/
theorem sckIdlesAtCpolAfterSetmode : Obligations.SckIdlesAtCpolAfterSetmode := fun _ _ hready hsckOe hm =>
  ⟨_, exec_setmode_legal (State.not_released_of_ready hready) hm, sckPin_of_enabled hsckOe, rfl⟩

end Sys2Proof.Machine

namespace Sys2Proof.Machine

/-! ## Transfers

A WRITE that passes its checks is followed at the transaction level by the events and the memory of `transferBuffer`; its ticks
reach the same state (`reaches_buffer`), so what is said of one level is said of the other. -/

/-! ### The answer and the accept tick of a WRITE -/

theorem writeAnswer_released {s : State} (h : s.lifecycle = .released) (base len : Word) :
    writeAnswer base len s = some .released := if_pos h

theorem writeAnswer_invalidMode {s : State} (h : s.lifecycle ≠ .released) (hmode : s.modeValid = false)
    (base len : Word) : writeAnswer base len s = some .invalidMode := by
  simp [writeAnswer, h, hmode]

theorem writeAnswer_invalidArgument {s : State} (h : s.lifecycle ≠ .released) (hmode : s.modeValid = true)
    {base len : Word} (hwrap : 2 ^ 32 < base.toNat + len.toNat) :
    writeAnswer base len s = some .invalidArgument := by
  simpa [writeAnswer, h, hmode, rangeFits] using hwrap

theorem writeAnswer_empty {s : State} (h : s.lifecycle ≠ .released) (hmode : s.modeValid = true) (base : Word) :
    writeAnswer base 0 s = some .ok := by
  simp [writeAnswer, h, hmode, rangeFits, base.isLt.le]

theorem exec_write_answered {base len : Word} {s : State} {st : Status} (h : writeAnswer base len s = some st) :
    exec (.write base len) s = .next (answered s st) :=
  congrArg Host.Outcome.next (writeAccept_answered h)

/-- Settles O17, by the answer of each failed check. -/
theorem writeChecksInOrder : Obligations.WriteChecksInOrder := fun base len _ =>
  ⟨fun hreleased => exec_write_answered (writeAnswer_released hreleased base len),
    fun hready hmode => exec_write_answered (writeAnswer_invalidMode (State.not_released_of_ready hready) hmode base len),
    fun hready hmode hwrap =>
      exec_write_answered (writeAnswer_invalidArgument (State.not_released_of_ready hready) hmode hwrap)⟩

/-- Settles O18, by the answers of an empty WRITE. -/
theorem emptyWriteOnlyResponds : Obligations.EmptyWriteOnlyResponds := fun base _ hready =>
  ⟨fun hmode => exec_write_answered (writeAnswer_empty (State.not_released_of_ready hready) hmode base),
    fun hmode => exec_write_answered (writeAnswer_invalidMode (State.not_released_of_ready hready) hmode base 0)⟩

/-- Settles O24: the accept tick answers, or sets `lifecycle` and the sequencer's registers of 44 R105. -/
theorem writeAcceptFrame : Obligations.WriteAcceptFrame := by
  intro base len s t hx
  obtain rfl : writeAccept base len s = t := Host.Outcome.next.inj hx
  cases hw : writeAnswer base len s with
  | some st =>
    rw [writeAccept_answered hw]
    simp [SameConfiguration, SamePins, SameInputs, SameMemory, State.byteAt, answered]
  | none =>
    rw [writeAccept_started hw]
    simp [SameConfiguration, SamePins, SameInputs, SameMemory, State.byteAt]

/-! ### One bit -/

theorem driveFirst_eq_false_iff : ∀ mode : BitVec 2, driveFirst mode = false ↔ mode = 1 ∨ mode = 3 := by decide

theorem bitEvents_driveFirst {mode : BitVec 2} (h : driveFirst mode = true) (cpol : Level) (n : Nat) (b r : Level) :
    bitEvents mode cpol n b r = [.mosiW b, .wait n, .misoR r, .sckW (!cpol), .wait n, .sckW cpol] := if_pos h

theorem bitEvents_clockFirst {mode : BitVec 2} (h : driveFirst mode = false) (cpol : Level) (n : Nat) (b r : Level) :
    bitEvents mode cpol n b r = [.sckW (!cpol), .mosiW b, .wait n, .sckW cpol, .misoR r, .wait n] :=
  if_neg (by simp [h])

theorem transferBit_trace (b : Level) (s : State) :
    (transferBit b s).2.trace = s.trace ++ bitEvents s.mode s.cpol s.halfPeriodTicks b s.misoLevel := by
  rw [transferBit_eq]
  rfl

/-- Settles O28, by the six events of a bit in either family. -/
theorem bitEventsInOrder : Obligations.BitEventsInOrder := by
  intro b s h r
  have hr : r = s.misoLevel := s.misoAt_zero
  rw [hr, transferBit_trace, transferBit_eq]
  refine ⟨rfl, rfl, rfl, fun hmode => ?_, fun hmode => ?_⟩
  · have hdrive : driveFirst s.mode = true := (cphaOf_iff s.mode).mpr hmode
    rw [bitEvents_driveFirst hdrive]
  · rw [bitEvents_clockFirst ((driveFirst_eq_false_iff s.mode).mpr hmode)]

/-! ### One byte -/

theorem transferByte_trace (o : Byte) (s : State) :
    (transferByte o s).2.trace = s.trace ++ loopEvents 8 { s with txShift := o, rxAcc := 0 } :=
  transferBits_trace 8 { s with txShift := o, rxAcc := 0 }

/-- Settles O29: the bits leave as `sentBits` takes them from the byte, and arrive as `byteOfBits` puts them into it. -/
theorem bytesTravelMsbFirst : Obligations.BytesTravelMsbFirst := by
  intro o s
  constructor
  · rw [transferByte_trace, mosiLevels_append, loopEvents_mosi, sentBits_eight]
    rfl
  · intro k hk
    rw [transferByte_fst, byteOfBits_range_getLsbD s.misoAt k hk]

/-- Eight shifts leave nothing of a byte, and seven bring its last bit to the top. -/
theorem shiftOut_iterate : ∀ o : Byte, shiftOut^[8] o = 0 ∧ (shiftOut^[7] o).msb = o.getLsbD 0 := by decide

theorem transferBits_sameConfiguration (n : Nat) (s : State) : SameConfiguration s (transferBits n s) := by
  simp [SameConfiguration]

/-- Settles O30, field by field from the laws of the loop over the bits. -/
theorem byteTransferEffect : Obligations.ByteTransferEffect := by
  intro o s t
  obtain ⟨hshift, hlast⟩ := shiftOut_iterate o
  refine ⟨⟨_, transferByte_trace o s, loopEvents_length 8 _⟩, ?_, rfl, transferBits_sck 7 _, ?_, fun k => ?_,
    transferBits_sameConfiguration 8 _, fun a => ?_⟩
  · exact (transferBits_txShift 8 _).trans hshift
  · rw [← hlast]
    exact transferBits_mosi 7 _
  · exact transferBits_misoAt 8 _ k
  · exact congrArg (Memory.read · a.toNat) (transferBits_mem 8 _)

/-! ### A WRITE, whole -/

theorem byteEvents_eq (a : Word) (s : State) :
    byteEvents a s = .memR a (s.byteAt a) ::
      (loopEvents 8 (s.beginByte a) ++ [.memW a (receivedByte s), .wait s.interbyteTicks]) := rfl

/-- The state WRITE's loop over the bytes runs from (42 R86). -/
def State.inTransfer (s : State) : State := { s with lifecycle := .busy }

/-- What WRITE's loop over the bytes and its response make of a state (42 R86). -/
def State.transferred (s : State) (base len : Word) : State :=
  answered { transferBuffer len.toNat base s.inTransfer with lifecycle := .ready } .ok

theorem transferred_trace (s : State) (base len : Word) :
    (s.transferred base len).trace = s.trace ++ (bufferEvents len.toNat base s.inTransfer ++ [.rsp .ok]) := by
  rw [← List.append_assoc]
  exact congrArg (· ++ [.rsp .ok]) (transferBuffer_trace _ _ s.inTransfer)

theorem transact_write_of_started {base len : Word} {s : State} (hw : writeAnswer base len s = none) :
    transact (.write base len) s = s.transferred base len := writeTransaction_started hw

/-- A WRITE that responds OK is its loop over the bytes and the response, with no byte too (42 R87). -/
theorem transact_write_of_fits {base len : Word} {s : State} (hready : s.lifecycle = .ready)
    (hmode : s.modeValid = true) (hfits : base.toNat + len.toNat ≤ 2 ^ 32) :
    transact (.write base len) s = s.transferred base len := by
  have hlive := State.not_released_of_ready hready
  by_cases hlen : len = 0
  · subst hlen
    rw [transact, writeTransaction_answered (writeAnswer_empty hlive hmode base)]
    exact congrArg (fun l => answered { s with lifecycle := l } .ok) hready
  · exact transact_write_of_started (writeAnswer_none.mpr ⟨hlive, hmode, hfits, hlen⟩)

/-- Each bit of a byte of the buffer is its MISO level (42 R89). -/
theorem transferBuffer_bit {n : Nat} {a : Word} {s : State} (hfits : a.toNat + n ≤ 2 ^ 32) (hm : s.mem.wf = true)
    {i k : Nat} (hi : i < n) (hk : k < 8) :
    ((transferBuffer n a s).byteAt (a + BitVec.ofNat 32 i)).getLsbD (7 - k) = s.misoAt (8 * i + k) := by
  rw [transferBuffer_byteAt_inside n a s hfits hm i hi]
  exact byteOfBits_range_getLsbD (fun k => s.misoAt (8 * i + k)) k hk

/-- Settles O31: the memory and the MOSI levels of a WRITE that responds OK are those of its loop over the bytes. -/
theorem writeExchangesTheBuffer : Obligations.WriteExchangesTheBuffer := by
  intro base len s hready hmode hm hfits
  rw [transact_write_of_fits hready hmode hfits]
  refine ⟨rfl, fun i hi k hk => ?_, fun a ha => ?_, ?_⟩
  · exact transferBuffer_bit (s := s.inTransfer) hfits hm hi hk
  · exact transferBuffer_byteAt_outside _ _ s.inTransfer hfits a ha
  · rw [transferred_trace, mosiLevels_append, mosiLevels_append, bufferEvents_mosi _ _ _ hfits]
    exact congrArg _ (List.append_nil _)

/-! ### Loopback

Every bit drives MOSI before it reads MISO, so what stood on MOSI before a list of bits does not matter. -/

theorem loopback_bitEvents {last : Option Level} {mode : BitVec 2} {cpol : Level} {n : Nat} {b r : Level}
    {rest : List Event} :
    loopback last (bitEvents mode cpol n b r ++ rest) = true ↔ b = r ∧ loopback (some b) rest = true := by
  unfold bitEvents
  split <;> simp [loopback]

/-- The bits of a loop return themselves. -/
theorem loopback_loopEvents {n : Nat} {s : State} {last : Option Level} {rest : List Event}
    (h : loopback last (loopEvents n s ++ rest) = true) :
    sentBits n s.txShift = (List.range n).map s.misoAt ∧ ∃ last', loopback last' rest = true := by
  induction n generalizing s last with
  | zero => exact ⟨rfl, last, h⟩
  | succ n ih =>
    rw [loopEvents, List.append_assoc, loopback_bitEvents] at h
    obtain ⟨hbit, hlater⟩ := h
    obtain ⟨hbits, hrest⟩ := ih hlater
    refine ⟨?_, hrest⟩
    rw [List.range_succ_eq_map, List.map_cons, List.map_map, s.misoAt_zero, sentBits, hbit]
    exact congrArg _ (hbits.trans (List.map_congr_left fun k _ => afterLoopBit_misoAt s k))

theorem byteOfBits_bitsMsbFirst : ∀ o : Byte, byteOfBits (bitsMsbFirst o) = o := by decide

/-- The byte a loop of eight bits receives on loopback is the one it sends. -/
theorem receivedByte_of_loopback {s : State} {last : Option Level} {rest : List Event}
    (h : loopback last (loopEvents 8 s ++ rest) = true) : receivedByte s = s.txShift := by
  obtain ⟨hbits, -⟩ := loopback_loopEvents h
  rw [receivedByte, ← hbits, sentBits_eight, byteOfBits_bitsMsbFirst]

/-- A byte stored over itself leaves the memory as it was. -/
theorem transferAt_sameMemory {a : Word} {s : State} (hm : s.mem.wf = true) (h : receivedByte s = s.byteAt a) :
    SameMemory s (transferAt a s) := by
  intro b
  by_cases hb : b = a
  · subst hb
    rw [State.byteAt, transferAt_mem, h]
    exact Memory.read_write_same hm _ _
  · exact transferAt_byteAt_other a b s hb

/-- On loopback the loop over the bytes leaves every byte as it was. -/
theorem transferBuffer_sameMemory_of_loopback {n : Nat} {a : Word} {s : State} {last : Option Level} {rest : List Event}
    (hm : s.mem.wf = true) (h : loopback last (bufferEvents n a s ++ rest) = true) :
    SameMemory s (transferBuffer n a s) := by
  induction n generalizing a s last with
  | zero => exact fun _ => rfl
  | succ n ih =>
    have hbits : loopback last (loopEvents 8 (s.beginByte a) ++ ([.memW a (receivedByte s), .wait s.interbyteTicks] ++
        (bufferEvents n (a + 1) (transferAt a s) ++ rest))) = true := by
      simpa [bufferEvents, byteEvents_eq, loopback] using h
    obtain ⟨-, last', hrest⟩ := loopback_loopEvents hbits
    have hbyte := transferAt_sameMemory hm (receivedByte_of_loopback hbits)
    have hm' : (transferAt a s).mem.wf = true := by
      rw [transferAt_mem]
      exact Memory.write_wf hm _ _
    intro b
    rw [transferBuffer_succ, ih hm' hrest b, hbyte b]

/-- Settles O32, by the bits of a loop on loopback, and the bytes of a buffer from them. -/
theorem loopbackReturnsWhatIsSent : Obligations.LoopbackReturnsWhatIsSent := by
  intro s es hloop
  refine ⟨fun b htrace => ?_, fun o htrace => ?_, fun base len hm htrace => ?_⟩
  · rw [transferBit_trace] at htrace
    obtain rfl := List.append_cancel_left htrace
    rw [← List.append_nil (bitEvents _ _ _ _ _), loopback_bitEvents] at hloop
    obtain ⟨hbit, -⟩ := hloop
    rw [transferBit_eq]
    exact hbit.symm
  · rw [transferByte_trace] at htrace
    obtain rfl := List.append_cancel_left htrace
    rw [← List.append_nil (loopEvents _ _)] at hloop
    exact (transferByte_fst o s).trans (receivedByte_of_loopback hloop)
  · cases hw : writeAnswer base len s with
    | some st =>
      rw [transact, writeTransaction_answered hw]
      exact fun _ => rfl
    | none =>
      rw [transact_write_of_started hw, transferred_trace] at htrace
      obtain rfl := List.append_cancel_left htrace
      rw [transact_write_of_started hw]
      exact transferBuffer_sameMemory_of_loopback (s := s.inTransfer) hm hloop

/-! ### The events, counted -/

theorem bitEvents_count_wait (mode : BitVec 2) (cpol : Level) (n : Nat) (b r : Level) :
    (bitEvents mode cpol n b r).count (.wait n) = 2 := by
  unfold bitEvents
  split <;> simp

/-- Settles O33, by the events of a bit, of a byte and of a buffer. -/
theorem eventCounts : Obligations.EventCounts := by
  refine ⟨fun b s => ?_, fun a s => ?_, fun base len s hready hmode hfits => ?_⟩
  · refine ⟨_, transferBit_trace b s, bitEvents_length _ _ _ _ _, ?_, ?_, ?_, bitEvents_count_wait _ _ _ _ _⟩
    · rw [bitEvents_sck]; rfl
    · rw [bitEvents_mosi]; rfl
    · rw [bitEvents_miso]; rfl
  · refine ⟨loopEvents 8 (s.beginByte a), receivedByte s, ?_, loopEvents_length 8 _, loopEvents_sck 8 _⟩
    rw [transferAt_trace, byteEvents_eq, List.append_assoc, List.append_assoc]
    rfl
  · obtain ⟨hsck, hmosi, hmiso, hrsp⟩ := bufferEvents_counts len.toNat base s.inTransfer
    rw [transact_write_of_fits hready hmode hfits]
    refine ⟨_, transferred_trace s base len, ?_, ?_, ?_, ?_, ?_⟩
    · rw [List.length_append, bufferEvents_length]; rfl
    · rw [sckLevels_append, List.length_append, hsck]; rfl
    · rw [mosiLevels_append, List.length_append, hmosi]; rfl
    · rw [misoLevels_append, List.length_append, hmiso]; rfl
    · rw [responses_append, hrsp]; rfl

/-- The last event of a buffer is the wait after its last byte (42 R88). -/
theorem bufferEvents_ends_with_wait (n : Nat) (a : Word) (s : State) :
    ∃ es, bufferEvents (n + 1) a s = es ++ [.wait s.interbyteTicks] := by
  induction n generalizing a s with
  | zero =>
    refine ⟨.memR a (s.byteAt a) :: (loopEvents 8 (s.beginByte a) ++ [.memW a (receivedByte s)]), ?_⟩
    simp [bufferEvents, byteEvents_eq]
  | succ n ih =>
    obtain ⟨es, hes⟩ := ih (a + 1) (transferAt a s)
    refine ⟨byteEvents a s ++ es, ?_⟩
    rw [bufferEvents, hes, List.append_assoc, State.interbyteTicks, transferAt_interbyteDelayCount]
    rfl

/-- Settles O36, by the end of a byte's events and of a buffer's. -/
theorem trailingDelayFollowsEveryByte : Obligations.TrailingDelayFollowsEveryByte := by
  refine ⟨fun a s => ?_, fun base len s hready hmode hfits hlen => ?_⟩
  · refine ⟨.memR a (s.byteAt a) :: loopEvents 8 (s.beginByte a), receivedByte s, ?_, fun b x => ?_⟩
    · rw [transferAt_trace, byteEvents_eq, List.append_assoc]
      rfl
    · simp [loopEvents_no_memW]
  · obtain ⟨n, hn⟩ : ∃ n, len.toNat = n + 1 := Nat.exists_eq_succ_of_ne_zero (by bv_omega)
    obtain ⟨es, hes⟩ := bufferEvents_ends_with_wait n base s.inTransfer
    refine ⟨es, ?_⟩
    rw [transact_write_of_fits hready hmode hfits, transferred_trace, hn, hes, List.append_assoc, List.append_assoc]
    rfl

/-! ### What a WRITE drives does not depend on what it reads -/

theorem bitEvents_ownChoice (mode : BitVec 2) (cpol : Level) (n : Nat) (b r r' : Level) :
    (bitEvents mode cpol n b r).filter Event.ownChoice = (bitEvents mode cpol n b r').filter Event.ownChoice := by
  unfold bitEvents
  split <;> rfl

theorem SameConfiguration.halfPeriodTicks {s t : State} (h : SameConfiguration s t) :
    t.halfPeriodTicks = s.halfPeriodTicks := by
  obtain ⟨-, -, -, -, hcount, -, -⟩ := h
  rw [State.halfPeriodTicks, hcount, State.halfPeriodTicks]

theorem SameConfiguration.interbyteTicks {s t : State} (h : SameConfiguration s t) :
    t.interbyteTicks = s.interbyteTicks := by
  obtain ⟨-, -, -, -, -, hcount, -⟩ := h
  rw [State.interbyteTicks, hcount, State.interbyteTicks]

/-- Two loops with one configuration that send the same bits drive alike. -/
theorem loopEvents_ownChoice {n : Nat} {s t : State} (hconfig : SameConfiguration s t) (hshift : t.txShift = s.txShift) :
    (loopEvents n t).filter Event.ownChoice = (loopEvents n s).filter Event.ownChoice := by
  induction n generalizing s t with
  | zero => rfl
  | succ n ih =>
    have hlater := ih (s := afterLoopBit s) (t := afterLoopBit t) hconfig (congrArg shiftOut hshift)
    have hticks := hconfig.halfPeriodTicks
    obtain ⟨hmode, -, hcpol, -⟩ := hconfig
    rw [loopEvents, loopEvents, List.filter_append, List.filter_append, hlater, hmode, hcpol, hshift,
      hticks, bitEvents_ownChoice _ _ _ _ t.misoLevel s.misoLevel]

theorem byteEvents_ownChoice {a : Word} {s t : State} (hconfig : SameConfiguration s t)
    (hbyte : t.byteAt a = s.byteAt a) :
    (byteEvents a t).filter Event.ownChoice = (byteEvents a s).filter Event.ownChoice := by
  have hloop := loopEvents_ownChoice (n := 8) (s := s.beginByte a) (t := t.beginByte a) hconfig hbyte
  simp [byteEvents_eq, List.filter_cons, Event.ownChoice, hloop, hbyte, hconfig.interbyteTicks]

theorem transferAt_sameConfiguration (a : Word) {s t : State} (h : SameConfiguration s t) :
    SameConfiguration (transferAt a s) (transferAt a t) := by
  simpa [SameConfiguration] using h

/-- A byte further up a buffer that does not wrap is not its first. -/
theorem add_one_add_ofNat_ne {a : Word} {n i : Nat} (hfits : a.toNat + (n + 1) ≤ 2 ^ 32) (hi : i < n) :
    a + 1 + BitVec.ofNat 32 i ≠ a := by
  intro heq
  have haddr := toNat_add_of_fits (i := i + 1) hfits (by omega)
  rw [add_ofNat_succ, heq] at haddr
  omega

/-- Two loops over the bytes with one configuration and the same bytes to send drive alike: each byte is read before anything
received is stored there. -/
theorem bufferEvents_ownChoice {n : Nat} {a : Word} {s t : State} (hfits : a.toNat + n ≤ 2 ^ 32)
    (hconfig : SameConfiguration s t)
    (hbytes : ∀ i < n, t.byteAt (a + BitVec.ofNat 32 i) = s.byteAt (a + BitVec.ofNat 32 i)) :
    (bufferEvents n a t).filter Event.ownChoice = (bufferEvents n a s).filter Event.ownChoice := by
  induction n generalizing a s t with
  | zero => rfl
  | succ n ih =>
    have hfirst : t.byteAt a = s.byteAt a := by simpa using hbytes 0 (by omega)
    have hlater : ∀ i < n, (transferAt a t).byteAt (a + 1 + BitVec.ofNat 32 i) =
        (transferAt a s).byteAt (a + 1 + BitVec.ofNat 32 i) := by
      intro i hi
      have hne := add_one_add_ofNat_ne hfits hi
      rw [transferAt_byteAt_other a _ t hne, transferAt_byteAt_other a _ s hne, ← add_ofNat_succ]
      exact hbytes (i + 1) (by omega)
    rw [bufferEvents, bufferEvents, List.filter_append, List.filter_append, byteEvents_ownChoice hconfig hfirst]
    rcases Nat.eq_zero_or_pos n with rfl | hn
    · rfl
    · rw [ih (by rw [toNat_succ_of_fits hfits hn]; omega) (transferAt_sameConfiguration a hconfig) hlater]

theorem transferred_ownChoice {base len : Word} {s t : State} (hfits : base.toNat + len.toNat ≤ 2 ^ 32)
    (hconfig : SameConfiguration s t) (hmem : SameMemory s t) (htrace : t.trace = s.trace) :
    (t.transferred base len).trace.filter Event.ownChoice = (s.transferred base len).trace.filter Event.ownChoice := by
  have hbuffer := bufferEvents_ownChoice (s := s.inTransfer) (t := t.inTransfer) hfits hconfig fun _ _ => hmem _
  simp only [transferred_trace, List.filter_append, htrace, hbuffer]

/-- Settles O37: neither the checks nor the loop over the bytes look at the environment for what they drive. -/
theorem waveformIndependentOfMiso : Obligations.WaveformIndependentOfMiso := by
  intro base len s levels draws
  cases hw : writeAnswer base len s with
  | some st =>
    rw [transact, transact, writeTransaction_answered hw,
      writeTransaction_answered (s := { s with misoInput := levels, draws := draws }) hw]
    rfl
  | none =>
    obtain ⟨-, -, hfits, -⟩ := writeAnswer_none.mp hw
    rw [transact_write_of_started hw,
      transact_write_of_started (s := { s with misoInput := levels, draws := draws }) hw]
    exact transferred_ownChoice hfits ⟨rfl, rfl, rfl, rfl, rfl, rfl, rfl⟩ (fun _ => rfl) rfl

/-! ### The ticks of a WRITE -/

/-- A WRITE that starts runs `len` bytes to its completion, where it has the state of the transaction level but for the
position of the sequencer (44 R105 to R112). -/
theorem reaches_write {base len : Word} {s : State} (h0 : s.hasReset = true) (hw : writeAnswer base len s = none) :
    ∃ i b d, Reaches (len.toNat * byteTicks s) (writeAccept base len s) State.completeWrite
      (((transferBuffer len.toNat base s.inTransfer).onBuffer base len).place .idle i b d) := by
  obtain ⟨-, -, -, hlen⟩ := writeAnswer_none.mp hw
  obtain ⟨n, hn⟩ : ∃ n, len.toNat = n + 1 := Nat.exists_eq_succ_of_ne_zero (by bv_omega)
  have hstart : writeAccept base len s = (s.inTransfer.onBuffer base len).place .load 0 s.bitCnt s.dlyCnt :=
    writeAccept_started hw
  have hbase : (writeAccept base len s).flightAddress = base := by
    rw [hstart]
    exact BitVec.add_zero base
  have hticks : byteTicks (writeAccept base len s) = byteTicks s := by rw [hstart]; rfl
  obtain ⟨i, b, d, hreach⟩ := reaches_buffer n (s := writeAccept base len s) (by rw [hstart]; exact h0)
    (by rw [hstart]; rfl) (by rw [hstart]; rfl)
    (by rw [hstart, ← hn]; exact Nat.zero_add _)
  rw [hticks, hbase, hstart, transferBuffer_place, place_place, transferBuffer_onBuffer, ← hn, ← hstart] at hreach
  exact ⟨i, b, d, hreach⟩

theorem Reaches.run_of_pos {k : Nat} {s t : State} {f : State → State} (h : Reaches k s f t) (hk : 0 < k)
    (hb : s.lifecycle = .busy) (hn : NoReset k s) : ∃ rst host, BusyRun k s (f (t.timed rst host)) := by
  cases k with
  | zero => exact absurd hk (Nat.not_lt_zero 0)
  | succ k => exact h.run hb hn

theorem byteTicks_pos (s : State) : 0 < byteTicks s := by
  unfold byteTicks
  omega

theorem transferBuffer_sameConfiguration (n : Nat) (a : Word) (s : State) :
    SameConfiguration s (transferBuffer n a s) := by
  simp [SameConfiguration]

/-- A loop with a byte to send leaves SCK at rest, wherever it was before (42 R81, R82). -/
theorem transferBuffer_succ_sck (n : Nat) (a : Word) (s : State) : (transferBuffer (n + 1) a s).sck = s.cpol := by
  rw [transferBuffer_succ, transferBuffer_sck _ _ _ (by rw [transferAt_sck, transferAt_cpol]), transferAt_cpol]

/-- Settles O56: the ticks of the WRITE reach the state of its loop over the bytes, whose memory is that of the transaction
level. -/
theorem writeCompletesWithReceivedBytes : Obligations.WriteCompletesWithReceivedBytes := by
  intro base len s h0 hready _ hmode hm hfits hlen ticks
  have hw : writeAnswer base len s = none := writeAnswer_none.mpr ⟨State.not_released_of_ready hready, hmode, hfits, hlen⟩
  have hpos : 0 < len.toNat := by bv_omega
  obtain ⟨i, b, d, hreach⟩ := reaches_write h0 hw
  refine ⟨writeAccept base len s, rfl, fun hn => ?_⟩
  obtain ⟨rst, host, hrun, -⟩ := hreach.run_of_pos (Nat.mul_pos hpos (byteTicks_pos s))
    (by rw [writeAccept_started hw]) hn
  have hsck : (transferBuffer len.toNat base s.inTransfer).sck = s.cpol := by
    rw [← Nat.succ_pred_eq_of_pos hpos]
    exact transferBuffer_succ_sck _ _ _
  exact ⟨_, hrun, rfl, rfl, rfl, rfl, transferBuffer_sameConfiguration _ _ s.inTransfer, hsck,
    transferBuffer_sckOe _ _ _, transferBuffer_mosiOe _ _ _, (transferBuffer_hasReset _ _ _).trans h0,
    fun i hi k hk => transferBuffer_bit (s := s.inTransfer) hfits hm hi hk,
    transferBuffer_byteAt_outside _ _ s.inTransfer hfits⟩

end Sys2Proof.Machine

namespace Sys2Proof.Machine

/-! ## Lifecycle

Where the block is not BUSY, only an accepted command can change `lifecycle` without a reset (`step_accepts_or_keeps`); what each
command makes of it is read off the command's effect. A running WRITE has `seqTick_lifecycle_ready` and `seqTick_completes`. -/

/-- Settles O14, by what DESTROY does in a block that is not RELEASED. -/
theorem destroyReleasesTheLines : Obligations.DestroyReleasesTheLines := by
  intro s hready
  show Host.Outcome.next (destroyEffect s) = _
  rw [destroyEffect_live (State.not_released_of_ready hready)]
  simp [answered]

/-- Every command looks at RELEASED before anything else (43 R96, 60 R126). -/
theorem exec_released {s : State} (h : s.lifecycle = .released) (i : Instr) :
    exec i s = .next (answered s .released) := by
  cases i with
  | setfreq hz => exact congrArg Host.Outcome.next (setfreqEffect_released h hz)
  | setmode m => exact congrArg Host.Outcome.next (setmodeEffect_released h m)
  | setdelay us => exact congrArg Host.Outcome.next (setdelayEffect_released h us)
  | write base len => exact exec_write_answered (writeAnswer_released h base len)
  | destroy => exact congrArg Host.Outcome.next (destroyEffect_released h)
  | _ => exact congrArg Host.Outcome.next (reservedEffect_released h)

/-- Without a reset, a block that is not BUSY accepts the command presented, or keeps its `lifecycle` where there is none. -/
theorem step_accepts_or_keeps {s t : State} (hs : step s = .next t) (hr : s.rstAsserted = false)
    (hb : s.lifecycle ≠ .busy) :
    (∃ w rest, s.hostInput = .cmd w :: rest ∧ exec (decodeWord w) (s.accepted rest) = .next t) ∨
      ((∀ w rest, s.hostInput ≠ .cmd w :: rest) ∧ t.lifecycle = s.lifecycle) := by
  rcases step_cases hs with ⟨hr', -⟩ | ⟨-, -, ⟨hb', -⟩ | ⟨-, hcmd | ⟨a, v, rest, hpoke, rfl⟩ | ⟨hnone, -, rfl⟩⟩⟩
  · exact absurd (hr.symm.trans hr') nofun
  · exact absurd hb' hb
  · exact .inl hcmd
  · exact .inr ⟨by simp [hpoke], rfl⟩
  · exact .inr ⟨hnone, rfl⟩

/-- A reset tick leads to READY from anywhere (70 R141). -/
theorem step_reset_lifecycle {s t : State} (hs : step s = .next t) (hr : s.rstAsserted = true) :
    t.lifecycle = .ready := by
  rcases step_cases hs with ⟨-, rfl⟩ | ⟨hr', -⟩
  · rfl
  · exact absurd (hr.symm.trans hr') nofun

/-- Without a reset, RELEASED is never left (43 R96). -/
theorem step_released_lifecycle {s t : State} (hs : step s = .next t) (hr : s.rstAsserted = false)
    (hreleased : s.lifecycle = .released) : t.lifecycle = .released := by
  rcases step_accepts_or_keeps hs hr (by simp [hreleased]) with ⟨w, rest, -, hx⟩ | ⟨-, hkept⟩
  · have haccepted : (s.accepted rest).lifecycle = .released := hreleased
    obtain rfl := Host.Outcome.next.inj ((exec_released haccepted _).symm.trans hx)
    exact haccepted
  · exact hkept.trans hreleased

/-- Settles O16, by the check every command makes first, and by the two kinds of step from RELEASED. -/
theorem releasedAnswersReleased : Obligations.ReleasedAnswersReleased := by
  intro s hreleased
  refine ⟨exec_released hreleased, fun t hs => ⟨fun ht => ?_, fun hr => step_released_lifecycle hs hr hreleased⟩⟩
  rw [← Bool.not_eq_true]
  intro hr
  exact absurd ((step_reset_lifecycle hs hr).symm.trans ht) nofun

/-- In READY, a WRITE that passes its checks with bytes to send leads to BUSY, DESTROY to RELEASED, and every other command stays
in READY (43 R94). -/
theorem exec_ready_lifecycle {i : Instr} {s t : State} (hready : s.lifecycle = .ready) (hx : exec i s = .next t) :
    (t.lifecycle = .busy ↔ ∃ base len, i = .write base len ∧ writeAnswer base len s = none) ∧
      (t.lifecycle = .released ↔ i = .destroy) := by
  have hlive := State.not_released_of_ready hready
  cases i with
  | setfreq hz =>
    obtain rfl := Host.Outcome.next.inj ((exec_setfreq_live hlive hz).symm.trans hx)
    simp [answered, hready]
  | setdelay us =>
    obtain rfl := Host.Outcome.next.inj ((exec_setdelay_live hlive us).symm.trans hx)
    simp [answered, hready]
  | setmode m =>
    obtain ⟨-, -, -, -, -, -, hkept, -⟩ := setmodeFrame m s t hx
    simp [hkept, hready]
  | write base len =>
    obtain rfl : writeAccept base len s = t := Host.Outcome.next.inj hx
    cases hw : writeAnswer base len s with
    | some st => simp [writeAccept_answered hw, answered, hready, hw]
    | none => simp [writeAccept_started hw, hw]
  | destroy =>
    obtain rfl := Host.Outcome.next.inj ((destroyReleasesTheLines s hready).symm.trans hx)
    simp
  | _ =>
    obtain rfl := Host.Outcome.next.inj hx
    simp [reservedEffect_live hlive, answered, hready]

/-- Without a reset, READY is left exactly by an accepted WRITE that starts, for BUSY, and by an accepted DESTROY, for RELEASED
(43 R94). -/
theorem step_ready_lifecycle {s t : State} (hs : step s = .next t) (hr : s.rstAsserted = false)
    (hready : s.lifecycle = .ready) :
    (t.lifecycle = .busy ↔ ∃ w rest base len, s.hostInput = .cmd w :: rest ∧ decodeWord w = .write base len ∧
      writeAnswer base len s = none) ∧
    (t.lifecycle = .released ↔ ∃ w rest, s.hostInput = .cmd w :: rest ∧ decodeWord w = .destroy) := by
  rcases step_accepts_or_keeps hs hr (by simp [hready]) with ⟨w, rest, hw, hx⟩ | ⟨hnone, hkept⟩
  · obtain ⟨hbusy, hreleased⟩ := exec_ready_lifecycle (s := s.accepted rest) hready hx
    have hanswer (base len : Word) : writeAnswer base len (s.accepted rest) = writeAnswer base len s := rfl
    simp [hbusy, hreleased, hw, hanswer]
  · simp [hkept, hready, hnone]

/-- Without a reset, a running WRITE goes on, or completes with OK where its last byte ends (44 R111, R112). -/
theorem step_busy_lifecycle {s t : State} (hs : step s = .next t) (hr : s.rstAsserted = false)
    (hb : s.lifecycle = .busy) :
    (t.lifecycle = .ready ↔ s.byteIdx + 1 = s.len ∧
      (s.seq = .ibd ∧ s.dlyCnt = 1 ∨ s.seq = .store ∧ s.interbyteDelayCount = 0)) ∧
    (t.lifecycle ≠ .ready → t.lifecycle = .busy) ∧ (t.lifecycle = .ready → t.lastStatus = .ok) := by
  rcases step_cases hs with ⟨hr', -⟩ | ⟨-, -, ⟨-, -, rfl⟩ | ⟨hb', -⟩⟩
  · exact absurd (hr.symm.trans hr') nofun
  · have hb' : s.nextInputs.lifecycle = .busy := hb
    refine ⟨seqTick_lifecycle_ready hb', ?_⟩
    rcases seqTick_completes s.nextInputs with ⟨hkept, -⟩ | ⟨hdone, -, hok, -⟩
    · simp [hkept, hb]
    · simp [hdone, hok]
  · exact absurd hb hb'

/-- Settles O41, by the steps of a reset tick and of each lifecycle. -/
theorem lifecycleTransitions : Obligations.LifecycleTransitions := by
  intro s t hs
  refine ⟨step_reset_lifecycle hs, step_released_lifecycle hs, step_busy_lifecycle hs, fun hr hready => ?_⟩
  obtain ⟨hbusy, hreleased⟩ := step_ready_lifecycle hs hr hready
  refine ⟨?_, hreleased⟩
  simpa [writeAnswer_none, hready] using hbusy

end Sys2Proof.Machine

namespace Sys2Proof.Machine

/-! ## The edge sequencer

Each step of the sequencer has its equation for one tick; what a tick drives, reads and leads to is read off it. A WRITE, whole,
has `reaches_write`; the ticks of a bit are followed through its acts and waits.

### The two levels of a command -/

/-- A command that does not start a WRITE does all that it does in its accept tick (44 R103). -/
theorem completes_at_accept {i : Instr} {s : State}
    (h : ∀ base len, i = .write base len → writeAnswer base len s ≠ none) :
    ticksAfterAccept i s = 0 ∧ exec i s = .next (transact i s) := by
  cases i with
  | write base len =>
    obtain ⟨st, hw⟩ := Option.ne_none_iff_exists'.mp (h base len rfl)
    refine ⟨if_neg (by simp [writeStarts_iff, hw]), ?_⟩
    rw [exec_write_answered hw, transact, writeTransaction_answered hw]
  | _ => exact ⟨rfl, rfl⟩

theorem ticksAfterAccept_of_started {base len : Word} {s : State} (hw : writeAnswer base len s = none) :
    ticksAfterAccept (.write base len) s = len.toNat * byteTicks s := if_pos (writeStarts_iff.mpr hw)

/-- The completed WRITE has left the sequencer idle; with that, both levels show the same (44 R112, R114). -/
theorem transactionView_completeWrite {u : State} (hidle : u.seq = .idle) (base len i : Word) (b : BitVec 3) (d : Count)
    (rst : List Level) (host : List HostMove) :
    transactionView (((u.onBuffer base len).place .idle i b d).timed rst host).completeWrite =
      transactionView (answered { u with lifecycle := .ready } .ok) := by
  simp [transactionView, answered, State.completeWrite, State.respond, State.timed, State.place, State.onBuffer, hidle]

/-- A WRITE that starts runs its bytes BUSY and in silence, and ends as its transaction (44 R114, R115). -/
theorem writeAccept_refines {base len : Word} {s : State} (h0 : s.hasReset = true) (hidle : s.seq = .idle)
    (hw : writeAnswer base len s = none) (hn : NoReset (len.toNat * byteTicks s) (writeAccept base len s)) :
    ∃ u, BusyRun (len.toNat * byteTicks s) (writeAccept base len s) u ∧
      transactionView u = transactionView (transact (.write base len) s) := by
  obtain ⟨-, -, -, hlen⟩ := writeAnswer_none.mp hw
  have hpos : 0 < len.toNat := by bv_omega
  obtain ⟨i, b, d, hreach⟩ := reaches_write h0 hw
  obtain ⟨rst, host, hrun⟩ := hreach.run_of_pos (Nat.mul_pos hpos (byteTicks_pos s)) (by rw [writeAccept_started hw]) hn
  have hseq : (transferBuffer len.toNat base s.inTransfer).seq = .idle := (transferBuffer_seq _ _ _).trans hidle
  refine ⟨_, hrun, ?_⟩
  rw [transact_write_of_started hw]
  exact transactionView_completeWrite hseq base len i b d rst host

/-- Settles O55: a command completes in its accept tick, or is a WRITE that starts. -/
theorem ticksRefineTransactions : Obligations.TicksRefineTransactions := by
  intro i s h0 _ hidle
  by_cases hstart : ∃ base len, i = .write base len ∧ writeAnswer base len s = none
  · obtain ⟨base, len, rfl, hw⟩ := hstart
    rw [ticksAfterAccept_of_started hw]
    refine ⟨writeAccept base len s, rfl, fun hn => ?_⟩
    obtain ⟨u, hrun, hview⟩ := writeAccept_refines h0 hidle hw hn
    have hsilent : responses (writeAccept base len s).trace = responses s.trace := by rw [writeAccept_started hw]
    exact ⟨u, hrun.1, hview, fun j v hj hv => ⟨hrun.2 j v hj hv, (hrun.responses hn hj hv).trans hsilent⟩⟩
  · obtain ⟨hticks, hx⟩ := completes_at_accept (i := i) fun base len hi hw => hstart ⟨base, len, hi, hw⟩
    rw [hticks]
    exact ⟨_, hx, fun _ => ⟨_, runsTo_zero _, rfl, fun j _ hj => absurd hj j.not_lt_zero⟩⟩

/-! ### Completion

A command completes in its accept tick or, if it is a WRITE that starts, in the tick that leaves BUSY. -/

/-- A block that answers and is not BUSY has completed its command. Said of any state, so that no proof compares a count a
command computes with a register. -/
theorem answered_completes {s : State} (hb : s.lifecycle ≠ .busy) (st : Status) :
    (answered s st).rspValid = true ↔ (answered s st).lifecycle ≠ .busy := iff_of_true rfl hb

/-- A command completes in its accept tick unless it leaves the block BUSY (44 R103, R104). -/
theorem exec_rspValid_iff {i : Instr} {s t : State} (hb : s.lifecycle ≠ .busy) (hv : s.rspValid = false)
    (h : exec i s = .next t) : t.rspValid = true ↔ t.lifecycle ≠ .busy := by
  rcases exec_cases h with ⟨st, rfl, -⟩ | ⟨hz, -, -, rfl⟩ | ⟨us, -, -, rfl⟩ | ⟨m, -, -, -, rfl⟩ | ⟨m, -, -, -, rfl⟩ |
    ⟨-, -, rfl⟩ | ⟨base, len, -, -, rfl⟩
  case inr.inr.inr.inr.inr.inr => simp [hv]
  all_goals apply answered_completes
  case inr.inr.inr.inr.inr.inl => nofun
  all_goals exact hb

/-- A tick of a running WRITE responds exactly where it completes it (44 R112). -/
theorem seqTick_rspValid_iff {s : State} (hb : s.lifecycle = .busy) (hv : s.rspValid = false) :
    (seqTick s).rspValid = true ↔ (seqTick s).lifecycle = .ready := by
  rcases seqTick_completes s with ⟨hkept, hnone, -⟩ | ⟨hready, hvalid, -⟩
  · simp [hkept, hnone, hb, hv]
  · simp [hready, hvalid]

/-- A response is presented exactly after the accept tick of a command that completes in it, and after the last tick of a WRITE
(44 R104). -/
theorem step_rspValid_iff {s t : State} (hs : step s = .next t) :
    t.rspValid = true ↔ s.rstAsserted = false ∧
      ((s.lifecycle ≠ .busy ∧ (∃ w rest, s.hostInput = .cmd w :: rest) ∧ t.lifecycle ≠ .busy) ∨
        (s.lifecycle = .busy ∧ t.lifecycle = .ready)) := by
  rcases step_cases hs with ⟨hr, rfl⟩ | ⟨hr, -, ⟨hb, -, rfl⟩ | ⟨hb, hhost⟩⟩
  · simp [hr, create]
  · simp [hr, hb, seqTick_rspValid_iff (s := s.nextInputs) hb rfl]
  · rcases hhost with ⟨w, rest, hw, hx⟩ | ⟨a, v, rest, hw, rfl⟩ | ⟨hnone, -, rfl⟩
    · simp [hr, hb, hw, exec_rspValid_iff (s := s.accepted rest) hb rfl hx]
    · simp [hb, hw]
    · simp [hb, hnone]

/-- Settles O40, by what completes in a step; what is presented is `step_presents`. -/
theorem responseLastsOneTick : Obligations.ResponseLastsOneTick := by
  intro s t hs
  have hcompletes := step_rspValid_iff hs
  refine ⟨hcompletes, fun hv => ⟨rspStatus_eq_some_iff.mpr ⟨hv, rfl⟩, step_presents hs hv⟩, fun hb hr hv => ?_⟩
  obtain ⟨-, -, hok⟩ := step_busy_lifecycle hs hr hb
  rcases hcompletes.mp hv with ⟨-, ⟨hb', -⟩ | ⟨-, hready⟩⟩
  · exact absurd hb hb'
  · exact hok hready

/-! ### The start of a WRITE -/

/-- Settles O20: the checks pass, so the WRITE starts. -/
theorem writeStartsTheSequencer : Obligations.WriteStartsTheSequencer := by
  intro base len s hready hmode hfits hlen
  have hlive := State.not_released_of_ready hready
  have hw : writeAnswer base len s = none := writeAnswer_none.mpr ⟨hlive, hmode, hfits, hlen⟩
  exact ⟨_, by simp [cmdReady], congrArg Host.Outcome.next (writeAccept_started hw), rfl⟩

end Sys2Proof.Machine

namespace Sys2Proof.Machine

/-! ### One tick of each step

The equations of `seqTick`, one a step. A step that enters a wait of half a period has its equation where the wait takes a tick
(44 R102, R106 to R112). -/

theorem State.enterWait_of_ne {s : State} {n : Count} (h : n ≠ 0) (q : Seq) (done : State → State) :
    s.enterWait n q done = { s.delay n.toNat with seq := q, dlyCnt := n } := if_neg h

theorem State.waitTick_last {s : State} (h : s.dlyCnt = 1) (done : State → State) : s.waitTick done = done s := if_pos h

theorem State.waitTick_counts {s : State} (h : s.dlyCnt ≠ 1) (done : State → State) :
    s.waitTick done = { s with dlyCnt := s.dlyCnt - 1 } := if_neg h

/-- The state that has begun to wait for half a period in step `q`. -/
def State.halfPeriodIn (s : State) (q : Seq) : State :=
  { s.delay s.halfPeriodTicks with seq := q, dlyCnt := s.halfPeriodWait }

theorem State.enterWait_halfPeriod {s : State} (h : s.halfPeriodCount ≠ 0) (q : Seq) (done : State → State) :
    s.enterWait s.halfPeriodWait q done = s.halfPeriodIn q := by
  have hne : s.halfPeriodWait ≠ 0 := by
    intro h0
    have hzero : s.halfPeriodTicks = 0 := by rw [← s.halfPeriodWait_toNat, h0]; rfl
    exact h (BitVec.eq_of_toNat_eq hzero)
  rw [State.enterWait_of_ne hne, s.halfPeriodWait_toNat]
  rfl

section
variable {s : State}

theorem seqTick_load (hq : s.seq = .load) : seqTick s = s.loadTick := by simp only [seqTick, hq]

theorem seqTick_a1 (hq : s.seq = .a1) (hH : s.halfPeriodCount ≠ 0) : seqTick s = s.driveBit.halfPeriodIn .a2 := by
  simp only [seqTick, hq]
  exact State.enterWait_halfPeriod (s := s.driveBit) hH _ _

theorem seqTick_a2 (hq : s.seq = .a2) : seqTick s = s.waitTick (fun t => t.goto .a3) := by simp only [seqTick, hq]

theorem seqTick_a3 (hq : s.seq = .a3) : seqTick s = s.sampleBit.goto .a4 := by simp only [seqTick, hq]

theorem seqTick_a4 (hq : s.seq = .a4) (hH : s.halfPeriodCount ≠ 0) : seqTick s = s.leadingEdge.halfPeriodIn .a5 := by
  simp only [seqTick, hq]
  exact State.enterWait_halfPeriod (s := s.leadingEdge) hH _ _

theorem seqTick_a5 (hq : s.seq = .a5) : seqTick s = s.waitTick (fun t => t.goto .a6) := by simp only [seqTick, hq]

theorem seqTick_a6 (hq : s.seq = .a6) : seqTick s = s.trailingEdge.endBit := by simp only [seqTick, hq]

theorem seqTick_b1 (hq : s.seq = .b1) : seqTick s = s.leadingEdge.goto .b2 := by simp only [seqTick, hq]

theorem seqTick_b2 (hq : s.seq = .b2) (hH : s.halfPeriodCount ≠ 0) : seqTick s = s.driveBit.halfPeriodIn .b3 := by
  simp only [seqTick, hq]
  exact State.enterWait_halfPeriod (s := s.driveBit) hH _ _

theorem seqTick_b3 (hq : s.seq = .b3) : seqTick s = s.waitTick (fun t => t.goto .b4) := by simp only [seqTick, hq]

theorem seqTick_b4 (hq : s.seq = .b4) : seqTick s = s.trailingEdge.goto .b5 := by simp only [seqTick, hq]

theorem seqTick_b5 (hq : s.seq = .b5) (hH : s.halfPeriodCount ≠ 0) : seqTick s = s.sampleBit.halfPeriodIn .b6 := by
  simp only [seqTick, hq]
  exact State.enterWait_halfPeriod (s := s.sampleBit) hH _ _

theorem seqTick_b6 (hq : s.seq = .b6) : seqTick s = s.waitTick State.endBit := by simp only [seqTick, hq]

theorem seqTick_store (hq : s.seq = .store) :
    seqTick s = s.storeByte.enterWait s.interbyteDelayCount .ibd State.endByte := by simp only [seqTick, hq]

theorem seqTick_ibd (hq : s.seq = .ibd) : seqTick s = s.waitTick State.endByte := by simp only [seqTick, hq]

/-- The last tick of a wait step is what follows it. -/
theorem seqTick_of_last {done : State → State} (h : seqTick s = s.waitTick done) (hlast : s.dlyCnt = 1) :
    seqTick s = done s := h.trans (State.waitTick_last hlast done)

/-- Every wait step has the same tick but for what follows it (44 R102). -/
theorem seqTick_isWait (hw : s.seq.isWait = true) : ∃ done, seqTick s = s.waitTick done := by
  cases hq : s.seq with
  | a2 => exact ⟨_, seqTick_a2 hq⟩
  | a5 => exact ⟨_, seqTick_a5 hq⟩
  | b3 => exact ⟨_, seqTick_b3 hq⟩
  | b6 => exact ⟨_, seqTick_b6 hq⟩
  | ibd => exact ⟨_, seqTick_ibd hq⟩
  | _ => simp [hq, Seq.isWait] at hw

/-- The tick that ends a byte: the last of the inter-byte wait, or STORE where there is no wait (44 R110, R111). -/
theorem seqTick_endByte (h : s.seq = .ibd ∧ s.dlyCnt = 1 ∨ s.seq = .store ∧ s.interbyteDelayCount = 0) :
    ∃ u : State, seqTick s = u.endByte ∧ u.byteIdx = s.byteIdx ∧ u.len = s.len ∧ u.lifecycle = s.lifecycle := by
  rcases h with ⟨hq, hlast⟩ | ⟨hq, hnone⟩
  · exact ⟨s, by rw [seqTick_ibd hq, State.waitTick_last hlast], rfl, rfl, rfl⟩
  · exact ⟨s.storeByte.delay 0, by rw [seqTick_store hq, hnone]; rfl, rfl, rfl, rfl⟩

theorem State.endBit_last (h : s.bitCnt = 7) : s.endBit = s.goto .store := if_pos h

theorem State.endBit_more (h : s.bitCnt ≠ 7) :
    s.endBit = { s with bitCnt := s.bitCnt + 1, seq := firstBitStep s.mode } := if_neg h

/-- The end of a bit moves no line. -/
theorem State.endBit_samePins (s : State) : SamePins s s.endBit := by
  unfold State.endBit
  split <;> exact ⟨rfl, rfl, rfl, rfl⟩

theorem firstBitStep_driveFirst {mode : BitVec 2} (h : driveFirst mode = true) : firstBitStep mode = .a1 := if_pos h

theorem firstBitStep_clockFirst {mode : BitVec 2} (h : driveFirst mode = false) : firstBitStep mode = .b1 :=
  if_neg (by simp [h])

/-- The end of a bit leads to STORE after bit 7, and else to the next bit (44 R109). -/
theorem State.endBit_leads {q : Seq} (hq : firstBitStep s.mode = q) :
    (s.bitCnt = 7 → s.endBit.seq = .store) ∧ (s.bitCnt ≠ 7 → s.endBit.bitCnt = s.bitCnt + 1 ∧ s.endBit.seq = q) :=
  ⟨fun h => by rw [State.endBit_last h]; rfl, fun h => by rw [State.endBit_more h]; exact ⟨rfl, hq⟩⟩

/-- A tick that drives a bit puts the top bit of `tx_shift` on MOSI, shifts it and begins to wait (44 R107, R108). -/
theorem State.nextInputs_driveBit (s : State) (q : Seq) :
    let t := s.nextInputs.driveBit.halfPeriodIn q
    t.mosi = some (s.txShift.getLsbD 7) ∧ t.txShift = s.txShift <<< 1 ∧ t.seq = q ∧
      t.dlyCnt.toNat = s.halfPeriodCount.toNat ∧ t.sck = s.sck ∧ t.rxAcc = s.rxAcc := by
  refine ⟨?_, ?_, rfl, s.halfPeriodWait_toNat, ?_, ?_⟩ <;>
    simp [State.halfPeriodIn, State.driveBit, shiftOut, BitVec.msb_eq_getLsbD_last]

/-- In a tick, the level read becomes bit 0 of `rx_acc` (42 R84). -/
theorem State.nextInputs_sampleBit_rxAcc (s : State) :
    s.nextInputs.sampleBit.rxAcc = (s.rxAcc <<< 1 ||| (if s.misoAt 0 then 1 else 0)) := by
  rw [State.misoAt_zero]
  show shiftIn s.rxAcc s.misoLevel = _
  cases s.misoLevel <;> rfl

/-- Reading MISO in a tick moves no line, whatever step follows (20 R46). -/
theorem State.nextInputs_sampleBit_samePins (s : State) (q : Seq) :
    SamePins s (s.nextInputs.sampleBit.goto q) ∧ SamePins s (s.nextInputs.sampleBit.halfPeriodIn q) := by
  simp [SamePins, State.sampleBit, State.halfPeriodIn]

/-- A step from a running WRITE is the tick of its step of the sequencer. -/
theorem step_of_seqTick {q : Seq} {t : State} (hb : s.lifecycle = .busy) (h0 : s.hasReset = true)
    (hr : s.rstAsserted = false) (hq : s.seq = q) (hidle : q ≠ .idle) (h : seqTick s.nextInputs = t) :
    step s = .next t := by
  rw [step_sequence hr h0 hb (by rw [hq]; exact hidle), h]

end

/-- While BUSY and without a response, the outputs show the lines, the step, the address of the byte in flight and `rx_acc`. -/
theorem outputs_congr_of_busy {s t : State} (hs : s.lifecycle = .busy) (ht : t.lifecycle = .busy)
    (hvs : s.rspValid = false) (hvt : t.rspValid = false) (hpins : SamePins s t) (hseq : t.seq = s.seq)
    (haddress : t.flightAddress = s.flightAddress) (hrx : t.rxAcc = s.rxAcc) : outputs t = outputs s := by
  obtain ⟨hsck, hsckOe, hmosi, hmosiOe⟩ := hpins
  simp [outputs, cmdReady, rspStatus, sckPin, mosiPin, memRe, memWe, *]

/-- Settles O48: where the wait goes on its tick is the count and the passing of the inputs. -/
theorem waitTickOnlyCounts : Obligations.WaitTickOnlyCounts := by
  intro s hb h0 hr hv hw hcount
  obtain ⟨done, htick⟩ := seqTick_isWait (s := s.nextInputs) hw
  have hidle : s.seq ≠ .idle := by intro hq; simp [hq, Seq.isWait] at hw
  have hcounts := htick.trans (State.waitTick_counts (s := s.nextInputs) hcount done)
  refine ⟨_, step_of_seqTick hb h0 hr rfl hidle hcounts, ?_, rfl, ?_⟩
  · exact outputs_congr_of_busy hb hb hv rfl ⟨rfl, rfl, rfl, rfl⟩ rfl rfl rfl
  · simp [State.nextInputs, hv]

/-- Settles O49, by the tick of LOAD. -/
theorem loadTick : Obligations.LoadTick := by
  intro s hb h0 hr hq
  have hfirst : firstBitStep s.mode = if s.mode.getLsbD 0 then .b1 else .a1 := by
    unfold firstBitStep driveFirst
    cases s.mode.getLsbD 0 <;> rfl
  exact ⟨by simp [outputs, memRe, hb, hq], memAddr_eq_some_iff.mpr ⟨hb, .inl hq, rfl⟩, _,
    step_of_seqTick hb h0 hr hq nofun (seqTick_load hq), rfl, rfl, rfl, hfirst, ⟨rfl, rfl, rfl, rfl⟩, fun _ => rfl⟩

/-- Settles O50, by the tick of each step of a drive-first bit. -/
theorem driveFirstSteps : Obligations.DriveFirstSteps := by
  intro s hb h0 hr hH hfamily
  have hstep {q : Seq} {t : State} := step_of_seqTick (q := q) (t := t) hb h0 hr
  have hwait := s.halfPeriodWait_toNat
  refine ⟨fun hq => ?_, fun hq hlast => ?_, fun hq => ?_, fun hq => ?_, fun hq hlast => ?_, fun hq => ?_⟩
  · exact ⟨_, hstep hq nofun (seqTick_a1 hq hH), s.nextInputs_driveBit _⟩
  · exact ⟨_, hstep hq nofun (seqTick_of_last (seqTick_a2 hq) hlast), rfl, rfl, rfl, rfl, rfl⟩
  · exact ⟨_, hstep hq nofun (seqTick_a3 hq), s.nextInputs_sampleBit_rxAcc, rfl, (s.nextInputs_sampleBit_samePins _).1⟩
  · exact ⟨_, hstep hq nofun (seqTick_a4 hq hH), rfl, rfl, hwait, rfl⟩
  · exact ⟨_, hstep hq nofun (seqTick_of_last (seqTick_a5 hq) hlast), rfl, rfl, rfl, rfl, rfl⟩
  · obtain ⟨hsck, -, hmosi, -⟩ := s.nextInputs.trailingEdge.endBit_samePins
    exact ⟨_, hstep hq nofun (seqTick_a6 hq), hsck, hmosi,
      State.endBit_leads (s := s.nextInputs.trailingEdge) (firstBitStep_driveFirst hfamily)⟩

/-- Settles O51, by the tick of each step of a clock-first bit. -/
theorem clockFirstSteps : Obligations.ClockFirstSteps := by
  intro s hb h0 hr hH hfamily
  have hstep {q : Seq} {t : State} := step_of_seqTick (q := q) (t := t) hb h0 hr
  have hwait := s.halfPeriodWait_toNat
  refine ⟨fun hq => ?_, fun hq => ?_, fun hq hlast => ?_, fun hq => ?_, fun hq => ?_, fun hq hlast => ?_⟩
  · exact ⟨_, hstep hq nofun (seqTick_b1 hq), rfl, rfl, rfl⟩
  · exact ⟨_, hstep hq nofun (seqTick_b2 hq hH), s.nextInputs_driveBit _⟩
  · exact ⟨_, hstep hq nofun (seqTick_of_last (seqTick_b3 hq) hlast), rfl, rfl, rfl, rfl, rfl⟩
  · exact ⟨_, hstep hq nofun (seqTick_b4 hq), rfl, rfl, rfl⟩
  · exact ⟨_, hstep hq nofun (seqTick_b5 hq hH), s.nextInputs_sampleBit_rxAcc, rfl, hwait,
      (s.nextInputs_sampleBit_samePins _).2⟩
  · exact ⟨_, hstep hq nofun (seqTick_of_last (seqTick_b6 hq) hlast), s.nextInputs.endBit_samePins,
      State.endBit_leads (s := s.nextInputs) (firstBitStep_clockFirst hfamily)⟩

/-- Settles O52, by the tick of STORE and the end of a byte. -/
theorem storeAndByteEnd : Obligations.StoreAndByteEnd := by
  intro s hb h0 hr
  refine ⟨fun hq => ?_, fun hend => ?_⟩
  · refine ⟨by simp [outputs, memWe, hb, hq], memAddr_eq_some_iff.mpr ⟨hb, .inr hq, rfl⟩,
      by simp [outputs, memWe, hb, hq], _, step_of_seqTick hb h0 hr hq nofun rfl,
      seqTick_byteAt_flightAddress (s := s.nextInputs) hq, fun a ha => seqTick_byteAt s.nextInputs (.inr ha), fun hD => ?_⟩
    rw [seqTick_store (s := s.nextInputs) hq, State.enterWait_of_ne (n := s.nextInputs.interbyteDelayCount) hD]
    exact ⟨rfl, rfl, hb⟩
  · obtain ⟨u, htick, hidx, hlen, hlife⟩ := seqTick_endByte (s := s.nextInputs) hend
    have hidle : s.seq ≠ .idle := by rcases hend with ⟨hq, -⟩ | ⟨hq, -⟩ <;> simp [hq]
    refine ⟨_, step_of_seqTick hb h0 hr rfl hidle htick, fun hlast => ?_, fun hmore => ?_⟩
    · rw [State.endByte_last (s := u) (by rw [hidx, hlen]; exact hlast)]
      exact ⟨rfl, rfl, rfl, rfl⟩
    · rw [State.endByte_more (s := u) (by rw [hidx, hlen]; exact hmore)]
      exact ⟨hlife.trans hb, rfl, congrArg (· + 1) hidx⟩

end Sys2Proof.Machine

namespace Sys2Proof.Machine

/-! ### A bit, tick by tick

`State.BitReaches` follows a bit from its first step through its acts and waits (44 R115, R116); the bit ends as `reaches_bit`
has it. -/

/-- What a bit shows on its lines, with the bits it has still to send. -/
structure BitLines where
  sck  : Level
  mosi : Option Level
  tx   : Byte

/-- `k` ticks lead from `s` to step `q` of the bit that begins there, with these lines and this count. -/
def State.BitReaches (s : State) (k : Nat) (q : Seq) (l : BitLines) (d : Count) : Prop :=
  ∃ miso trace rx, Reaches k s id (s.inBit l.sck l.mosi miso trace (l.tx, rx) q d)

/-- `act` makes of the lines `l` the lines `l'`, anywhere in the bit that begins in `s`. -/
def State.ActMakes (s : State) (act : State → State) (l l' : BitLines) : Prop :=
  ∀ miso trace rx q d, ∃ miso' trace' rx', ∀ rst host,
    act ((s.inBit l.sck l.mosi miso trace (l.tx, rx) q d).timed rst host) =
      (s.inBit l'.sck l'.mosi miso' trace' (l'.tx, rx') q d).timed rst host

section
variable {s : State} {l l' : BitLines} {q q' : Seq} {k : Nat} {d : Count}

theorem actMakes_driveBit : s.ActMakes State.driveBit l { l with mosi := some l.tx.msb, tx := shiftOut l.tx } :=
  fun _ _ _ _ _ => ⟨_, _, _, fun rst host => driveBit_inBit s _ _ _ _ _ _ _ rst host⟩

theorem actMakes_leadingEdge : s.ActMakes State.leadingEdge l { l with sck := !s.cpol } :=
  fun _ _ _ _ _ => ⟨_, _, _, fun rst host => leadingEdge_inBit s _ _ _ _ _ _ _ rst host⟩

theorem actMakes_trailingEdge : s.ActMakes State.trailingEdge l { l with sck := s.cpol } :=
  fun _ _ _ _ _ => ⟨_, _, _, fun rst host => trailingEdge_inBit s _ _ _ _ _ _ _ rst host⟩

/-- Reading MISO moves no line; the level read goes to the trace and to `rx_acc`. -/
theorem actMakes_sampleBit : s.ActMakes State.sampleBit l l := fun miso trace rx q d =>
  ⟨(miso.1.tail, if miso.1 = [] then miso.2 + 1 else miso.2),
    trace ++ [.misoR (s.inBit l.sck l.mosi miso trace (l.tx, rx) q d).misoLevel],
    shiftIn rx (s.inBit l.sck l.mosi miso trace (l.tx, rx) q d).misoLevel, fun _ _ => rfl⟩

/-- Some ticks of a wait step, with more of them left. -/
theorem reaches_counting {j : Nat} {f : State → State} (h0 : s.hasReset = true) (hb : s.lifecycle = .busy)
    (hq : s.seq ≠ .idle) (hj : j < s.dlyCnt.toNat) (h : ∀ t : State, t.seq = s.seq → seqTick t = t.waitTick f) :
    ∃ d, Reaches j s id { s with dlyCnt := d } := by
  induction j generalizing s with
  | zero => exact ⟨s.dlyCnt, Reaches.refl s⟩
  | succ j ih =>
    have hmore : s.dlyCnt ≠ 1 := by bv_omega
    have hnext : j < (s.dlyCnt - 1).toNat := by bv_omega
    obtain ⟨d, hreach⟩ := ih (s := { s with dlyCnt := s.dlyCnt - 1 }) h0 hb hq hnext h
    have htick : Reaches 1 s id { s with dlyCnt := s.dlyCnt - 1 } := reaches_tick h0 hb hq fun rst host => by
      rw [h (s.timed rst host) rfl, State.waitTick_counts (s := s.timed rst host) hmore]
      rfl
    exact ⟨d, Nat.add_comm 1 j ▸ htick.trans hreach⟩

theorem bitReaches_zero {sck : Level} (hq : s.seq = q) (hsck : s.sck = sck) :
    s.BitReaches 0 q ⟨sck, s.mosi, s.txShift⟩ s.dlyCnt := by
  subst hq hsck
  exact ⟨(s.misoInput, s.draws), s.trace, s.rxAcc, Reaches.refl s⟩

/-- What a bit reaches, it shows. -/
theorem State.BitReaches.shows {n : Nat} (h : s.BitReaches k q l d) (hb : s.lifecycle = .busy) (hk : 0 < k)
    (hn : NoReset n s) (hle : k ≤ n) :
    ∃ t, RunsTo k s t ∧ t.seq = q ∧ t.sck = l.sck ∧ t.mosi = l.mosi := by
  obtain ⟨miso, trace, rx, hreach⟩ := h
  obtain ⟨rst, host, hrun, -⟩ := hreach.run_of_pos hk hb (hn.mono hle)
  exact ⟨_, hrun, rfl, rfl, rfl⟩

variable (h0 : s.hasReset = true) (hb : s.lifecycle = .busy)
include h0 hb

/-- An act that leads to the next step. -/
theorem State.BitReaches.act {act : State → State} (h : s.BitReaches k q l d) (hq : q ≠ .idle)
    (hact : s.ActMakes act l l') (htick : ∀ u : State, u.seq = q → seqTick u = (act u).goto q') :
    s.BitReaches (k + 1) q' l' d := by
  obtain ⟨miso, trace, rx, hreach⟩ := h
  obtain ⟨miso', trace', rx', hact⟩ := hact miso trace rx q d
  refine ⟨miso', trace', rx', hreach.trans (reaches_tick h0 hb hq fun rst host => ?_)⟩
  rw [htick _ rfl, hact]
  rfl

/-- An act that begins to wait for half a period. -/
theorem State.BitReaches.act_waits {act : State → State} (hH : s.halfPeriodCount ≠ 0) (h : s.BitReaches k q l d)
    (hq : q ≠ .idle) (hact : s.ActMakes act l l')
    (htick : ∀ u : State, u.seq = q → u.halfPeriodCount ≠ 0 → seqTick u = (act u).halfPeriodIn q') :
    s.BitReaches (k + 1) q' l' s.halfPeriodWait := by
  obtain ⟨miso, trace, rx, hreach⟩ := h
  obtain ⟨miso', trace', rx', hact⟩ := hact miso trace rx q d
  refine ⟨miso', trace' ++ [.wait s.halfPeriodTicks], rx', hreach.trans (reaches_tick h0 hb hq fun rst host => ?_)⟩
  refine Eq.trans (htick _ rfl hH) ?_
  rw [hact]
  rfl

/-- The wait for half a period, at any of its ticks. -/
theorem State.BitReaches.waiting {f : State → State} {i : Nat} (h : s.BitReaches k q l s.halfPeriodWait)
    (hq : q ≠ .idle) (htick : ∀ u : State, u.seq = q → seqTick u = u.waitTick f) (hle : k ≤ i)
    (hlt : i < k + s.halfPeriodTicks) : ∃ d, s.BitReaches i q l d := by
  obtain ⟨miso, trace, rx, hreach⟩ := h
  obtain ⟨j, rfl⟩ := Nat.exists_eq_add_of_le hle
  have hj : j < s.halfPeriodWait.toNat := by rw [s.halfPeriodWait_toNat]; omega
  obtain ⟨d, hcount⟩ := reaches_counting (s := s.inBit l.sck l.mosi miso trace (l.tx, rx) q s.halfPeriodWait) h0 hb hq
    hj htick
  exact ⟨d, miso, trace, rx, hreach.trans hcount⟩

/-- The whole wait for half a period, to the step after it. -/
theorem State.BitReaches.waited (hH : s.halfPeriodCount ≠ 0) (h : s.BitReaches k q l s.halfPeriodWait) (hq : q ≠ .idle)
    (htick : ∀ u : State, u.seq = q → seqTick u = u.waitTick (fun t => t.goto q')) :
    s.BitReaches (k + s.halfPeriodTicks) q' l 1 := by
  obtain ⟨miso, trace, rx, hreach⟩ := h
  obtain ⟨n, hn⟩ : ∃ n, s.halfPeriodTicks = n + 1 :=
    Nat.exists_eq_succ_of_ne_zero fun hzero => hH (BitVec.eq_of_toNat_eq hzero)
  refine ⟨miso, trace, rx, hreach.trans ?_⟩
  rw [hn]
  exact (reaches_wait n (s := s.inBit l.sck l.mosi miso trace (l.tx, rx) q s.halfPeriodWait) _ h0 hb hq
    (s.halfPeriodWait_toNat.trans hn) htick).apply fun _ _ => rfl

/-- The bit has ended, with SCK at rest and its level on MOSI (44 R109). -/
theorem bit_ends (hq : s.seq = firstBitStep s.mode) (hn : NoReset (2 * s.halfPeriodTicks + 4) s) :
    ∃ t, RunsTo (2 * s.halfPeriodTicks + 4) s t ∧ t.sck = s.cpol ∧ t.mosi = some s.txShift.msb ∧
      t.seq = if s.bitCnt = 7 then .store else s.seq := by
  obtain ⟨d, hreach⟩ := reaches_bit h0 hb hq
  rw [bitTicks, Nat.add_comm] at hreach
  obtain ⟨rst, host, hrun, -⟩ := hreach.run_of_pos (by omega) hb hn
  obtain ⟨hsck, -, hmosi, -⟩ := ({ afterLoopBit s with dlyCnt := d } : State).endBit_samePins
  obtain ⟨hlast, hmore⟩ := State.endBit_leads (s := { afterLoopBit s with dlyCnt := d }) hq.symm
  refine ⟨_, hrun, hsck, hmosi, ?_⟩
  split
  · exact hlast ‹_›
  · exact (hmore ‹_›).2

variable (hH : s.halfPeriodCount ≠ 0)
include hH

/-- A drive-first bit between its first tick and its end: SCK is active from H + 3 on, the bit is on MOSI, and MISO is read in
the tick H + 1 (44 R107, R116). -/
theorem driveFirst_bitReaches (hq : s.seq = .a1) (hsck : s.sck = s.cpol) (hk : 0 < k)
    (hlt : k < 2 * s.halfPeriodTicks + 4) :
    ∃ q l d, s.BitReaches k q l d ∧ (l.sck = (!s.cpol) ↔ s.halfPeriodTicks + 3 ≤ k) ∧ l.mosi = some s.txShift.msb ∧
      (q = .a3 ↔ k = s.halfPeriodTicks + 1) := by
  have hA1 := bitReaches_zero hq hsck
  have hA2 := hA1.act_waits h0 hb hH nofun actMakes_driveBit fun _ => seqTick_a1
  have hA3 := hA2.waited h0 hb hH nofun fun _ => seqTick_a2
  have hA4 := hA3.act h0 hb nofun actMakes_sampleBit fun _ => seqTick_a3
  have hA5 := hA4.act_waits h0 hb hH nofun actMakes_leadingEdge fun _ => seqTick_a4
  have hA6 := hA5.waited h0 hb hH nofun fun _ => seqTick_a5
  have hidle : ¬ s.cpol = !s.cpol := by simp
  rcases (by omega : k < s.halfPeriodTicks + 1 ∨ k = 0 + 1 + s.halfPeriodTicks ∨ k = 0 + 1 + s.halfPeriodTicks + 1 ∨
      s.halfPeriodTicks + 3 ≤ k ∧ k < 2 * s.halfPeriodTicks + 3 ∨
      k = 0 + 1 + s.halfPeriodTicks + 1 + 1 + s.halfPeriodTicks) with hA | rfl | rfl | hA | rfl
  · obtain ⟨d, h⟩ := hA2.waiting h0 hb nofun (fun _ => seqTick_a2) (i := k) (by omega) (by omega)
    exact ⟨_, _, d, h, iff_of_false hidle (by omega), rfl, iff_of_false nofun (by omega)⟩
  · exact ⟨_, _, _, hA3, iff_of_false hidle (by omega), rfl, iff_of_true rfl (by omega)⟩
  · exact ⟨_, _, _, hA4, iff_of_false hidle (by omega), rfl, iff_of_false nofun (by omega)⟩
  · obtain ⟨d, h⟩ := hA5.waiting h0 hb nofun (fun _ => seqTick_a5) (i := k) (by omega) (by omega)
    exact ⟨_, _, d, h, iff_of_true rfl (by omega), rfl, iff_of_false nofun (by omega)⟩
  · exact ⟨_, _, _, hA6, iff_of_true rfl (by omega), rfl, iff_of_false nofun (by omega)⟩

/-- A clock-first bit between its first tick and its end: SCK is active up to H + 2, the bit is on MOSI from the tick 2 on, and
MISO is read in the tick H + 3 (44 R108, R116). -/
theorem clockFirst_bitReaches (hq : s.seq = .b1) (hsck : s.sck = s.cpol) (hk : 0 < k)
    (hlt : k < 2 * s.halfPeriodTicks + 4) :
    ∃ q l d, s.BitReaches k q l d ∧ (l.sck = (!s.cpol) ↔ k < s.halfPeriodTicks + 3) ∧ (k ≤ 1 → l.mosi = s.mosi) ∧
      (2 ≤ k → l.mosi = some s.txShift.msb) ∧ (q = .b5 ↔ k = s.halfPeriodTicks + 3) := by
  have hB1 := bitReaches_zero hq hsck
  have hB2 := hB1.act h0 hb nofun actMakes_leadingEdge fun _ => seqTick_b1
  have hB3 := hB2.act_waits h0 hb hH nofun actMakes_driveBit fun _ => seqTick_b2
  have hB4 := hB3.waited h0 hb hH nofun fun _ => seqTick_b3
  have hB5 := hB4.act h0 hb nofun actMakes_trailingEdge fun _ => seqTick_b4
  have hB6 := hB5.act_waits h0 hb hH nofun actMakes_sampleBit fun _ => seqTick_b5
  have hidle : ¬ s.cpol = !s.cpol := by simp
  rcases (by omega : k = 0 + 1 ∨ 2 ≤ k ∧ k < s.halfPeriodTicks + 2 ∨ k = 0 + 1 + 1 + s.halfPeriodTicks ∨
      k = 0 + 1 + 1 + s.halfPeriodTicks + 1 ∨ s.halfPeriodTicks + 4 ≤ k) with rfl | hB | rfl | rfl | hB
  · exact ⟨_, _, _, hB2, iff_of_true rfl (by omega), fun _ => rfl, by omega, iff_of_false nofun (by omega)⟩
  · obtain ⟨d, h⟩ := hB3.waiting h0 hb nofun (fun _ => seqTick_b3) (i := k) (by omega) (by omega)
    exact ⟨_, _, d, h, iff_of_true rfl (by omega), by omega, fun _ => rfl, iff_of_false nofun (by omega)⟩
  · exact ⟨_, _, _, hB4, iff_of_true rfl (by omega), by omega, fun _ => rfl, iff_of_false nofun (by omega)⟩
  · exact ⟨_, _, _, hB5, iff_of_false hidle (by omega), by omega, fun _ => rfl, iff_of_true rfl (by omega)⟩
  · obtain ⟨d, h⟩ := hB6.waiting h0 hb nofun (fun _ => seqTick_b6) (i := k) (by omega) (by omega)
    exact ⟨_, _, d, h, iff_of_false hidle (by omega), by omega, fun _ => rfl, iff_of_false nofun (by omega)⟩

end

/-- Settles O53: the first tick, the ticks between, and the end of the bit. -/
theorem driveFirstBitTiming : Obligations.DriveFirstBitTiming := by
  intro s hb h0 hq hfamily hsck hH hn k hk
  have hfirst : s.seq = firstBitStep s.mode := by rw [hq, firstBitStep_driveFirst hfamily]
  have hidle : ¬ s.cpol = !s.cpol := by simp
  rcases (by omega : k = 0 ∨ 0 < k ∧ k < 2 * s.halfPeriodTicks + 4 ∨ k = 2 * s.halfPeriodTicks + 4) with
    rfl | ⟨hpos, hlt⟩ | rfl
  · exact ⟨s, runsTo_zero s, iff_of_false (by rw [hsck]; exact hidle) (by omega), by omega,
      iff_of_false (by rw [hq]; nofun) (by omega), by omega⟩
  · obtain ⟨q, l, d, hreach, hactive, hbit, hread⟩ := driveFirst_bitReaches h0 hb hH hq hsck hpos hlt
    obtain ⟨t, hrun, hseq, hsck', hmosi⟩ := hreach.shows hb hpos hn hk
    exact ⟨t, hrun, by rw [hsck', hactive, and_iff_left hlt], fun _ => hmosi.trans hbit, by rw [hseq, hread], by omega⟩
  · obtain ⟨t, hrun, hsck', hmosi, hseq⟩ := bit_ends h0 hb hfirst hn
    rw [hq] at hseq
    refine ⟨t, hrun, iff_of_false (by rw [hsck']; exact hidle) (by omega), fun _ => hmosi, iff_of_false ?_ (by omega),
      fun _ => hseq⟩
    rw [hseq]
    split <;> nofun

/-- Settles O54: the first tick, the ticks between, and the end of the bit. -/
theorem clockFirstBitTiming : Obligations.ClockFirstBitTiming := by
  intro s hb h0 hq hfamily hsck hH hn k hk
  have hfirst : s.seq = firstBitStep s.mode := by rw [hq, firstBitStep_clockFirst hfamily]
  have hidle : ¬ s.cpol = !s.cpol := by simp
  rcases (by omega : k = 0 ∨ 0 < k ∧ k < 2 * s.halfPeriodTicks + 4 ∨ k = 2 * s.halfPeriodTicks + 4) with
    rfl | ⟨hpos, hlt⟩ | rfl
  · exact ⟨s, runsTo_zero s, iff_of_false (by rw [hsck]; exact hidle) (by omega), fun _ => rfl, by omega,
      iff_of_false (by rw [hq]; nofun) (by omega), by omega⟩
  · obtain ⟨q, l, d, hreach, hactive, hbefore, hbit, hread⟩ := clockFirst_bitReaches h0 hb hH hq hsck hpos hlt
    obtain ⟨t, hrun, hseq, hsck', hmosi⟩ := hreach.shows hb hpos hn hk
    have hsince : 1 ≤ k := hpos
    exact ⟨t, hrun, by rw [hsck', hactive, and_iff_right hsince], fun h => hmosi.trans (hbefore h),
      fun h => hmosi.trans (hbit h), by rw [hseq, hread], by omega⟩
  · obtain ⟨t, hrun, hsck', hmosi, hseq⟩ := bit_ends h0 hb hfirst hn
    rw [hq] at hseq
    refine ⟨t, hrun, iff_of_false (by rw [hsck']; exact hidle) (by omega), by omega, fun _ => hmosi,
      iff_of_false ?_ (by omega), fun _ => hseq⟩
    rw [hseq]
    split <;> nofun

end Sys2Proof.Machine

namespace Sys2Proof.Machine

/-! ## Errors

An error has its cause in the command and the state it is accepted in (`ErrorCause`). A command with a cause answers that error
and otherwise at most clears `mode_valid` (`exec_of_errorCause`), and one that answers an error has a cause of it
(`errorCause_of_response`). -/

/-- What raises each error response (60 R122, R123, R124). -/
def ErrorCause (i : Instr) (s : State) : Status → Prop
  | .ok => False
  | .invalidMode => s.lifecycle ≠ .released ∧
      ((∃ m : Word, i = .setmode m ∧ 3 < m.toNat) ∨ (∃ base len, i = .write base len ∧ s.modeValid = false))
  | .invalidArgument => s.lifecycle ≠ .released ∧
      (i ∈ reservedCommands ∨
        (∃ base len : Word, i = .write base len ∧ s.modeValid = true ∧ 2 ^ 32 < base.toNat + len.toNat))
  | .released => s.lifecycle = .released

/-- The command is a SETMODE out of range, and its response is not Released: the one error that clears `mode_valid` (60 R125). -/
def ClearsModeValid (i : Instr) (e : Status) : Prop := (∃ m : Word, i = .setmode m ∧ 3 < m.toNat) ∧ e ≠ .released

theorem not_clearsModeValid_write (base len : Word) (e : Status) : ¬ ClearsModeValid (.write base len) e := by
  rintro ⟨⟨m, h, -⟩, -⟩
  nomatch h

theorem not_clearsModeValid_reserved {i : Instr} (hi : i ∈ reservedCommands) (e : Status) : ¬ ClearsModeValid i e := by
  rintro ⟨⟨m, rfl, -⟩, -⟩
  simp [reservedCommands] at hi

/-- A command with a cause of an error only answers it, and clears `mode_valid` where the error is one that does. -/
theorem exec_of_errorCause {i : Instr} {s : State} {e : Status} (h : ErrorCause i s e) :
    (ClearsModeValid i e ∧ exec i s = .next (answered { s with modeValid := false } e)) ∨
      (¬ ClearsModeValid i e ∧ exec i s = .next (answered s e)) := by
  cases e with
  | ok => exact h.elim
  | invalidMode =>
    obtain ⟨hlive, ⟨m, rfl, hm⟩ | ⟨base, len, rfl, hmode⟩⟩ := h
    · exact .inl ⟨⟨⟨m, rfl, hm⟩, nofun⟩, exec_setmode_illegal hlive hm⟩
    · exact .inr ⟨not_clearsModeValid_write base len _, exec_write_answered (writeAnswer_invalidMode hlive hmode base len)⟩
  | invalidArgument =>
    obtain ⟨hlive, hi | ⟨base, len, rfl, hmode, hwrap⟩⟩ := h
    · exact .inr ⟨not_clearsModeValid_reserved hi _, by rw [exec_reserved hi, reservedEffect_live hlive]⟩
    · exact .inr ⟨not_clearsModeValid_write base len _, exec_write_answered (writeAnswer_invalidArgument hlive hmode hwrap)⟩
  | released => exact .inr ⟨fun ⟨_, hne⟩ => hne rfl, exec_released h i⟩

/-- A WRITE answers an error at once only where one of its checks fails (42 R86). -/
theorem errorCause_of_writeAnswer {base len : Word} {s : State} {e : Status} (hw : writeAnswer base len s = some e)
    (he : e ≠ .ok) : ErrorCause (.write base len) s e := by
  unfold writeAnswer at hw
  split_ifs at hw with hreleased hmode hwrap hempty <;> obtain rfl := Option.some.inj hw
  · exact hreleased
  · exact ⟨hreleased, .inr ⟨base, len, rfl, hmode⟩⟩
  · have hwrap' : 2 ^ 32 < base.toNat + len.toNat := not_le.mp (of_decide_eq_false hwrap)
    exact ⟨hreleased, .inr ⟨base, len, rfl, eq_true_of_ne_false hmode, hwrap'⟩⟩
  · exact absurd rfl he

theorem answered_responses (s : State) (st : Status) :
    responses (answered s st).trace = responses s.trace ++ [st] := responses_append _ _

/-- Where no response came before it, the answer of a command is its response. -/
theorem answered_response_eq {s u : State} {st e : Status} (hu : responses u.trace = responses s.trace)
    (h : responses (answered u st).trace = responses s.trace ++ [e]) : st = e := by
  rw [answered_responses, hu] at h
  simpa using h

/-- A command that responds an error has a cause of it. -/
theorem errorCause_of_response {i : Instr} {s t : State} {e : Status} (hx : exec i s = .next t) (he : e ≠ .ok)
    (hr : responses t.trace = responses s.trace ++ [e]) : ErrorCause i s e := by
  by_cases hreleased : s.lifecycle = .released
  · obtain rfl := Host.Outcome.next.inj ((exec_released hreleased i).symm.trans hx)
    obtain rfl := answered_response_eq rfl hr
    exact hreleased
  cases i with
  | setfreq hz =>
    obtain rfl := Host.Outcome.next.inj ((exec_setfreq_live hreleased hz).symm.trans hx)
    exact absurd (answered_response_eq rfl hr).symm he
  | setdelay us =>
    obtain rfl := Host.Outcome.next.inj ((exec_setdelay_live hreleased us).symm.trans hx)
    exact absurd (answered_response_eq rfl hr).symm he
  | destroy =>
    obtain rfl := (destroyEffect_live hreleased).symm.trans (Host.Outcome.next.inj hx)
    exact absurd (answered_response_eq (by simp [responses]) hr).symm he
  | setmode m =>
    rcases le_or_gt m.toNat 3 with hm | hm
    · obtain rfl := Host.Outcome.next.inj ((exec_setmode_legal hreleased hm).symm.trans hx)
      exact absurd (answered_response_eq (by simp [responses]) hr).symm he
    · obtain rfl := Host.Outcome.next.inj ((exec_setmode_illegal hreleased hm).symm.trans hx)
      obtain rfl := answered_response_eq rfl hr
      exact ⟨hreleased, .inl ⟨m, rfl, hm⟩⟩
  | write base len =>
    obtain rfl : writeAccept base len s = t := Host.Outcome.next.inj hx
    cases hw : writeAnswer base len s with
    | none => simp [writeAccept_started hw] at hr
    | some st =>
      rw [writeAccept_answered hw] at hr
      obtain rfl := answered_response_eq rfl hr
      exact errorCause_of_writeAnswer hw he
  | _ =>
    obtain rfl := (reservedEffect_live hreleased).symm.trans (Host.Outcome.next.inj hx)
    obtain rfl := answered_response_eq rfl hr
    exact ⟨hreleased, .inl (by simp [reservedCommands])⟩

/-- The error response is the only event of its command, and it comes exactly of its cause. -/
theorem exec_trace_error_iff {i : Instr} {s t : State} {e : Status} (hx : exec i s = .next t) (he : e ≠ .ok) :
    t.trace = s.trace ++ [.rsp e] ↔ ErrorCause i s e := by
  refine ⟨fun ht => errorCause_of_response hx he (by rw [ht, responses_append]; rfl), fun hcause => ?_⟩
  rcases exec_of_errorCause hcause with ⟨-, hx'⟩ | ⟨-, hx'⟩
  all_goals
    obtain rfl := Host.Outcome.next.inj (hx'.symm.trans hx)
    rfl

/-- Settles O25: the trace of each error has exactly its cause. -/
theorem errorCausesExactly : Obligations.ErrorCausesExactly := fun _ _ _ _ hx =>
  ⟨exec_trace_error_iff hx nofun, exec_trace_error_iff hx nofun, exec_trace_error_iff hx nofun⟩

/-- Settles O26: the response has a cause, and the command with that cause only answers. -/
theorem errorsChangeOnlyTheStatus : Obligations.ErrorsChangeOnlyTheStatus := by
  intro i s t e hx he hr
  rcases exec_of_errorCause (errorCause_of_response hx he hr) with ⟨hclears, hx'⟩ | ⟨hkeeps, hx'⟩
  · obtain rfl := Host.Outcome.next.inj (hx'.symm.trans hx)
    exact ⟨rfl, fun _ => rfl, absurd hclears⟩
  · obtain rfl := Host.Outcome.next.inj (hx'.symm.trans hx)
    exact ⟨rfl, fun h => absurd h hkeeps, fun _ => rfl⟩

end Sys2Proof.Machine

namespace Sys2Proof.Machine

/-! ## Reset and hazards

A reset tick is CREATE whatever the block was doing, so what it leaves is read off `create`. Without one, a step stops in two
kinds of state and answers a next state in every other (`step_next_or_stops`). -/

/-- Where `rst` is 1, no other action of the tick is looked at (70 R141, 44 R100). -/
theorem step_reset {s : State} (hr : s.rstAsserted = true) : step s = .next (create s.nextInputs) := by
  simp [step, tickAction, hr]

theorem cmdReady_iff_of_not_busy {s : State} (hb : s.lifecycle ≠ .busy) : cmdReady s = true ↔ s.rstAsserted = false :=
  (cmdReady_iff s).trans (and_iff_right hb)

/-- Settles O43: the step is CREATE, and its counts are the conversions of the default parameters. -/
theorem resetGivesTheResetState : Obligations.ResetGivesTheResetState := fun _ hr =>
  ⟨_, step_reset hr, rfl, rfl, rfl, rfl, rfl, rfl, rfl, rfl, rfl, halfPeriodFor_toNat _ _, interbyteFor_toNat _ _, rfl, rfl,
    rfl, rfl, rfl, cmdReady_iff_of_not_busy nofun, rfl, rfl⟩

/-- Settles O44: CREATE is all the tick does, so the WRITE it cuts short neither stores nor responds. -/
theorem resetAbortsWriteSilently : Obligations.ResetAbortsWriteSilently := fun _ _ hr =>
  ⟨_, step_reset hr, rfl, rfl, rfl, fun _ => rfl, rfl, rfl⟩

/-- Before the first reset the block is stuck (70 R144). -/
theorem step_beforeFirstReset {s : State} (hr : s.rstAsserted = false) (h0 : s.hasReset = false) :
    step s = .fault .beforeFirstReset := by
  simp [step, tickAction, hr, h0]

theorem step_busyWithoutSequence {s : State} (hr : s.rstAsserted = false) (h0 : s.hasReset = true)
    (hb : s.lifecycle = .busy) (hq : s.seq = .idle) : step s = .fault .busyWithoutSequence := by
  simp [step, tickAction, hr, h0, hb, hq]

/-- A block that is not BUSY takes any move of the host: no command stops it. -/
theorem step_next_of_not_busy {s : State} (hr : s.rstAsserted = false) (h0 : s.hasReset = true)
    (hb : s.lifecycle ≠ .busy) : ∃ t, step s = .next t := by
  match hi : s.hostInput with
  | .cmd w :: rest =>
    rw [step_command h0 hb hr hi]
    exact exec_next _ _
  | .poke _ _ :: _ | .idle :: _ | .reset :: _ | [] => simp [step, tickAction, hr, h0, hb, hi, hostTick]

/-- Where a step stops with the fault `r`: without a reset, before the first one or BUSY with an idle sequencer (log 8, 10). -/
def StopsWith (s : State) (r : Fault) : Prop :=
  s.rstAsserted = false ∧
    ((s.hasReset = false ∧ r = .beforeFirstReset) ∨
      (s.hasReset = true ∧ s.lifecycle = .busy ∧ s.seq = .idle ∧ r = .busyWithoutSequence))

theorem StopsWith.step {s : State} {r : Fault} (h : StopsWith s r) : step s = .fault r := by
  obtain ⟨hr, ⟨h0, rfl⟩ | ⟨h0, hb, hq, rfl⟩⟩ := h
  · exact step_beforeFirstReset hr h0
  · exact step_busyWithoutSequence hr h0 hb hq

/-- A step answers a next state or stops for one of the two reasons. -/
theorem step_next_or_stops (s : State) : (∃ t, step s = .next t) ∨ ∃ r, StopsWith s r := by
  cases hr : s.rstAsserted with
  | true => exact .inl ⟨_, step_reset hr⟩
  | false =>
    cases h0 : s.hasReset with
    | false => exact .inr ⟨_, hr, .inl ⟨h0, rfl⟩⟩
    | true =>
      by_cases hb : s.lifecycle = .busy
      · by_cases hq : s.seq = .idle
        · exact .inr ⟨_, hr, .inr ⟨h0, hb, hq, rfl⟩⟩
        · exact .inl ⟨_, step_sequence hr h0 hb hq⟩
      · exact .inl (step_next_of_not_busy hr h0 hb)

theorem step_not_refused (s : State) (r : Refusal) : step s ≠ .refused r := by
  rcases step_next_or_stops s with ⟨t, ht⟩ | ⟨r', hstop⟩
  · simp [ht]
  · simp [hstop.step]

theorem step_fault_iff (s : State) (r : Fault) : step s = .fault r ↔ StopsWith s r := by
  refine ⟨fun hf => ?_, StopsWith.step⟩
  rcases step_next_or_stops s with ⟨t, ht⟩ | ⟨r', hstop⟩
  · exact absurd (hf.symm.trans ht) nofun
  · obtain rfl := Host.Outcome.fault.inj (hf.symm.trans hstop.step)
    exact hstop

/-- The invariant has a reset behind it, and a running sequencer where the block is BUSY (10 R35 item 6). -/
theorem Inv.not_stopsWith {s : State} (h : Inv s) (r : Fault) : ¬ StopsWith s r := by
  rintro ⟨-, ⟨h0, -⟩ | ⟨-, hb, hq, -⟩⟩
  · exact absurd (h.hasReset.symm.trans h0) nofun
  · exact h.busy.mp hb hq

theorem Inv.step_next {s : State} (h : Inv s) : ∃ t, step s = .next t :=
  (step_next_or_stops s).resolve_right fun ⟨r, hstop⟩ => h.not_stopsWith r hstop

/-- Settles O45: a step that does not answer stops for a reason, and the invariant excludes both reasons. -/
theorem stepStopsExactly : Obligations.StepStopsExactly := fun s =>
  ⟨step_not_refused s, step_fault_iff s, Inv.step_next⟩

end Sys2Proof.Machine
